-- ==== Sys2Proof/Word.lean ====
section
/-!
DEFINITION. The machine words of the DX codec block: the 32-bit register, the byte, the 16-bit CRC value
and the 6-bit sextet (00_scope.md rules R9 and R14).
-/

namespace Sys2Proof

/-- A 32-bit register of the REG space (10_state.md rule R22), and a command word (30_encoding.md rule R80). -/
abbrev Word := BitVec 32

/-- A byte, an unsigned 8-bit value (00_scope.md rule R9). -/
abbrev Byte := BitVec 8

/-- A 16-bit value: the CRC register, a checksum, LEN, NLEN (00_scope.md rule R14). -/
abbrev Half := BitVec 16

/-- A sextet or alphabet index, 0 to 63 (00_scope.md rule R14). -/
abbrev Sextet := BitVec 6

end Sys2Proof
end

