-- ==== Sys2Proof/Syntax.lean ====
section
/-!
DEFINITION. The commands of the block, one constructor per row of spec/opcode_table.json
(30_encoding.md rule R81). A command carries no operand but its option bit (rule R84).
-/

namespace Sys2Proof

/-- The sixteen commands of 30_encoding.md rule R81. -/
inductive Instr where
  /-- NOP, 45_system.md rule R223. -/
  | nop
  /-- SRESET, 45_system.md rule R224. -/
  | sreset
  /-- CRC_INIT, 41_crc.md rule R137. -/
  | crcInit
  /-- CRC_UPDATE, 41_crc.md rule R138. -/
  | crcUpdate
  /-- CRC_CALC, 41_crc.md rule R139. -/
  | crcCalc
  /-- SXT_ENC, 40_sextet.md rule R118. -/
  | sxtEnc
  /-- SXT_DEC, 40_sextet.md rule R119. -/
  | sxtDec
  /-- DFL_STORE, 44_deflate.md rule R206. -/
  | dflStore
  /-- DFL_UNSTORE, 44_deflate.md rule R207. -/
  | dflUnstore
  /-- ENCODE with its option bit NC, 42_frame_encode.md rule R156. -/
  | encode (nc : Bool)
  /-- ENCODE_TTL with its option bit NC, 42_frame_encode.md rule R157. -/
  | encodeTtl (nc : Bool)
  /-- DECODE with its option bit NT, 43_frame_decode.md rule R176. -/
  | decode (nt : Bool)
  /-- INSPECT, 43_frame_decode.md rule R177. -/
  | inspect
  /-- VERIFY, 43_frame_decode.md rule R178. -/
  | verify
  /-- VALIDATE, 43_frame_decode.md rule R179. -/
  | validate
  /-- INFO, 43_frame_decode.md rule R180. -/
  | info
  deriving DecidableEq, Repr

end Sys2Proof
end

