-- ==== Sys2Proof/Decode.lean ====
section
/-!
DEFINITION. The command word (30_encoding.md rules R80 to R83): its fields, the opcode table as rows of
match and mask, the decoder, total on every word and rejecting by name, and the encoder.
-/

namespace Sys2Proof

/-- Field OP, bits 7:0 (30_encoding.md rule R80). -/
def opField (w : Word) : BitVec 8 := w.extractLsb' 0 8

/-- Field NC, bit 8 (30_encoding.md rule R80). -/
def ncField (w : Word) : Bool := w.getLsbD 8

/-- Field NT, bit 9 (30_encoding.md rule R80). -/
def ntField (w : Word) : Bool := w.getLsbD 9

/-- Field ZERO, bits 31:10 (30_encoding.md rule R80). -/
def zeroField (w : Word) : BitVec 22 := w.extractLsb' 10 22

/-- One row of the opcode map of 30_encoding.md rule R81. -/
structure OpcodeRow where
  mnemonic : String
  pattern : Word
  mask : Word
  /-- The command, with its option bit read from the word. -/
  build : Word → Instr

/-- "word `w` is that command exactly when `(w AND mask) = match`" (30_encoding.md rule R81). -/
def OpcodeRow.accepts (r : OpcodeRow) (w : Word) : Bool := w &&& r.mask == r.pattern

/-- The opcode map of 30_encoding.md rule R81, row by row. -/
def opcodeTable : List OpcodeRow :=
  [ ⟨"NOP",         0x00000000, 0xFFFFFFFF, fun _ => .nop⟩,
    ⟨"SRESET",      0x00000001, 0xFFFFFFFF, fun _ => .sreset⟩,
    ⟨"CRC_INIT",    0x00000010, 0xFFFFFFFF, fun _ => .crcInit⟩,
    ⟨"CRC_UPDATE",  0x00000011, 0xFFFFFFFF, fun _ => .crcUpdate⟩,
    ⟨"CRC_CALC",    0x00000012, 0xFFFFFFFF, fun _ => .crcCalc⟩,
    ⟨"SXT_ENC",     0x00000020, 0xFFFFFFFF, fun _ => .sxtEnc⟩,
    ⟨"SXT_DEC",     0x00000021, 0xFFFFFFFF, fun _ => .sxtDec⟩,
    ⟨"DFL_STORE",   0x00000030, 0xFFFFFFFF, fun _ => .dflStore⟩,
    ⟨"DFL_UNSTORE", 0x00000031, 0xFFFFFFFF, fun _ => .dflUnstore⟩,
    ⟨"ENCODE",      0x00000040, 0xFFFFFEFF, fun w => .encode (ncField w)⟩,
    ⟨"ENCODE_TTL",  0x00000041, 0xFFFFFEFF, fun w => .encodeTtl (ncField w)⟩,
    ⟨"DECODE",      0x00000042, 0xFFFFFDFF, fun w => .decode (ntField w)⟩,
    ⟨"INSPECT",     0x00000043, 0xFFFFFFFF, fun _ => .inspect⟩,
    ⟨"VERIFY",      0x00000044, 0xFFFFFFFF, fun _ => .verify⟩,
    ⟨"VALIDATE",    0x00000045, 0xFFFFFFFF, fun _ => .validate⟩,
    ⟨"INFO",        0x00000046, 0xFFFFFFFF, fun _ => .info⟩ ]

/-- Why a word is no command (30_encoding.md rule R83). All four end in the one error E_ILLEGAL_CMD; the
name is for the reader only (DESIGN CHOICE, log 9). -/
inductive IllegalWord where
  /-- "an OP value not in the table". -/
  | unknownOpcode
  /-- "any of bits 31:10 set". -/
  | reservedBits
  /-- "NC set on a command other than ENCODE and ENCODE_TTL". -/
  | ncNotAnOption
  /-- "NT set on a command other than DECODE". -/
  | ntNotAnOption
  deriving DecidableEq, Repr

/-- The reason a word that matches no row is illegal, the first that applies (DESIGN CHOICE, log 9). -/
def illegalReason (w : Word) : IllegalWord :=
  if zeroField w ≠ 0 then .reservedBits
  else if !(opcodeTable.any fun r => r.accepts (w &&& 0xFF)) then .unknownOpcode
  else if ncField w && opField w != 0x40 && opField w != 0x41 then .ncNotAnOption
  else .ntNotAnOption

/-- The decoder: the command of the row that accepts the word, or the reason there is none
(30_encoding.md rules R81 and R83). -/
def decode (w : Word) : Except IllegalWord Instr :=
  match opcodeTable.find? (fun r => r.accepts w) with
  | some r => .ok (r.build w)
  | none => .error (illegalReason w)

/-- The host's entry to the decoder. The bits of a command are those of the one 32-bit word written to CMD,
numbered as 30_encoding.md rule R80 numbers them; the bits above `nbits` are zero. -/
def decodeTableWord (nbits w : Nat) : Option Instr :=
  match decode (BitVec.ofNat 32 (w % 2 ^ nbits)) with
  | .ok i => some i
  | .error _ => none

/-- The encoder: the match value of 30_encoding.md rule R81 "with bit 8 set for `.nc` and bit 9 set for
`.nt`" (rule R85). -/
def encode : Instr → Word
  | .nop => 0x00000000
  | .sreset => 0x00000001
  | .crcInit => 0x00000010
  | .crcUpdate => 0x00000011
  | .crcCalc => 0x00000012
  | .sxtEnc => 0x00000020
  | .sxtDec => 0x00000021
  | .dflStore => 0x00000030
  | .dflUnstore => 0x00000031
  | .encode nc => if nc then 0x00000140 else 0x00000040
  | .encodeTtl nc => if nc then 0x00000141 else 0x00000041
  | .decode nt => if nt then 0x00000242 else 0x00000042
  | .inspect => 0x00000043
  | .verify => 0x00000044
  | .validate => 0x00000045
  | .info => 0x00000046

end Sys2Proof
end

