-- ==== Sys2Proof/Config.lean ====
section
/-!
DEFINITION. What is fixed for one block: the constants DX fixes (00_scope.md rule R6), the open parameters
(rule R7), the test instantiation of the parameters (95_test_vectors.md section 0), and the free values.
-/

namespace Sys2Proof.Config

/-- The open parameters of 00_scope.md rule R7. A block has one value of this type for its whole life
(10_state.md rule R21); `Params.wf` of WellFormed.lean is the list of constraints. -/
structure Params where
  /-- `ALPHA`: the byte code of alphabet index `k`. -/
  alpha : Vector Byte 64
  /-- `PAD`: the byte code of the padding character. -/
  pad : Byte
  /-- `IBUF_SIZE` in bytes. -/
  ibufSize : Nat
  /-- `OBUF_SIZE` in bytes. -/
  obufSize : Nat
  deriving DecidableEq, Repr

/-- `PREFIX_BYTES`: the ASCII codes of `d` and `x` (00_scope.md rule R6, 30_encoding.md rule R95). -/
def markBytes : List Byte := [0x64, 0x78]

/-- `MAGIC6 = 0x44 AND 0x3F` (00_scope.md rule R6, 90_conflicts.md C2). -/
def magic6 : Sextet := 0x04

/-- `POLY` (00_scope.md rule R6). -/
def poly : Half := 0x1021

/-- `CRC_INIT_VALUE` (00_scope.md rule R6). -/
def crcInitValue : Half := 0xFFFF

/-- `COMPRESS_THRESHOLD` (00_scope.md rule R6). -/
def compressThreshold : Nat := 32

/-- `COMPRESS_MAX` (00_scope.md rule R6). -/
def compressMax : Nat := 65535

/-- `FLAG_COMPRESSED` (00_scope.md rule R6). -/
def flagCompressed : Byte := 0x01

/-- `FLAG_DEFLATE` (00_scope.md rule R6). -/
def flagDeflate : Byte := 0x02

/-- `FLAG_TTL` (00_scope.md rule R6). -/
def flagTtl : Byte := 0x04

/-- `FLAG_RESERVED_MASK` (00_scope.md rule R6). -/
def flagReservedMask : Byte := 0xF8

/-- The test alphabet TA of 95_test_vectors.md section 0: `A` to `Z`, `a` to `z`, `0` to `9`, `-`, `_`. It is
the spec's own instantiation and not dxcode's alphabet (93_implementation_defined.md G8). -/
def testAlpha : Vector Byte 64 :=
  #v[0x41, 0x42, 0x43, 0x44, 0x45, 0x46, 0x47, 0x48, 0x49, 0x4A, 0x4B, 0x4C, 0x4D, 0x4E, 0x4F, 0x50,
     0x51, 0x52, 0x53, 0x54, 0x55, 0x56, 0x57, 0x58, 0x59, 0x5A, 0x61, 0x62, 0x63, 0x64, 0x65, 0x66,
     0x67, 0x68, 0x69, 0x6A, 0x6B, 0x6C, 0x6D, 0x6E, 0x6F, 0x70, 0x71, 0x72, 0x73, 0x74, 0x75, 0x76,
     0x77, 0x78, 0x79, 0x7A, 0x30, 0x31, 0x32, 0x33, 0x34, 0x35, 0x36, 0x37, 0x38, 0x39, 0x2D, 0x5F]

/-- DESIGN CHOICE (log 1): the parameters of `State.reset`, those of 95_test_vectors.md section 0. No
definition of the machine depends on them: the machine reads the parameters its state carries. -/
def testParams : Params :=
  { alpha := testAlpha, pad := 0x3D, ibufSize := 1024, obufSize := 1024 }

/-- Free value (log 5): what a host reads from an IBUF byte that no host write has set since hardware reset
(20_memory.md rule R65), by the epoch of IBUF and the index. -/
opaque freeIbufByte : Nat → Nat → Byte

/-- Free value (log 6): what a host reads from an OBUF byte whose value no rule specifies (10_state.md
rule R42, 93_implementation_defined.md U3), by the epoch of OBUF and the index. -/
opaque freeObufByte : Nat → Nat → Byte

/-- Free value (log 10): what OLEN holds for an output of `n` bytes, `n` at least 2^32, whose length no
32-bit register can hold (the spec states no result there). -/
opaque freeLength : Nat → Word

end Sys2Proof.Config
end

