-- ==== Sys2Proof/Machine/State.lean ====
section
/-!
DEFINITION. The state of the DX codec block (10_state.md rule R20) with the inputs its environment still has
to make, the reasons a step can stop, and the state after reset (10_state.md rule R46).
-/

namespace Sys2Proof.Machine

open Sys2Proof.Config (Params)

/-- A byte buffer as (index, byte) pairs with strictly rising indices. An index that is not listed holds no
byte that a rule specifies (logs 5 and 6). -/
abbrev Memory := List Host.Cell

/-- The register names of 10_state.md rule R22. -/
inductive Reg where
  | cmd | status | errcode | ilen | olen | crc | crcStored | crcComputed | flags | ttlArg | now
  | ttlCreated | ttlSeconds | expiresLo | info | origSize | result
  deriving DecidableEq, Repr

/-- The error kinds of 60_exceptions.md rule R231, code 0 (no error) apart. -/
inductive ErrKind where
  /-- Code 1, reserved: "never raised by this block". -/
  | inputType
  | missingMark
  | format
  | invalidFlags
  | checksum
  | expired
  | compression
  | unsupported
  | capacity
  | illegalCmd
  deriving DecidableEq, Repr

/-- The two byte spaces of 20_memory.md rule R60. -/
inductive Buffer where
  | ibuf | obuf
  deriving DecidableEq, Repr

/-- The host's access primitives (20_memory.md rule R62). `bufWrite .obuf` is there because the spec gives
it a meaning: it is ignored (10_state.md rule R42). -/
inductive HostAccess where
  | regRead (i : Nat)
  | regWrite (i : Nat) (v : Word)
  | bufRead (b : Buffer) (a : Nat)
  | bufWrite (b : Buffer) (a : Nat) (v : Byte)
  deriving DecidableEq, Repr

/-- What the host's last access returned (log 4). -/
inductive Response where
  | word (v : Word)
  | byte (v : Byte)
  deriving DecidableEq, Repr

/-- One turn of an agent or an input (00_scope.md rule R16, log 2). -/
inductive Event where
  /-- The host makes one access (20_memory.md rule R70). -/
  | host (a : HostAccess)
  /-- The engine takes its turn: it completes the pending command if there is one (45_system.md rule R221). -/
  | engine
  /-- The platform drives the `NOW` input with a value (10_state.md rule R36). -/
  | driveNow (v : Word)
  /-- The hardware reset input is asserted and released (70_reset_and_hazards.md rule R260). -/
  | hardwareReset
  deriving DecidableEq, Repr

/-- The state. The fields `cmd` to `result` are the registers of 10_state.md rule R22 but for NOW, which is
the live input `nowInput`. -/
structure State where
  /-- The parameters of the block, fixed for its life (10_state.md rule R21, log 1). -/
  params : Params
  cmd : Word
  status : Word
  errcode : Word
  ilen : Word
  olen : Word
  crc : Word
  crcStored : Word
  crcComputed : Word
  flags : Word
  ttlArg : Word
  ttlCreated : Word
  ttlSeconds : Word
  expiresLo : Word
  info : Word
  origSize : Word
  result : Word
  /-- The time sampled by the last accepted CMD write (10_state.md rule R36). -/
  nows : Word
  /-- The present level of the `NOW` input (10_state.md rule R36). -/
  nowInput : Word
  /-- The input buffer: the bytes written since hardware reset (10_state.md rule R41). -/
  ibuf : Memory
  /-- The output buffer: the bytes the rules specify (10_state.md rule R42). -/
  obuf : Memory
  /-- The model's own (log 7): names the unspecified contents of IBUF. -/
  ibufEpoch : Nat
  /-- The model's own (log 7): names the unspecified contents of OBUF. -/
  obufEpoch : Nat
  /-- The model's own (log 4): what the host's last access returned. -/
  response : Option Response
  /-- The model's own (log 2): the turns still to come, the first to be taken first. -/
  events : List Event
  deriving DecidableEq, Repr

/-- The reasons a step can fault. -/
inductive Fault where
  /-- Raised by a command whose input range holds an IBUF byte that no host write has set since hardware
  reset (20_memory.md rule R65, 93_implementation_defined.md U4). Safe: the hardware goes on with an
  unspecified value, the model claims nothing. -/
  | unwrittenInput
  deriving DecidableEq, Repr

/-- The reasons a step can be refused. -/
inductive Refusal where
  /-- Raised by `exec` for an instruction without a meaning; no instruction of this model is one. Safe. -/
  | notModelled (mnemonic : String)
  /-- Raised by a host access other than a STATUS read or a CMD write while BUSY = 1 (20_memory.md rule R73,
  93_implementation_defined.md U5: no step exists). Safe. -/
  | accessWhileBusy
  /-- Raised by a host access to a buffer at or above its size (20_memory.md rule R61,
  93_implementation_defined.md U6). Safe. -/
  | bufferIndexOutside
  deriving DecidableEq, Repr

/-- The state after hardware reset of a block with the parameters `p` (10_state.md rule R46,
70_reset_and_hazards.md rule R261). The model's own fields are DESIGN CHOICE (logs 2, 3, 4, 7). -/
def State.resetWith (p : Params) : State where
  params := p
  cmd := 0
  status := 0
  errcode := 0
  ilen := 0
  olen := 0
  crc := 0x0000FFFF
  crcStored := 0
  crcComputed := 0
  flags := 0
  ttlArg := 0
  ttlCreated := 0
  ttlSeconds := 0
  expiresLo := 0
  info := 0
  origSize := 0
  result := 0
  nows := 0
  nowInput := 0
  ibuf := []
  obuf := []
  ibufEpoch := 0
  obufEpoch := 0
  response := none
  events := []

/-- The machine right after reset, with the parameters of 95_test_vectors.md section 0 (DESIGN CHOICE, log 1). -/
def State.reset : State := State.resetWith Config.testParams

end Sys2Proof.Machine
end

