-- ==== Sys2Proof/Machine/Flags.lean ====
section
/-!
DEFINITION. Every flag computation of the spec: STATUS (10_state.md rule R26), the error codes
(60_exceptions.md rule R231), the flags byte (30_encoding.md rules R87, R88, R90), expiry (43_frame_decode.md
rule R175) and the INFO word (10_state.md rule R37).
-/

namespace Sys2Proof.Machine

/-- STATUS.BUSY, bit 0 (10_state.md rule R22). -/
def State.busy (s : State) : Bool := s.status.getLsbD 0

/-- STATUS.DONE, bit 1 (10_state.md rule R22). -/
def State.done (s : State) : Bool := s.status.getLsbD 1

/-- STATUS.ERR, bit 2 (10_state.md rule R22). -/
def State.err (s : State) : Bool := s.status.getLsbD 2

/-- The STATUS word with the given bits, bits 31:3 zero (10_state.md rule R22). -/
def statusWord (busy done err : Bool) : Word :=
  (BitVec.ofBool err ++ BitVec.ofBool done ++ BitVec.ofBool busy).setWidth 32

/-- The codes of 60_exceptions.md rule R231. -/
def ErrKind.code : ErrKind → Word
  | .inputType => 1
  | .missingMark => 2
  | .format => 3
  | .invalidFlags => 4
  | .checksum => 5
  | .expired => 6
  | .compression => 7
  | .unsupported => 8
  | .capacity => 9
  | .illegalCmd => 10

/-- Flags bit 0, "compressed" (30_encoding.md rule R87). -/
def isCompressed (f : Byte) : Bool := f &&& Config.flagCompressed != 0

/-- Flags bit 1, "compression-algorithm-is-deflate" (30_encoding.md rule R87). -/
def isDeflate (f : Byte) : Bool := f &&& Config.flagDeflate != 0

/-- Flags bit 2, "has-TTL" (30_encoding.md rule R87). -/
def hasTtl (f : Byte) : Bool := f &&& Config.flagTtl != 0

/-- A reserved flag bit is set (30_encoding.md rule R88). -/
def reservedFlagsSet (f : Byte) : Bool := f &&& Config.flagReservedMask != 0

/-- `P`, the offset where the payload starts (30_encoding.md rule R90). -/
def payloadStart (f : Byte) : Nat := if hasTtl f then 11 else 3

/-- `S`, the offset where the bytes for the checksum or the decompressor start, which is also the least
envelope length the decoder accepts (30_encoding.md rule R90). -/
def dataStart (f : Byte) : Nat := if isCompressed f then payloadStart f + 2 else payloadStart f

/-- expires-at, the 33-bit sum, never wrapped (00_scope.md rule R14, 43_frame_decode.md rule R175). -/
def expiresAt (created seconds : Word) : BitVec 33 := created.setWidth 33 + seconds.setWidth 33

/-- "the text is expired when `NOWS > created + seconds`"; `seconds = 0` never expires
(43_frame_decode.md rule R175). -/
def isExpired (created seconds nows : Word) : Bool :=
  decide (0 < seconds.toNat) && decide (created.toNat + seconds.toNat < nows.toNat)

/-- The value of EXPIRES_LO for a TTL block (10_state.md rule R38). -/
def expiresLoWord (created seconds : Word) : Word :=
  if 0 < seconds.toNat then (expiresAt created seconds).extractLsb' 0 32 else 0

/-- INFO.EXPIRES_VALID (10_state.md rule R37). -/
def expiresValid (f : Byte) (seconds : Word) : Bool := hasTtl f && decide (0 < seconds.toNat)

/-- The INFO word, bit 5 first (10_state.md rule R37). -/
def infoWord (f : Byte) (created seconds nows : Word) : Word :=
  (BitVec.ofBool (expiresValid f seconds && (expiresAt created seconds).getLsbD 32)
    ++ BitVec.ofBool (expiresValid f seconds && isExpired created seconds nows)
    ++ BitVec.ofBool (expiresValid f seconds)
    ++ BitVec.ofBool (hasTtl f)
    ++ BitVec.ofBool (isDeflate f)
    ++ BitVec.ofBool (isCompressed f)).setWidth 32

/-- A boolean answer in RESULT bit 0 (10_state.md rule R39). -/
def resultWord (b : Bool) : Word := (BitVec.ofBool b).setWidth 32

end Sys2Proof.Machine
end

