-- ==== Sys2Proof/Machine/Ops.lean ====
section
/-!
DEFINITION. The named operations over memory and registers (00_scope.md rule R12), the common start and end
of a command (45_system.md rule R220), taking an error as one operation (60_exceptions.md rule R236), and
accepting the next command, which is all the return from an error there is (60_exceptions.md rule R244).
-/

namespace Sys2Proof.Machine

/-! ### Buffers -/

/-- The canonical form: indices strictly rising. -/
def Memory.wf : Memory → Bool
  | [] => true
  | [_] => true
  | c :: d :: m => decide (c.1 < d.1) && Memory.wf (d :: m)

/-- Every listed index is below `n`. -/
def Memory.below (n : Nat) (m : Memory) : Bool := m.all fun c => decide (c.1 < n)

/-- The byte at index `a`, or none where no rule specifies one. -/
def Memory.read : Memory → Nat → Option Byte
  | [], _ => none
  | c :: m, a => if c.1 = a then some c.2 else Memory.read m a

/-- One byte written, in index order. -/
def Memory.write : Memory → Nat → Byte → Memory
  | [], a, v => [(a, v)]
  | c :: m, a, v =>
    if a < c.1 then (a, v) :: c :: m
    else if a = c.1 then (a, v) :: m
    else c :: Memory.write m a v

/-- `MemRead(space, a, n)` (00_scope.md rule R12): the `n` bytes from index `a` on, or none where one of
them has no specified value. -/
def Memory.readRange (m : Memory) : Nat → Nat → Option (List Byte)
  | _, 0 => some []
  | a, n + 1 =>
    match m.read a, Memory.readRange m (a + 1) n with
    | some b, some bs => some (b :: bs)
    | _, _ => none

/-- `MemWrite(space, a, n, v)` (00_scope.md rule R12): byte `v[0]` at index `a`, and so on. -/
def Memory.writeRange : Memory → Nat → List Byte → Memory
  | m, _, [] => m
  | m, a, b :: bs => Memory.writeRange (m.write a b) (a + 1) bs

/-! ### Registers -/

/-- The register at an index; indices 17 and above are not implemented (10_state.md rules R22 and R23). -/
def Reg.ofIndex : Nat → Option Reg
  | 0 => some .cmd
  | 1 => some .status
  | 2 => some .errcode
  | 3 => some .ilen
  | 4 => some .olen
  | 5 => some .crc
  | 6 => some .crcStored
  | 7 => some .crcComputed
  | 8 => some .flags
  | 9 => some .ttlArg
  | 10 => some .now
  | 11 => some .ttlCreated
  | 12 => some .ttlSeconds
  | 13 => some .expiresLo
  | 14 => some .info
  | 15 => some .origSize
  | 16 => some .result
  | _ => none

/-- `x[NAME]` (00_scope.md rule R12). NOW is the live input (10_state.md rule R36). -/
def State.get (s : State) : Reg → Word
  | .cmd => s.cmd
  | .status => s.status
  | .errcode => s.errcode
  | .ilen => s.ilen
  | .olen => s.olen
  | .crc => s.crc
  | .crcStored => s.crcStored
  | .crcComputed => s.crcComputed
  | .flags => s.flags
  | .ttlArg => s.ttlArg
  | .now => s.nowInput
  | .ttlCreated => s.ttlCreated
  | .ttlSeconds => s.ttlSeconds
  | .expiresLo => s.expiresLo
  | .info => s.info
  | .origSize => s.origSize
  | .result => s.result

/-- `x[NAME] <- v` (00_scope.md rule R12). NOW has no storage: nothing in the block writes it. -/
def State.set (s : State) (r : Reg) (v : Word) : State :=
  match r with
  | .cmd => { s with cmd := v }
  | .status => { s with status := v }
  | .errcode => { s with errcode := v }
  | .ilen => { s with ilen := v }
  | .olen => { s with olen := v }
  | .crc => { s with crc := v }
  | .crcStored => { s with crcStored := v }
  | .crcComputed => { s with crcComputed := v }
  | .flags => { s with flags := v }
  | .ttlArg => { s with ttlArg := v }
  | .now => s
  | .ttlCreated => { s with ttlCreated := v }
  | .ttlSeconds => { s with ttlSeconds := v }
  | .expiresLo => { s with expiresLo := v }
  | .info => { s with info := v }
  | .origSize => { s with origSize := v }
  | .result => { s with result := v }

/-- The eleven result registers of 10_state.md rule R24. -/
def resultRegs : List Reg :=
  [.errcode, .olen, .crcStored, .crcComputed, .flags, .ttlCreated, .ttlSeconds, .expiresLo, .info,
   .origSize, .result]

/-! ### Procedures

A command's pseudocode either runs to its end or stops at a `raise`; the register writes before a `raise`
stand (60_exceptions.md rule R236), so both outcomes carry a state. -/

/-- The outcome of a piece of pseudocode (00_scope.md rules R12 and R13). -/
inductive Proc (α : Type) where
  /-- It ran to its end with a value. -/
  | ok (a : α) (s : State)
  /-- It stopped at `raise e`; the writes before it are in `s`. -/
  | raised (e : ErrKind) (s : State)

/-- Nothing after a `raise` is executed (00_scope.md rule R12). -/
def Proc.bind {α β : Type} (p : Proc α) (f : α → State → Proc β) : Proc β :=
  match p with
  | .ok a s => f a s
  | .raised e s => .raised e s

/-- `v <- f(..) else raise` (00_scope.md rule R13). -/
def orRaise {α : Type} (r : Except ErrKind α) (s : State) : Proc α :=
  match r with
  | .ok a => .ok a s
  | .error e => .raised e s

/-- A byte count as a register value (00_scope.md rule R14). A count that no 32-bit register can hold gives
a free value (log 10). -/
def lengthWord (n : Nat) : Word := if n < 2 ^ 32 then BitVec.ofNat 32 n else Config.freeLength n

/-- `emit(v)` (00_scope.md rule R12). OBUF keeps nothing beyond the output: those bytes are unspecified
(10_state.md rule R42). -/
def emit (v : List Byte) (s : State) : Proc Unit :=
  if s.params.obufSize < v.length then .raised .capacity s
  else .ok () ({ s with obuf := Memory.writeRange [] 0 v }.set .olen (lengthWord v.length))

/-! ### The life of a command (45_system.md rule R220) -/

/-- Phase 0, for an accepted CMD write: CMD takes the word, NOWS the time, STATUS is BUSY alone
(10_state.md rule R25). It is also what ends an error (60_exceptions.md rule R244). -/
def acceptCommand (w : Word) (s : State) : State :=
  { s with cmd := w, nows := s.nowInput, status := statusWord true false false }

/-- Phase 1: "clear the eleven result registers" (10_state.md rule R24). -/
def clearResults (s : State) : State :=
  { s with
    errcode := 0, olen := 0, crcStored := 0, crcComputed := 0, flags := 0, ttlCreated := 0,
    ttlSeconds := 0, expiresLo := 0, info := 0, origSize := 0, result := 0 }

/-- From the start of a command every byte of OBUF is unspecified until `emit` writes it
(10_state.md rule R42, 93_implementation_defined.md U3, log 6). -/
def forgetObuf (s : State) : State := { s with obuf := [], obufEpoch := s.obufEpoch + 1 }

/-- What every accepted command does before its own work (45_system.md rule R220 phase 1). -/
def commonStart (s : State) : State := forgetObuf (clearResults s)

/-- Taking an error: phase 5 after `raise e` (45_system.md rule R220, 60_exceptions.md rule R236). The
registers written before the raise are the saved diagnostics (rule R243). -/
def takeError (e : ErrKind) (s : State) : State :=
  (({ s with obuf := [] }.set .errcode e.code).set .olen 0).set .status (statusWord false true true)

/-- Phase 5 without an error (45_system.md rule R220). -/
def finish (s : State) : State := s.set .status (statusWord false true false)

/-- Phase 5, as the outcome of phase 4 says (45_system.md rule R220). -/
def complete (p : Proc Unit) : State :=
  match p with
  | .ok _ s => finish s
  | .raised e s => takeError e s

/-- Every register at its reset value, NOWS = 0 (45_system.md rule R224, 70_reset_and_hazards.md rule R261).
NOW follows its input; the buffers are not touched here. -/
def resetRegisters (s : State) : State :=
  { State.resetWith s.params with
    nowInput := s.nowInput, ibuf := s.ibuf, obuf := s.obuf, ibufEpoch := s.ibufEpoch,
    obufEpoch := s.obufEpoch, response := s.response, events := s.events }

/-- The hardware reset input (70_reset_and_hazards.md rule R260): the registers reset, a running command
abandoned, every byte of IBUF and OBUF unspecified. What the host last read and the turns still to come
are not the block's (log 11). -/
def hardwareReset (s : State) : State :=
  { resetRegisters s with
    ibuf := [], obuf := [], ibufEpoch := s.ibufEpoch + 1, obufEpoch := s.obufEpoch + 1 }

end Sys2Proof.Machine
end

