-- ==== Sys2Proof/Machine/Operands.lean ====
section
/-!
DEFINITION. The operands of the commands (30_encoding.md rule R84): the input `IN`, with the capacity check of
45_system.md rule R220 phase 3; the CRC register; the TTL operands; the option bits with their polarity
(30_encoding.md rule R82).
-/

namespace Sys2Proof.Machine

/-- `IN = MemRead(IBUF, 0, x[ILEN])` (00_scope.md rule R12), none if a byte of it was never written. -/
def inputOf (s : State) : Option (List Byte) := s.ibuf.readRange 0 (s.get .ilen).toNat

/-- "`x[ILEN] > IBUF_SIZE`" (45_system.md rule R220 phase 3), over the natural numbers. -/
def inputTooLong (s : State) : Bool := decide (s.params.ibufSize < (s.get .ilen).toNat)

/-- `x[CRC]` as an operand: bits 15:0 (41_crc.md rule R138). -/
def crcOperand (s : State) : Half := (s.get .crc).extractLsb' 0 16

/-- DX's `compress` option: NC = 0 means true (30_encoding.md rule R82). -/
def compressOption (nc : Bool) : Bool := !nc

/-- DX's `checkTtl` option: NT = 0 means true (30_encoding.md rule R82). -/
def checkTtlOption (nt : Bool) : Bool := !nt

/-- A command that reads no input: phases 1, 4 and 5 of 45_system.md rule R220. -/
def runPlain (s : State) (body : State → Proc Unit) : Host.Outcome State Fault Refusal :=
  .next (complete (body (commonStart s)))

/-- A command that reads IBUF: phases 1, 3, 4 and 5 of 45_system.md rule R220. An input byte never written
is a fault of the model (93_implementation_defined.md U4, log 5). -/
def runOnInput (s : State) (body : List Byte → State → Proc Unit) : Host.Outcome State Fault Refusal :=
  if inputTooLong s then .next (takeError .capacity (commonStart s))
  else
    match inputOf s with
    | none => .fault .unwrittenInput
    | some inp => .next (complete (body inp (commonStart s)))

end Sys2Proof.Machine
end

