-- ==== Sys2Proof/Machine/Checksum.lean ====
section
/-!
DEFINITION. The Checksum Engine (41_crc.md): the table, the step in both forms, the whole-buffer functions and
the commands CRC_INIT, CRC_UPDATE, CRC_CALC.
-/

namespace Sys2Proof.Machine

/-- One shift, "applying polynomial on the high bit" (41_crc.md rule R131). -/
def crcShift (c : Half) : Half := if c.getLsbD 15 then (c <<< 1) ^^^ Config.poly else c <<< 1

/-- "repeat 8 times" and its like. -/
def crcShifts : Nat → Half → Half
  | 0, c => c
  | n + 1, c => crcShifts n (crcShift c)

/-- `CRC_TAB[i]`: "seed `crc = i<<8`, shift 8 times" (41_crc.md rule R131). The table is a constant
(10_state.md rule R44, log 18). -/
def crcTab (i : Byte) : Half := crcShifts 8 (i.setWidth 16 <<< 8)

/-- The per-byte step, table-driven (41_crc.md rule R133). -/
def crcStep (c : Half) (b : Byte) : Half := (c <<< 8) ^^^ crcTab ((c >>> 8).setWidth 8 ^^^ b)

/-- The per-byte step, bit-serial (41_crc.md rule R134). -/
def crcStepSerial (c : Half) (b : Byte) : Half := crcShifts 8 (c ^^^ (b.setWidth 16 <<< 8))

/-- `crc_update(c, B)`, a fold from the left (41_crc.md rule R135). -/
def crcUpdate (c : Half) (bs : List Byte) : Half := bs.foldl crcStep c

/-- `crc16(B)` (41_crc.md rule R135). -/
def crc16 (bs : List Byte) : Half := crcUpdate Config.crcInitValue bs

/-- A 16-bit value in bits 15:0 of a register (10_state.md rule R22). -/
def halfWord (h : Half) : Word := h.setWidth 32

/-- CRC_INIT (41_crc.md rule R137). -/
def execCrcInit (s : State) : Host.Outcome State Fault Refusal :=
  runPlain s fun s => .ok () (s.set .crc (halfWord Config.crcInitValue))

/-- CRC_UPDATE (41_crc.md rule R138). -/
def execCrcUpdate (s : State) : Host.Outcome State Fault Refusal :=
  runOnInput s fun inp s => .ok () (s.set .crc (halfWord (crcUpdate (crcOperand s) inp)))

/-- CRC_CALC (41_crc.md rule R139). -/
def execCrcCalc (s : State) : Host.Outcome State Fault Refusal :=
  runOnInput s fun inp s =>
    .ok () ((s.set .crc (halfWord (crc16 inp))).set .crcComputed (halfWord (crc16 inp)))

end Sys2Proof.Machine
end

