-- ==== Sys2Proof/Machine/Bytes.lean ====
section
/-!
DEFINITION. Byte order and small byte-sequence helpers (00_scope.md rule R11, 20_memory.md rules R66 to R68).
-/

namespace Sys2Proof.Machine

/-- `be16(v) = [v[15:8], v[7:0]]` (00_scope.md rule R11). -/
def be16 (v : Half) : List Byte := [v.extractLsb' 8 8, v.extractLsb' 0 8]

/-- `be32(v)`, most significant byte first (00_scope.md rule R11). -/
def be32 (v : Word) : List Byte :=
  [v.extractLsb' 24 8, v.extractLsb' 16 8, v.extractLsb' 8 8, v.extractLsb' 0 8]

/-- `le16(v) = [v[7:0], v[15:8]]` (00_scope.md rule R11). -/
def le16 (v : Half) : List Byte := [v.extractLsb' 0 8, v.extractLsb' 8 8]

/-- `from_be16([a, b]) = a * 256 + b` (00_scope.md rule R11). -/
def fromBe16 (a b : Byte) : Half := a ++ b

/-- `from_be32([a, b, c, d])` (00_scope.md rule R11). -/
def fromBe32 (a b c d : Byte) : Word := a ++ b ++ c ++ d

/-- `from_le16([a, b]) = a + b * 256` (00_scope.md rule R11). -/
def fromLe16 (a b : Byte) : Half := b ++ a

end Sys2Proof.Machine
end

