-- ==== Sys2Proof/Machine/Deflate.lean ====
section
/-!
DEFINITION. The Compression Sub-component in its stored-block form (44_deflate.md): `dfl_store`, `dfl_unstore`
and the commands DFL_STORE and DFL_UNSTORE.
-/

namespace Sys2Proof.Machine

/-- `dfl_store(B)` (44_deflate.md rules R201 and R202). -/
def dflStore (bs : List Byte) : Except ErrKind (List Byte) :=
  if 65535 < bs.length then .error .compression
  else
    let n := BitVec.ofNat 16 bs.length
    .ok (0x01 :: (le16 n ++ le16 (n ^^^ 0xFFFF) ++ bs))

/-- BFINAL, bit 0 of a block header (30_encoding.md rule R97). -/
def blockFinal (h : Byte) : Bool := h.getLsbD 0

/-- BTYPE, bits 2:1 of a block header (30_encoding.md rule R97). -/
def blockType (h : Byte) : BitVec 2 := h.extractLsb' 1 2

/-- The loop of `dfl_unstore` (44_deflate.md rule R204) on the rest of the stream from `pos` on, with the
output so far. Each turn takes at least 5 bytes, so the stream's length plus one bounds the turns (log 14). -/
def dflUnstoreLoop : Nat → List Byte → List Byte → Except ErrKind (List Byte)
  | 0, _, _ => .error .compression
  | _ + 1, [], _ => .error .compression
  | fuel + 1, h :: rest, out =>
    if blockType h = 1 ∨ blockType h = 2 then .error .unsupported
    else if blockType h = 3 then .error .compression
    else
      match rest with
      | l0 :: l1 :: n0 :: n1 :: data =>
        if fromLe16 l0 l1 ^^^ fromLe16 n0 n1 ≠ 0xFFFF then .error .compression
        else if data.length < (fromLe16 l0 l1).toNat then .error .compression
        else if blockFinal h then .ok (out ++ data.take (fromLe16 l0 l1).toNat)
        else
          dflUnstoreLoop fuel (data.drop (fromLe16 l0 l1).toNat)
            (out ++ data.take (fromLe16 l0 l1).toNat)
      | _ => .error .compression

/-- `dfl_unstore(Z)` (44_deflate.md rule R204). -/
def dflUnstore (z : List Byte) : Except ErrKind (List Byte) := dflUnstoreLoop (z.length + 1) z []

/-- DFL_STORE (44_deflate.md rule R206). -/
def execDflStore (s : State) : Host.Outcome State Fault Refusal :=
  runOnInput s fun inp s => (orRaise (dflStore inp) s).bind emit

/-- DFL_UNSTORE (44_deflate.md rule R207). -/
def execDflUnstore (s : State) : Host.Outcome State Fault Refusal :=
  runOnInput s fun inp s => (orRaise (dflUnstore inp) s).bind emit

end Sys2Proof.Machine
end

