-- ==== Sys2Proof/Machine/Sextet.lean ====
section
/-!
DEFINITION. The Sextet Transform (40_sextet.md): the functions `sxt_enc`, `text_of`, `sxt_dec` and the commands
SXT_ENC and SXT_DEC.
-/

namespace Sys2Proof.Machine

open Sys2Proof.Config (Params)

/-- A symbol: an alphabet index or PADSYM (40_sextet.md rule R110). -/
inductive Symbol where
  | index (k : Sextet)
  | padSym
  deriving DecidableEq, Repr

/-! ### Encoding -/

/-- `v0 = b0 >> 2` (40_sextet.md rule R111). -/
def sextet0 (b0 : Byte) : Sextet := (b0 >>> 2).setWidth 6

/-- `v1 = ((b0 AND 0x03) << 4) OR (b1 >> 4)` (40_sextet.md rule R111). -/
def sextet1 (b0 b1 : Byte) : Sextet := (((b0 &&& 0x03) <<< 4) ||| (b1 >>> 4)).setWidth 6

/-- `v2 = ((b1 AND 0x0F) << 2) OR (b2 >> 6)` (40_sextet.md rule R111). -/
def sextet2 (b1 b2 : Byte) : Sextet := (((b1 &&& 0x0F) <<< 2) ||| (b2 >>> 6)).setWidth 6

/-- `v3 = b2 AND 0x3F` (40_sextet.md rule R111). -/
def sextet3 (b2 : Byte) : Sextet := (b2 &&& 0x3F).setWidth 6

/-- `sk = vk XOR 0x04` as a symbol (40_sextet.md rule R112). -/
def maskedSymbol (v : Sextet) : Symbol := .index (v ^^^ Config.magic6)

/-- `sxt_enc(B)`: groups of 3 bytes, the last one with 1 or 2 real bytes padded (40_sextet.md rules R110 to
R112). -/
def sxtEnc : List Byte → List Symbol
  | [] => []
  | [b0] => [maskedSymbol (sextet0 b0), maskedSymbol (sextet1 b0 0), .padSym, .padSym]
  | [b0, b1] =>
    [maskedSymbol (sextet0 b0), maskedSymbol (sextet1 b0 b1), maskedSymbol (sextet2 b1 0), .padSym]
  | b0 :: b1 :: b2 :: rest =>
    maskedSymbol (sextet0 b0) :: maskedSymbol (sextet1 b0 b1) :: maskedSymbol (sextet2 b1 b2)
      :: maskedSymbol (sextet3 b2) :: sxtEnc rest

/-- `ALPHA[k]` (10_state.md rule R44). -/
def alphaAt (p : Params) (k : Sextet) : Byte := p.alpha[k.toNat]'k.isLt

/-- One symbol as a byte (40_sextet.md rule R113). -/
def symbolByte (p : Params) : Symbol → Byte
  | .index k => alphaAt p k
  | .padSym => p.pad

/-- `text_of(S)` (40_sextet.md rule R113). -/
def textOf (p : Params) (syms : List Symbol) : List Byte := syms.map (symbolByte p)

/-! ### Decoding -/

/-- `AMAP[c]`: the index of `c` in `ALPHA`, or absent (10_state.md rule R44). -/
def amap (p : Params) (c : Byte) : Option Sextet :=
  (p.alpha.toList.findIdx? (· == c)).map (BitVec.ofNat 6)

/-- Checks 3 and 4 of 40_sextet.md rule R114: no padding before the last two positions, and none in the
last but one without one in the last. -/
def padPlaced (p : Params) (t : List Byte) : Bool :=
  (t.take (t.length - 2)).all (· != p.pad) &&
    match t.drop (t.length - 2) with
    | [a, b] => !(a == p.pad && b != p.pad)
    | _ => true

/-- Check 5 of 40_sextet.md rule R114: every byte is PAD or in the alphabet. -/
def charsLegal (p : Params) (t : List Byte) : Bool := t.all fun c => c == p.pad || (amap p c).isSome

/-- The checks of 40_sextet.md rule R114. -/
def textLegal (p : Params) (t : List Byte) : Bool :=
  t.length % 4 == 0 && padPlaced p t && charsLegal p t

/-- The trailing-padding count (40_sextet.md rule R114 step 6). -/
def padCount (p : Params) (t : List Byte) : Nat :=
  match t.drop (t.length - 2) with
  | [a, b] => if b == p.pad then (if a == p.pad then 2 else 1) else 0
  | _ => 0

/-- The output length `N = (L div 4) * 3 - p` (40_sextet.md rule R114 step 6). -/
def decodedLength (p : Params) (t : List Byte) : Nat := t.length / 4 * 3 - padCount p t

/-- The value of one character of a group: 0 for PAD, else the index with the magic constant removed
(40_sextet.md rule R115). -/
def sextetValue (p : Params) (c : Byte) : Sextet :=
  match amap p c with
  | some k => k ^^^ Config.magic6
  | none => 0

/-- `c0 = ((v0 << 2) OR (v1 >> 4)) AND 0xFF` (40_sextet.md rule R115). -/
def groupByte0 (v0 v1 : Sextet) : Byte := (v0.setWidth 8 <<< 2) ||| (v1.setWidth 8 >>> 4)

/-- `c1 = (((v1 AND 0x0F) << 4) OR (v2 >> 2)) AND 0xFF` (40_sextet.md rule R115). -/
def groupByte1 (v1 v2 : Sextet) : Byte := ((v1.setWidth 8 &&& 0x0F) <<< 4) ||| (v2.setWidth 8 >>> 2)

/-- `c2 = (((v2 AND 0x03) << 6) OR v3) AND 0xFF` (40_sextet.md rule R115). -/
def groupByte2 (v2 v3 : Sextet) : Byte := ((v2.setWidth 8 &&& 0x03) <<< 6) ||| v3.setWidth 8

/-- `c0 c1 c2` over all groups in order (40_sextet.md rule R115). -/
def groupBytes (p : Params) : List Byte → List Byte
  | t0 :: t1 :: t2 :: t3 :: rest =>
    groupByte0 (sextetValue p t0) (sextetValue p t1) :: groupByte1 (sextetValue p t1) (sextetValue p t2)
      :: groupByte2 (sextetValue p t2) (sextetValue p t3) :: groupBytes p rest
  | _ => []

/-- `sxt_dec(T)` (40_sextet.md rules R114 and R115). The discarded bits are not examined (rule R116). -/
def sxtDec (p : Params) (t : List Byte) : Except ErrKind (List Byte) :=
  if textLegal p t then .ok ((groupBytes p t).take (decodedLength p t)) else .error .format

/-! ### Commands -/

/-- SXT_ENC (40_sextet.md rule R118). -/
def execSxtEnc (s : State) : Host.Outcome State Fault Refusal :=
  runOnInput s fun inp s => emit (textOf s.params (sxtEnc inp)) s

/-- SXT_DEC (40_sextet.md rule R119). -/
def execSxtDec (s : State) : Host.Outcome State Fault Refusal :=
  runOnInput s fun inp s => (orRaise (sxtDec s.params inp) s).bind emit

end Sys2Proof.Machine
end

