-- ==== Sys2Proof/Machine/FrameEncode.lean ====
section
/-!
DEFINITION. The Framing Codec, encode side (42_frame_encode.md): `compress_choice`, `envelope`,
`frame_encode` and the commands ENCODE and ENCODE_TTL.
-/

namespace Sys2Proof.Machine

open Sys2Proof.Config (Params)

/-- `compress_choice(O, nc)`: the flags and the payload (42_frame_encode.md rule R152). -/
def compressChoice (o : List Byte) (nc : Bool) : Byte × List Byte :=
  if compressOption nc ∧ Config.compressThreshold ≤ o.length ∧ o.length ≤ Config.compressMax then
    match dflStore o with
    | .ok c =>
      if c.length + 2 < o.length then
        (Config.flagCompressed ||| Config.flagDeflate, be16 (BitVec.ofNat 16 o.length) ++ c)
      else (0x00, o)
    | .error _ => (0x00, o)
  else (0x00, o)

/-- The TTL argument of the encoder: none, or created-at and ttl-seconds (42_frame_encode.md rule R150). -/
abbrev TtlArg := Option (Word × Word)

/-- The flags byte of the envelope (42_frame_encode.md rule R153). -/
def envelopeFlags (o : List Byte) (nc : Bool) (ttl : TtlArg) : Byte :=
  match ttl with
  | none => (compressChoice o nc).1
  | some _ => (compressChoice o nc).1 ||| Config.flagTtl

/-- The TTL block of the envelope (42_frame_encode.md rule R153, 30_encoding.md rule R89). -/
def ttlBlock : TtlArg → List Byte
  | none => []
  | some (created, seconds) => be32 created ++ be32 seconds

/-- The envelope `[flags] ++ be16(c) ++ tb ++ payload` (42_frame_encode.md rule R153). -/
def envelope (o : List Byte) (nc : Bool) (ttl : TtlArg) : List Byte :=
  envelopeFlags o nc ttl :: (be16 (crc16 o) ++ ttlBlock ttl ++ (compressChoice o nc).2)

/-- The text of `frame_encode(O, nc, ttl)` (42_frame_encode.md rule R153). -/
def frameText (p : Params) (o : List Byte) (nc : Bool) (ttl : TtlArg) : List Byte :=
  Config.markBytes ++ textOf p (sxtEnc (envelope o nc ttl))

/-- A byte in bits 7:0 of a register (10_state.md rule R22). -/
def byteWord (b : Byte) : Word := b.setWidth 32

/-- The register writes common to ENCODE and ENCODE_TTL: the three checksum registers, FLAGS, and ORIG_SIZE
if the compressed form was chosen (42_frame_encode.md rules R156 and R157). -/
def writeEncodeRegs (o : List Byte) (f : Byte) (s : State) : State :=
  let s := s.set .crc (halfWord (crc16 o))
  let s := s.set .crcComputed (halfWord (crc16 o))
  let s := s.set .crcStored (halfWord (crc16 o))
  let s := s.set .flags (byteWord f)
  if isCompressed f then s.set .origSize (s.get .ilen) else s

/-- ENCODE (42_frame_encode.md rule R156). -/
def execEncode (nc : Bool) (s : State) : Host.Outcome State Fault Refusal :=
  runOnInput s fun inp s =>
    let f := envelopeFlags inp nc none
    let s := writeEncodeRegs inp f s
    let s := s.set .info (byteWord (f &&& 0x07))
    emit (frameText s.params inp nc none) s

/-- ENCODE_TTL (42_frame_encode.md rule R157). -/
def execEncodeTtl (nc : Bool) (s : State) : Host.Outcome State Fault Refusal :=
  runOnInput s fun inp s =>
    let created := s.nows
    let seconds := s.get .ttlArg
    let f := envelopeFlags inp nc (some (created, seconds))
    let s := writeEncodeRegs inp f s
    let s := s.set .ttlCreated created
    let s := s.set .ttlSeconds seconds
    let s := s.set .expiresLo (expiresLoWord created seconds)
    let s := s.set .info (infoWord f created seconds s.nows)
    emit (frameText s.params inp nc (some (created, seconds))) s

end Sys2Proof.Machine
end

