-- ==== Sys2Proof/Machine/FrameDecode.lean ====
section
/-!
DEFINITION. The Framing Codec, decode side (43_frame_decode.md): `has_prefix`, `parse_header`, `recover` and
the commands DECODE, INSPECT, VERIFY, VALIDATE, INFO. S1 to S11 are the steps of rules R172, R174 and R176.
-/

namespace Sys2Proof.Machine

open Sys2Proof.Config (Params)

/-- `has_prefix(T)` (43_frame_decode.md rule R171). -/
def hasMark (t : List Byte) : Bool := t.take 2 == Config.markBytes

/-- Steps S1 to S3: the envelope of a text, at least 3 bytes long (43_frame_decode.md rule R172). -/
def openText (p : Params) (t : List Byte) : Except ErrKind (List Byte) :=
  if hasMark t then
    match sxtDec p (t.drop 2) with
    | .ok e => if e.length < 3 then .error .format else .ok e
    | .error e => .error e
  else .error .missingMark

/-- What `parse_header` returns (43_frame_decode.md rule R172). -/
structure Header where
  flags : Byte
  stored : Half
  payload : List Byte
  deriving DecidableEq, Repr

/-- The end of step S6: INFO for the flags and the TTL fields (43_frame_decode.md rule R172). -/
def writeInfo (f : Byte) (created seconds : Word) (s : State) : State :=
  s.set .info (infoWord f created seconds s.nows)

/-- Step S6 with the has-TTL flag: the TTL registers (43_frame_decode.md rule R172). -/
def writeTtlRegs (created seconds : Word) (s : State) : State :=
  let s := s.set .ttlCreated created
  let s := s.set .ttlSeconds seconds
  s.set .expiresLo (expiresLoWord created seconds)

/-- Steps S6 and S7 on the envelope bytes after the 3-byte header (43_frame_decode.md rule R172). -/
def parseTtl (f : Byte) (stored : Half) (rest : List Byte) (checkTtl : Bool) (s : State) : Proc Header :=
  if hasTtl f then
    match rest with
    | c3 :: c2 :: c1 :: c0 :: t3 :: t2 :: t1 :: t0 :: payload =>
      let created := fromBe32 c3 c2 c1 c0
      let seconds := fromBe32 t3 t2 t1 t0
      let s := writeInfo f created seconds (writeTtlRegs created seconds s)
      if checkTtl && isExpired created seconds s.nows then .raised .expired s
      else .ok ⟨f, stored, payload⟩ s
    | _ => .raised .format s
  else .ok ⟨f, stored, rest⟩ (writeInfo f 0 0 s)

/-- Steps S4 to S7 on the envelope; the last arm is the length test of S3 (43_frame_decode.md rule R172). -/
def parseEnvelope (e : List Byte) (checkTtl : Bool) (s : State) : Proc Header :=
  match e with
  | f :: k1 :: k0 :: rest =>
    let s := s.set .flags (byteWord f)
    if reservedFlagsSet f then .raised .invalidFlags s
    else parseTtl f (fromBe16 k1 k0) rest checkTtl (s.set .crcStored (halfWord (fromBe16 k1 k0)))
  | _ => .raised .format s

/-- `parse_header(T, check_ttl)`, steps S1 to S7 (43_frame_decode.md rule R172). -/
def parseHeader (t : List Byte) (checkTtl : Bool) (s : State) : Proc Header :=
  (orRaise (openText s.params t) s).bind fun e s => parseEnvelope e checkTtl s

/-- Step S8: the original bytes (43_frame_decode.md rule R174). The original-size field is reported and never
compared. -/
def recoverBytes (h : Header) (s : State) : Proc (List Byte) :=
  if isCompressed h.flags then
    match h.payload with
    | n1 :: n0 :: z => orRaise (dflUnstore z) (s.set .origSize (halfWord (fromBe16 n1 n0)))
    | _ => .raised .format s
  else .ok h.payload s

/-- `recover(flags, payload)`, steps S8 and S9: the original bytes, with their checksum in CRC and
CRC_COMPUTED (43_frame_decode.md rule R174). -/
def recover (h : Header) (s : State) : Proc (List Byte) :=
  (recoverBytes h s).bind fun o s =>
    .ok o ((s.set .crc (halfWord (crc16 o))).set .crcComputed (halfWord (crc16 o)))

/-- DECODE (43_frame_decode.md rule R176). -/
def execDecode (nt : Bool) (s : State) : Host.Outcome State Fault Refusal :=
  runOnInput s fun inp s =>
    (parseHeader inp (checkTtlOption nt) s).bind fun h s =>
      (recover h s).bind fun o s =>
        if crc16 o ≠ h.stored then .raised .checksum s else emit o s

/-- INSPECT (43_frame_decode.md rule R177). -/
def execInspect (s : State) : Host.Outcome State Fault Refusal :=
  runOnInput s fun inp s =>
    (parseHeader inp false s).bind fun h s =>
      (recover h s).bind fun o s => .ok () (s.set .result (resultWord (crc16 o == h.stored)))

/-- VERIFY (43_frame_decode.md rule R178). -/
def execVerify (s : State) : Host.Outcome State Fault Refusal :=
  runOnInput s fun inp s =>
    (parseHeader inp true s).bind fun h s =>
      (recover h s).bind fun o s => .ok () (s.set .result (resultWord (crc16 o == h.stored)))

/-- The structural check of VALIDATE (43_frame_decode.md rule R179): the marker, a text `sxt_dec` accepts, and
at least 3 bytes. -/
def textValid (p : Params) (t : List Byte) : Bool :=
  hasMark t &&
    match sxtDec p (t.drop 2) with
    | .ok e => 3 ≤ e.length
    | .error _ => false

/-- VALIDATE (43_frame_decode.md rule R179). -/
def execValidate (s : State) : Host.Outcome State Fault Refusal :=
  runOnInput s fun inp s => .ok () (s.set .result (resultWord (textValid s.params inp)))

/-- INFO (43_frame_decode.md rule R180). -/
def execInfo (s : State) : Host.Outcome State Fault Refusal :=
  runOnInput s fun inp s => (parseHeader inp false s).bind fun _ s => .ok () s

end Sys2Proof.Machine
end

