-- ==== Sys2Proof/Machine/System.lean ====
section
/-!
DEFINITION. The system commands NOP and SRESET and the illegal command word (45_system.md rules R223 to R225).
-/

namespace Sys2Proof.Machine

/-- NOP (45_system.md rule R223): phase 4 is empty. -/
def execNop (s : State) : Host.Outcome State Fault Refusal := runPlain s fun s => .ok () s

/-- SRESET (45_system.md rule R224): phases 4 and 5 are replaced by the register reset. STATUS ends as 0;
IBUF keeps its bytes; OBUF is unspecified. -/
def execSreset (s : State) : Host.Outcome State Fault Refusal := .next (resetRegisters (commonStart s))

/-- A word that matches no row (45_system.md rule R225): phase 2 of rule R220 raises. -/
def illegalCommand (s : State) : State := takeError .illegalCmd (commonStart s)

end Sys2Proof.Machine
end

