-- ==== Sys2Proof/Machine/Dispatch.lean ====
section
/-!
DEFINITION. The engine's step for a decoded command (45_system.md rule R220 phases 1 to 5), one arm per
command of 30_encoding.md rule R81.
-/

namespace Sys2Proof.Machine

def exec (i : Instr) (s : State) : Host.Outcome State Fault Refusal :=
  match i with
  | .nop => Sys2Proof.Machine.execNop s
  | .sreset => Sys2Proof.Machine.execSreset s
  | .crcInit => Sys2Proof.Machine.execCrcInit s
  | .crcUpdate => Sys2Proof.Machine.execCrcUpdate s
  | .crcCalc => Sys2Proof.Machine.execCrcCalc s
  | .sxtEnc => Sys2Proof.Machine.execSxtEnc s
  | .sxtDec => Sys2Proof.Machine.execSxtDec s
  | .dflStore => Sys2Proof.Machine.execDflStore s
  | .dflUnstore => Sys2Proof.Machine.execDflUnstore s
  | .encode nc => Sys2Proof.Machine.execEncode nc s
  | .encodeTtl nc => Sys2Proof.Machine.execEncodeTtl nc s
  | .decode nt => Sys2Proof.Machine.execDecode nt s
  | .inspect => Sys2Proof.Machine.execInspect s
  | .verify => Sys2Proof.Machine.execVerify s
  | .validate => Sys2Proof.Machine.execValidate s
  | .info => Sys2Proof.Machine.execInfo s

end Sys2Proof.Machine
end

