-- ==== Sys2Proof/Machine/HostPort.lean ====
section
/-!
DEFINITION. The host's accesses (20_memory.md rules R60 to R63 and R73, 10_state.md rules R22, R23, R25, R36,
R41, R42).
-/

namespace Sys2Proof.Machine

/-- The value of `RegRead(i)` outside BUSY (20_memory.md rule R62); 0 for an index that is not implemented
(10_state.md rule R23). -/
def regReadValue (i : Nat) (s : State) : Word :=
  match Reg.ofIndex i with
  | some r => s.get r
  | none => 0

/-- `RegWrite(i, v)` outside BUSY (20_memory.md rule R62): CMD starts a command, ILEN and TTL_ARG take the
value, CRC its bits 15:0; a write to any other register is ignored (10_state.md rules R22, R23, R25). -/
def regWriteEffect (i : Nat) (v : Word) (s : State) : State :=
  match Reg.ofIndex i with
  | some .cmd => acceptCommand v s
  | some .ilen => s.set .ilen v
  | some .ttlArg => s.set .ttlArg v
  | some .crc => s.set .crc (v &&& 0x0000FFFF)
  | _ => s

/-- The size of a buffer (20_memory.md rule R60). -/
def bufferSize (b : Buffer) (s : State) : Nat :=
  match b with
  | .ibuf => s.params.ibufSize
  | .obuf => s.params.obufSize

/-- The value of `BufRead(b, a)`: the byte the rules specify, or a free value (20_memory.md rules R62 and
R65, 10_state.md rule R42, logs 5 and 6). -/
def bufReadValue (b : Buffer) (a : Nat) (s : State) : Byte :=
  match b with
  | .ibuf => (s.ibuf.read a).getD (Config.freeIbufByte s.ibufEpoch a)
  | .obuf => (s.obuf.read a).getD (Config.freeObufByte s.obufEpoch a)

/-- `BufWrite(b, a, v)`: IBUF takes the byte, a write to OBUF is ignored (20_memory.md rule R60,
10_state.md rule R42). -/
def bufWriteEffect (b : Buffer) (a : Nat) (v : Byte) (s : State) : State :=
  match b with
  | .ibuf => { s with ibuf := s.ibuf.write a v }
  | .obuf => s

/-- One access outside BUSY. A read changes nothing but what the host has read (20_memory.md rule R63). -/
def accessIdle (a : HostAccess) (s : State) : Host.Outcome State Fault Refusal :=
  match a with
  | .regRead i => .next { s with response := some (.word (regReadValue i s)) }
  | .regWrite i v => .next { regWriteEffect i v s with response := none }
  | .bufRead b i =>
    if i < bufferSize b s then .next { s with response := some (.byte (bufReadValue b i s)) }
    else .refused .bufferIndexOutside
  | .bufWrite b i v =>
    if i < bufferSize b s then .next { bufWriteEffect b i v s with response := none }
    else .refused .bufferIndexOutside

/-- One access while BUSY = 1: STATUS can be read, a CMD write is ignored (10_state.md rule R25), any other
access has no step (20_memory.md rule R73, 93_implementation_defined.md U5). -/
def accessBusy (a : HostAccess) (s : State) : Host.Outcome State Fault Refusal :=
  match a with
  | .regRead 1 => .next { s with response := some (.word (s.get .status)) }
  | .regWrite 0 _ => .next { s with response := none }
  | _ => .refused .accessWhileBusy

/-- One host access (20_memory.md rule R62). -/
def hostAccess (a : HostAccess) (s : State) : Host.Outcome State Fault Refusal :=
  if s.busy then accessBusy a s else accessIdle a s

end Sys2Proof.Machine
end

