-- ==== Sys2Proof/Machine/Engine.lean ====
section
/-!
DEFINITION. The engine's turn and the turns of the environment (45_system.md rules R220 to R222, 00_scope.md rule
R16): fetching the pending command, decoding it, running it; and placing a command as a CMD write does.
-/

namespace Sys2Proof.Machine

/-- The pending command word: register CMD while BUSY = 1 (10_state.md rule R20 item 4). -/
def pendingWord (s : State) : Word := s.get .cmd

/-- The engine completes the pending command, legal or not (45_system.md rules R220 and R225). -/
def engineStep (s : State) : Host.Outcome State Fault Refusal :=
  match decode (pendingWord s) with
  | .ok i => exec i s
  | .error _ => .next (illegalCommand s)

/-- The engine's turn: with BUSY = 1 it completes the command, with none pending it does nothing
(45_system.md rule R222, log 2). -/
def engineTurn (s : State) : Host.Outcome State Fault Refusal :=
  if s.busy then engineStep s else .next s

/-- One turn (log 2). -/
def takeTurn (e : Event) (s : State) : Host.Outcome State Fault Refusal :=
  match e with
  | .host a => hostAccess a s
  | .engine => engineTurn s
  | .driveNow v => .next { s with nowInput := v }
  | .hardwareReset => .next (hardwareReset s)

/-- The command whose table bits are `w` accepted by a CMD write, and the engine's turn next (log 2). -/
def placeCommand (nbits w : Nat) (s : State) : State :=
  { acceptCommand (BitVec.ofNat 32 (w % 2 ^ nbits)) s with events := .engine :: s.events }

end Sys2Proof.Machine
end

