-- ==== Sys2Proof/Machine/Step.lean ====
section
/-!
DEFINITION. One step of the machine: the next turn of the schedule; with none left the engine's own
(00_scope.md rule R16, log 2).
-/

namespace Sys2Proof.Machine

/-- One step: the first turn of `events`, which is used up. With no turn left the engine completes a pending
command, and an idle block stays as it is (45_system.md rule R222, 10_state.md rule R40). -/
def step (s : State) : Host.Outcome State Fault Refusal :=
  match s.events with
  | [] => engineTurn s
  | e :: rest => takeTurn e { s with events := rest }

/-- The command whose bits are `w` placed so that the very next step runs it (log 2). -/
def State.withFetchWord (s : State) (nbits w : Nat) : State := placeCommand nbits w s

end Sys2Proof.Machine
end

