-- ==== Sys2Proof/Machine/Notation.lean ====
section
/-!
DEFINITION. The host-program notation of 30_encoding.md rule R85 as turns of the schedule, and the
pseudo-instructions of rule R86 as lines of that notation.
-/

namespace Sys2Proof.Machine

/-- The register index of a name (10_state.md rule R22). -/
def Reg.toIndex : Reg → Nat
  | .cmd => 0
  | .status => 1
  | .errcode => 2
  | .ilen => 3
  | .olen => 4
  | .crc => 5
  | .crcStored => 6
  | .crcComputed => 7
  | .flags => 8
  | .ttlArg => 9
  | .now => 10
  | .ttlCreated => 11
  | .ttlSeconds => 12
  | .expiresLo => 13
  | .info => 14
  | .origSize => 15
  | .result => 16

/-- The lines of 30_encoding.md rule R85. -/
inductive Line where
  /-- `ibuf b0 b1 .. bn-1` -/
  | ibuf (bytes : List Byte)
  /-- `wr NAME, v` -/
  | wr (r : Reg) (v : Word)
  /-- `now v` -/
  | now (v : Word)
  /-- `cmd MNEMONIC` -/
  | cmd (i : Instr)
  /-- `wait` -/
  | wait
  /-- `rd NAME` -/
  | rd (r : Reg)
  /-- `obuf`, for an output of `n` bytes -/
  | obuf (n : Nat)
  deriving DecidableEq, Repr

/-- `BufWrite(IBUF, k, bk)` for the bytes from index `a` on (30_encoding.md rule R85). -/
def fillFrom : Nat → List Byte → List Event
  | _, [] => []
  | a, b :: bs => .host (.bufWrite .ibuf a b) :: fillFrom (a + 1) bs

/-- The turns a line means (30_encoding.md rule R85). `wait` is a polling loop whose number of turns the spec
leaves open: here the engine completes the command and the host polls once (DESIGN CHOICE, log 17). -/
def Line.turns : Line → List Event
  | .ibuf bytes =>
    fillFrom 0 bytes ++ [.host (.regWrite Reg.ilen.toIndex (BitVec.ofNat 32 bytes.length))]
  | .wr r v => [.host (.regWrite r.toIndex v)]
  | .now v => [.driveNow v]
  | .cmd i => [.host (.regWrite Reg.cmd.toIndex (encode i))]
  | .wait => [.engine, .host (.regRead Reg.status.toIndex)]
  | .rd r => [.host (.regRead r.toIndex)]
  | .obuf n => (List.range n).map fun k => .host (.bufRead .obuf k)

/-- A host program as a schedule (30_encoding.md rule R85). -/
def schedule (ls : List Line) : List Event := ls.flatMap Line.turns

/-- The DX names of 30_encoding.md rule R86. -/
inductive DxCall where
  | crc16 (bytes : List Byte)
  | encodeRaw (bytes : List Byte)
  | decodeRaw (text : List Byte)
  | encode (input : List Byte) (compress : Bool)
  | encodeWithTtl (input : List Byte) (ttlSeconds : Word) (compress : Bool)
  | decode (text : List Byte) (checkTtl : Bool)
  | decodeToBytes (text : List Byte)
  | decodeToString (text : List Byte)
  | isValid (text : List Byte)
  | verifyChecksum (text : List Byte)
  | inspect (text : List Byte)
  | isCompressed (text : List Byte)
  | hasTtl (text : List Byte)
  | getTtlInfo (text : List Byte)
  | isExpired (text : List Byte)
  deriving DecidableEq, Repr

/-- The command a DX name is a synonym for, with its argument in IBUF (30_encoding.md rules R82 and R86). -/
def DxCall.lines : DxCall → List Line
  | .crc16 b => [.ibuf b, .cmd .crcCalc]
  | .encodeRaw b => [.ibuf b, .cmd .sxtEnc]
  | .decodeRaw t => [.ibuf t, .cmd .sxtDec]
  | .encode b c => [.ibuf b, .cmd (.encode (!c))]
  | .encodeWithTtl b t c => [.ibuf b, .wr .ttlArg t, .cmd (.encodeTtl (!c))]
  | .decode t c => [.ibuf t, .cmd (.decode (!c))]
  | .decodeToBytes t => [.ibuf t, .cmd (.decode false)]
  | .decodeToString t => [.ibuf t, .cmd (.decode false)]
  | .isValid t => [.ibuf t, .cmd .validate]
  | .verifyChecksum t => [.ibuf t, .cmd .verify]
  | .inspect t => [.ibuf t, .cmd .inspect]
  | .isCompressed t => [.ibuf t, .cmd .info]
  | .hasTtl t => [.ibuf t, .cmd .info]
  | .getTtlInfo t => [.ibuf t, .cmd .info]
  | .isExpired t => [.ibuf t, .cmd .info]

end Sys2Proof.Machine
end

