-- ==== Sys2Proof/WellFormed.lean ====
section
/-!
DEFINITION. Well-formedness: the constraints on the open parameters (00_scope.md rule R7), one check for
each, and of commands. A command's only operand is an option bit held as a Bool, so every term of `Instr`
is well formed by its type; the ill-formed terms are words (Decode.lean) and parameters.
-/

namespace Sys2Proof

/-- Every command is well formed: its option bit is a bit (30_encoding.md rule R80). -/
def Instr.wf : Instr → Bool
  | .nop | .sreset | .crcInit | .crcUpdate | .crcCalc | .sxtEnc | .sxtDec | .dflStore | .dflUnstore
  | .encode _ | .encodeTtl _ | .decode _ | .inspect | .verify | .validate | .info => true

namespace Config

/-- A printable ASCII code other than `!`: 0x22 to 0x7E (00_scope.md rule R7). -/
def charOk (c : Byte) : Bool := 0x22 ≤ c.toNat && c.toNat ≤ 0x7E

/-- "the 64 codes are pairwise distinct" (00_scope.md rule R7). -/
def Params.alphaDistinct (p : Params) : Bool := decide p.alpha.toList.Nodup

/-- "each is a printable ASCII code 0x21 to 0x7E; none equals 0x21" (00_scope.md rule R7). -/
def Params.alphaPrintable (p : Params) : Bool := p.alpha.toList.all charOk

/-- "none equals PAD" (00_scope.md rule R7). -/
def Params.padOutside (p : Params) : Bool := !p.alpha.toList.contains p.pad

/-- PAD is "printable ASCII 0x21 to 0x7E; not 0x21" (00_scope.md rule R7). -/
def Params.padPrintable (p : Params) : Bool := charOk p.pad

/-- IBUF_SIZE and OBUF_SIZE are each "at least 2" (00_scope.md rule R7). -/
def Params.sizesOk (p : Params) : Bool := 2 ≤ p.ibufSize && 2 ≤ p.obufSize

/-- All the constraints of 00_scope.md rule R7. -/
def Params.wf (p : Params) : Bool :=
  p.alphaDistinct && p.alphaPrintable && p.padOutside && p.padPrintable && p.sizesOk

end Config

end Sys2Proof
end

