-- ==== Sys2Proof/Safety.lean ====
section
/-!
DEFINITION. The terms the statements use: what a finished command leaves, what it keeps, what a frame carries,
and the invariant of the machine.
-/

namespace Sys2Proof.Machine

open Sys2Proof.Config (Params)

/-! ### What a command reads -/

/-- "The commands that read IBUF are all except NOP, SRESET and CRC_INIT" (45_system.md rule R220). -/
def readsInput : Instr → Bool
  | .nop | .sreset | .crcInit => false
  | .crcUpdate | .crcCalc | .sxtEnc | .sxtDec | .dflStore | .dflUnstore | .encode _ | .encodeTtl _
  | .decode _ | .inspect | .verify | .validate | .info => true

/-- The input of a command in `s` is `inp`: ILEN says its length, which fits IBUF, and IBUF holds it. -/
structure HasInput (s : State) (inp : List Byte) : Prop where
  length : (s.get .ilen).toNat = inp.length
  fits : inp.length ≤ s.params.ibufSize
  bytes : ∀ k, k < inp.length → s.ibuf.read k = inp[k]?

/-! ### What a finished command leaves -/

/-- DONE alone, and no error code (45_system.md rule R220 phase 5). -/
structure Succeeded (t : State) : Prop where
  status : t.get .status = 0x00000002
  errcode : t.get .errcode = 0

/-- DONE and ERR, the code, OLEN = 0, and no specified byte in OBUF (60_exceptions.md rule R236). -/
structure FailedWith (e : ErrKind) (t : State) : Prop where
  status : t.get .status = 0x00000006
  errcode : t.get .errcode = e.code
  olen : t.get .olen = 0
  obuf : ∀ a, t.obuf.read a = none

/-- The output of a command: OLEN is its length, and OBUF holds it and no other specified byte
(10_state.md rules R29 and R42). -/
structure Emitted (out : List Byte) (t : State) : Prop where
  olen : out.length < 2 ^ 32 → (t.get .olen).toNat = out.length
  obuf : ∀ a, t.obuf.read a = out[a]?

/-- Every result register outside `rs` is zero (10_state.md rule R24). -/
def ResultsZeroBut (rs : List Reg) (t : State) : Prop := ∀ r ∈ resultRegs, r ∉ rs → t.get r = 0

/-- What every command but SRESET leaves as it was: CMD, ILEN, TTL_ARG, NOW, NOWS, every byte of IBUF, the
parameters, and what belongs to the environment (10_state.md rules R24 and R41, 60_exceptions.md rule R236). -/
structure CommandFrame (s t : State) : Prop where
  cmd : t.get .cmd = s.get .cmd
  ilen : t.get .ilen = s.get .ilen
  ttlArg : t.get .ttlArg = s.get .ttlArg
  now : t.get .now = s.get .now
  nows : t.nows = s.nows
  ibuf : ∀ a, t.ibuf.read a = s.ibuf.read a
  ibufEpoch : t.ibufEpoch = s.ibufEpoch
  params : t.params = s.params
  response : t.response = s.response
  events : t.events = s.events

/-- The state a piece of pseudocode stopped in, at its end or at a raise. -/
def Proc.final {α : Type} : Proc α → State
  | .ok _ s => s
  | .raised _ s => s

/-- CRC holds the 16-bit value `c` (10_state.md rule R22). -/
def CrcIs (c : Half) (t : State) : Prop := (t.get .crc).toNat = c.toNat

/-! ### Frames -/

/-- An envelope taken apart (30_encoding.md rule R89). -/
structure Frame where
  flags : Byte
  stored : Half
  created : Word
  seconds : Word
  payload : List Byte
  deriving DecidableEq, Repr

/-- The envelope bytes of a frame (30_encoding.md rule R89). -/
def Frame.envelope (f : Frame) : List Byte :=
  f.flags :: (be16 f.stored ++ (if f.flags.getLsbD 2 then be32 f.created ++ be32 f.seconds else [])
    ++ f.payload)

/-- No reserved flag bit, and no TTL values without a TTL block (30_encoding.md rules R87 and R88). -/
structure Frame.Legal (f : Frame) : Prop where
  flags : f.flags.toNat < 8
  noTtl : f.flags.getLsbD 2 = false → f.created = 0 ∧ f.seconds = 0

/-- The original bytes and the original-size field of a frame (30_encoding.md rules R89 to R91). -/
def Frame.Holds (f : Frame) (orig : Half) (o : List Byte) : Prop :=
  if f.flags.getLsbD 0 then ∃ z, f.payload = be16 orig ++ z ∧ dflUnstore z = .ok o
  else f.payload = o ∧ orig = 0

/-- "the text is expired when `NOWS > created + seconds`", over the natural numbers, and never with
`seconds = 0` (43_frame_decode.md rule R175). -/
abbrev Frame.Expired (f : Frame) (nows : Word) : Prop :=
  0 < f.seconds.toNat ∧ f.created.toNat + f.seconds.toNat < nows.toNat

/-- The text is the marker and a sextet text that decodes to `e` (30_encoding.md rule R92). -/
def Carries (p : Params) (text e : List Byte) : Prop :=
  ∃ u, text = 0x64 :: 0x78 :: u ∧ sxtDec p u = .ok e

/-- The registers of steps S4 to S6 of 43_frame_decode.md rule R172. -/
def headerRegs : List Reg := [.flags, .crcStored, .ttlCreated, .ttlSeconds, .expiresLo, .info]

/-- The registers that show a parsed header, field by field (10_state.md rules R32, R34, R37, R38,
43_frame_decode.md rule R172). -/
structure HeaderShown (f : Frame) (nows : Word) (t : State) : Prop where
  flags : (t.get .flags).toNat = f.flags.toNat
  stored : (t.get .crcStored).toNat = f.stored.toNat
  created : t.get .ttlCreated = f.created
  seconds : t.get .ttlSeconds = f.seconds
  expiresLo : (t.get .expiresLo).toNat =
    if 0 < f.seconds.toNat then (f.created.toNat + f.seconds.toNat) % 2 ^ 32 else 0
  infoCompressed : (t.get .info).getLsbD 0 = f.flags.getLsbD 0
  infoDeflate : (t.get .info).getLsbD 1 = f.flags.getLsbD 1
  infoTtl : (t.get .info).getLsbD 2 = f.flags.getLsbD 2
  infoValid : (t.get .info).getLsbD 3 = decide (0 < f.seconds.toNat)
  infoExpired : (t.get .info).getLsbD 4 = decide (f.Expired nows)
  infoHigh : (t.get .info).getLsbD 5 =
    decide (0 < f.seconds.toNat ∧ 2 ^ 32 ≤ f.created.toNat + f.seconds.toNat)
  infoRest : (t.get .info).toNat < 64

/-- The checks of 40_sextet.md rule R114, one by one: the length, padding before the last two positions,
padding in the last but one position only, illegal characters. -/
structure LegalText (p : Params) (u : List Byte) : Prop where
  length : u.length % 4 = 0
  noEarlyPad : ∀ i, i + 2 < u.length → u[i]? ≠ some p.pad
  padIsSuffix : ¬ (u[u.length - 2]? = some p.pad ∧ u[u.length - 1]? ≠ some p.pad)
  chars : ∀ c ∈ u, c = p.pad ∨ c ∈ p.alpha.toList

/-- The trailing-padding count `p` of 40_sextet.md rule R114 step 6. -/
def trailingPads (p : Params) (u : List Byte) : Nat :=
  if u[u.length - 1]? = some p.pad then (if u[u.length - 2]? = some p.pad then 2 else 1) else 0

/-- The conjunction 43_frame_decode.md rule R179 writes out for VALIDATE. -/
def StructurallyValid (p : Params) (text : List Byte) : Prop :=
  ∃ u, text = 0x64 :: 0x78 :: u ∧ LegalText p u ∧ 3 ≤ u.length / 4 * 3 - trailingPads p u

/-- "the discarded bits": the low bits of the last real sextet that truncation drops, all zero
(40_sextet.md rule R116). -/
def discardedBitsZero (p : Params) (t : List Byte) : Prop :=
  (padCount p t = 2 → sextetValue p (t.getD (t.length - 3) 0) &&& 0x0F = 0) ∧
  (padCount p t = 1 → sextetValue p (t.getD (t.length - 2) 0) &&& 0x03 = 0)

/-! ### Errors by command -/

/-- The error kinds a command can end with (60_exceptions.md rule R241). -/
def possibleErrors : Instr → List ErrKind
  | .nop | .sreset | .crcInit => []
  | .crcUpdate | .crcCalc => [.capacity]
  | .sxtEnc => [.capacity]
  | .sxtDec => [.format, .capacity]
  | .dflStore => [.compression, .capacity]
  | .dflUnstore => [.compression, .unsupported, .capacity]
  | .encode _ | .encodeTtl _ => [.capacity]
  | .decode nt =>
    [.missingMark, .format, .invalidFlags, .checksum, .compression, .unsupported, .capacity]
      ++ (if nt then [] else [.expired])
  | .inspect => [.missingMark, .format, .invalidFlags, .compression, .unsupported, .capacity]
  | .verify => [.missingMark, .format, .invalidFlags, .expired, .compression, .unsupported, .capacity]
  | .validate => [.capacity]
  | .info => [.missingMark, .format, .invalidFlags, .capacity]

/-- The result registers a command writes besides ERRCODE (30_encoding.md rule R84). -/
def writtenResults : Instr → List Reg
  | .nop | .sreset | .crcInit | .crcUpdate => []
  | .crcCalc => [.crcComputed]
  | .sxtEnc | .sxtDec | .dflStore | .dflUnstore => [.olen]
  | .encode _ => [.olen, .crcStored, .crcComputed, .flags, .info, .origSize]
  | .encodeTtl _ =>
    [.olen, .crcStored, .crcComputed, .flags, .info, .origSize, .ttlCreated, .ttlSeconds, .expiresLo]
  | .decode _ =>
    [.olen, .crcStored, .crcComputed, .flags, .info, .ttlCreated, .ttlSeconds, .expiresLo, .origSize]
  | .inspect | .verify =>
    [.crcStored, .crcComputed, .flags, .info, .ttlCreated, .ttlSeconds, .expiresLo, .origSize, .result]
  | .validate => [.result]
  | .info => [.flags, .crcStored, .info, .ttlCreated, .ttlSeconds, .expiresLo]

/-- The commands whose result depends on the sampled time (60_exceptions.md rule R250): ENCODE_TTL, DECODE
with NT = 0 and VERIFY; DECODE, INSPECT and INFO show it in INFO.IS_EXPIRED. -/
def dependsOnTime : Instr → Bool
  | .encodeTtl _ | .decode _ | .inspect | .verify | .info => true
  | .nop | .sreset | .crcInit | .crcUpdate | .crcCalc | .sxtEnc | .sxtDec | .dflStore | .dflUnstore
  | .encode _ | .validate => false

/-! ### The invariant -/

/-- What holds of the registers and buffers of a block in every reachable state (10_state.md rules R22, R26,
R27, R28, R37, R39, 93_implementation_defined.md U9, 20_memory.md rule R60). -/
structure State.Inv (s : State) : Prop where
  /-- The parameters meet 00_scope.md rule R7. -/
  params : s.params.wf = true
  /-- Idle, BUSY, DONE, or DONE and ERR (10_state.md rule R26). -/
  status : s.status = 0 ∨ s.status = 1 ∨ s.status = 2 ∨ s.status = 6
  /-- Outside BUSY, ERR = 1 exactly when ERRCODE is not 0 (10_state.md rule R26). -/
  errOnCode : s.busy = false → (s.err = true ↔ s.errcode ≠ 0)
  /-- ERRCODE is 0 or 2 to 10 (93_implementation_defined.md U9). -/
  errcode : s.errcode.toNat ≤ 10 ∧ s.errcode ≠ 1
  /-- "A command that raises leaves OLEN = 0" (10_state.md rule R29). -/
  errOlen : s.err = true → s.olen = 0
  /-- Fields narrower than 32 bits read as zero above (10_state.md rule R22). -/
  crc : s.crc.toNat < 2 ^ 16
  crcStored : s.crcStored.toNat < 2 ^ 16
  crcComputed : s.crcComputed.toNat < 2 ^ 16
  flags : s.flags.toNat < 2 ^ 8
  info : s.info.toNat < 2 ^ 6
  origSize : s.origSize.toNat < 2 ^ 16
  result : s.result.toNat < 2
  /-- The buffers are in canonical form, inside their sizes (20_memory.md rule R60). -/
  ibuf : s.ibuf.wf = true
  ibufBelow : s.ibuf.below s.params.ibufSize = true
  obuf : s.obuf.wf = true
  obufBelow : s.obuf.below s.params.obufSize = true

end Sys2Proof.Machine
end

