-- ==== Sys2Proof/Certificates/Slice0/Obligations.lean ====
section
/-!
DEFINITION. The statements for the provers. Each docstring names the rule of spec/ the statement formalises.
-/

open Sys2Proof Sys2Proof.Machine
open Sys2Proof.Config (Params)

/-! ### Command words -/

/-- 45_system.md rules R220 and R221: with a command pending, the engine's turn runs exactly the command its
word decodes to; log 2 says which turn is next. -/
def Obligations.StepRunsPendingCommand : Prop :=
  ∀ (s : State) (i : Instr), s.busy = true → decode (s.get .cmd) = .ok i →
    (s.events = [] → step s = exec i s) ∧
    (∀ rest, s.events = .engine :: rest → step s = exec i { s with events := rest })

/-- 45_system.md rule R225 and 30_encoding.md rule R83: a word that matches no row finishes with
E_ILLEGAL_CMD and no other effect than the common start and end; the next CMD write is accepted. OBUF is
unspecified afterwards, as after every command with ERR = 1 (10_state.md rule R42, log 6). -/
def Obligations.IllegalWordFinishesWithIllegalCmd : Prop :=
  (∀ s : State, s.busy = true → s.events = [] →
    (∀ r ∈ opcodeTable, s.get .cmd &&& r.mask ≠ r.pattern) →
    ∃ t, step s = .next t ∧ FailedWith .illegalCmd t ∧ t.get .errcode = 10 ∧
      ResultsZeroBut [.errcode] t ∧ t.get .crc = s.get .crc ∧ CommandFrame s t ∧
      ∀ w, ∃ u, hostAccess (.regWrite 0 w) t = .next u ∧ u.busy = true ∧ u.get .cmd = w) ∧
  (∀ w ∈ ([0x00000002, 0x000000FF, 0x00000120, 0x00000400, 0x00000243] : List Word),
    ∀ r ∈ opcodeTable, w &&& r.mask ≠ r.pattern)

/-- 30_encoding.md rules R81, R82 and R85: a few words written out from the table. -/
def Obligations.SampleWordsDecode : Prop :=
  decodeTableWord 32 0x00000000 = some .nop ∧ decodeTableWord 32 0x00000011 = some .crcUpdate ∧
  decodeTableWord 32 0x00000021 = some .sxtDec ∧ decodeTableWord 32 0x00000030 = some .dflStore ∧
  decodeTableWord 32 0x00000140 = some (.encode true) ∧
  decodeTableWord 32 0x00000242 = some (.decode true) ∧
  decodeTableWord 32 0x00000046 = some .info ∧ decodeTableWord 32 0x00000142 = none

/-- 30_encoding.md rules R81 and R85: decoding an encoded command gives it back, and a command has one word. -/
def Obligations.DecodeEncodeAgree : Prop :=
  (∀ i, i.wf = true → decode (encode i) = .ok i) ∧
  (∀ (w : Word) (i : Instr), decode w = .ok i → encode i = w)

/-- 30_encoding.md rule R83: the legal words are those with a known OP, bits 31:10 zero, NC only on ENCODE and
ENCODE_TTL, NT only on DECODE. -/
def Obligations.LegalWordsExactly : Prop :=
  ∀ w : Word, (∃ i, decode w = .ok i) ↔
    w.toNat < 2 ^ 10 ∧
    (w.toNat % 256 ∈ [0x00, 0x01, 0x10, 0x11, 0x12, 0x20, 0x21, 0x30, 0x31, 0x40, 0x41, 0x42, 0x43,
      0x44, 0x45, 0x46]) ∧
    (w.getLsbD 8 = true → w.toNat % 256 = 0x40 ∨ w.toNat % 256 = 0x41) ∧
    (w.getLsbD 9 = true → w.toNat % 256 = 0x42)

/-- 30_encoding.md rule R81, row by row: word `w` is that command exactly when `(w AND mask) = match`, with the
free option bit as the command's option; the sixteen rows are disjoint. -/
def Obligations.OpcodeMap : Prop :=
  (∀ w : Word,
    (decode w = .ok .nop ↔ w &&& 0xFFFFFFFF = 0x00000000) ∧
    (decode w = .ok .sreset ↔ w &&& 0xFFFFFFFF = 0x00000001) ∧
    (decode w = .ok .crcInit ↔ w &&& 0xFFFFFFFF = 0x00000010) ∧
    (decode w = .ok .crcUpdate ↔ w &&& 0xFFFFFFFF = 0x00000011) ∧
    (decode w = .ok .crcCalc ↔ w &&& 0xFFFFFFFF = 0x00000012) ∧
    (decode w = .ok .sxtEnc ↔ w &&& 0xFFFFFFFF = 0x00000020) ∧
    (decode w = .ok .sxtDec ↔ w &&& 0xFFFFFFFF = 0x00000021) ∧
    (decode w = .ok .dflStore ↔ w &&& 0xFFFFFFFF = 0x00000030) ∧
    (decode w = .ok .dflUnstore ↔ w &&& 0xFFFFFFFF = 0x00000031) ∧
    (∀ nc, decode w = .ok (.encode nc) ↔ w &&& 0xFFFFFEFF = 0x00000040 ∧ w.getLsbD 8 = nc) ∧
    (∀ nc, decode w = .ok (.encodeTtl nc) ↔ w &&& 0xFFFFFEFF = 0x00000041 ∧ w.getLsbD 8 = nc) ∧
    (∀ nt, decode w = .ok (.decode nt) ↔ w &&& 0xFFFFFDFF = 0x00000042 ∧ w.getLsbD 9 = nt) ∧
    (decode w = .ok .inspect ↔ w &&& 0xFFFFFFFF = 0x00000043) ∧
    (decode w = .ok .verify ↔ w &&& 0xFFFFFFFF = 0x00000044) ∧
    (decode w = .ok .validate ↔ w &&& 0xFFFFFFFF = 0x00000045) ∧
    (decode w = .ok .info ↔ w &&& 0xFFFFFFFF = 0x00000046)) ∧
  opcodeTable.length = 16 ∧
  opcodeTable.Pairwise (fun r q => ∀ w : Word, ¬ (w &&& r.mask = r.pattern ∧ w &&& q.mask = q.pattern))

/-! ### The units' functions -/

/-- 41_crc.md rule R134: the bit-serial step, eight conditional shifts after the byte is XORed into the high
half, and the table-driven step are one function. -/
def Obligations.CrcSerialEqualsTable : Prop :=
  ∀ (c : Half) (b : Byte),
    crcStepSerial c b =
      (List.range 8).foldl (fun (x : Half) _ => if x &&& 0x8000 ≠ 0 then (x <<< 1) ^^^ 0x1021 else x <<< 1)
        (c ^^^ (b.setWidth 16 <<< 8)) ∧
    crcStepSerial c b = crcStep c b

/-- 41_crc.md rule R135: `crc_update` and `crc16`, their values on no bytes and on "123456789", and feeding a
buffer in pieces. -/
def Obligations.CrcUpdatePiecewise : Prop :=
  (∀ c, crcUpdate c [] = c) ∧
  (∀ c b bs, crcUpdate c (b :: bs) = crcUpdate (crcStep c b) bs) ∧
  (∀ bs, crc16 bs = crcUpdate 0xFFFF bs) ∧
  crc16 [] = 0xFFFF ∧
  crc16 [0x31, 0x32, 0x33, 0x34, 0x35, 0x36, 0x37, 0x38, 0x39] = 0x29B1 ∧
  (∀ c as bs, crcUpdate (crcUpdate c as) bs = crcUpdate c (as ++ bs))

/-- 43_frame_decode.md rule R183: a change of some bytes, all inside one span of 16 consecutive bits (which lies
in at most three bytes), always changes the checksum of a buffer whose length stays the same. -/
def Obligations.ChecksumDetectsBursts : Prop :=
  (∀ (as bs : List Byte) (x0 x1 x2 y0 y1 y2 : Byte) (e : BitVec 16) (k : Nat), k ≤ 8 → e ≠ 0 →
    (x0 ++ x1 ++ x2 : BitVec 24) ^^^ (y0 ++ y1 ++ y2) = e.setWidth 24 <<< k →
    crc16 (as ++ [x0, x1, x2] ++ bs) ≠ crc16 (as ++ [y0, y1, y2] ++ bs)) ∧
  (∀ (as bs xs ys : List Byte), xs.length = ys.length → xs.length ≤ 2 → xs ≠ ys →
    crc16 (as ++ xs ++ bs) ≠ crc16 (as ++ ys ++ bs))

/-- 40_sextet.md rule R117: decoding inverts encoding, and encoding gives a text back exactly when its
discarded bits are zero. -/
def Obligations.SextetRoundTrip : Prop :=
  ∀ p : Params, p.wf = true →
    (∀ bs, sxtDec p (textOf p (sxtEnc bs)) = .ok bs) ∧
    (∀ t bs, sxtDec p t = .ok bs → (textOf p (sxtEnc bs) = t ↔ discardedBitsZero p t))

/-- 40_sextet.md rules R114 to R116: `sxt_dec` answers exactly on the legal texts, with
`(L div 4) * 3 - p` bytes, and does not look at the bits it discards. -/
def Obligations.SextetDecodeDomain : Prop :=
  ∀ p : Params, p.wf = true →
    (∀ t, LegalText p t →
      ∃ bs, sxtDec p t = .ok bs ∧ bs.length = t.length / 4 * 3 - trailingPads p t) ∧
    (∀ t, ¬ LegalText p t → sxtDec p t = .error .format) ∧
    (∀ t a b b', (amap p b).isSome → (amap p b').isSome → sextetValue p b >>> 4 = sextetValue p b' >>> 4 →
      sxtDec p (t ++ [a, b, p.pad, p.pad]) = sxtDec p (t ++ [a, b', p.pad, p.pad])) ∧
    (∀ t a b c c', (amap p c).isSome → (amap p c').isSome → sextetValue p c >>> 2 = sextetValue p c' >>> 2 →
      sxtDec p (t ++ [a, b, c, p.pad]) = sxtDec p (t ++ [a, b, c', p.pad]))

/-- 44_deflate.md rule R205: the stored-block round trip, and the decompressor's output fits where its input
fitted. -/
def Obligations.StoredBlockRoundTrip : Prop :=
  (∀ bs : List Byte, bs.length ≤ 65535 → ∃ z, dflStore bs = .ok z ∧ dflUnstore z = .ok bs) ∧
  (∀ z out : List Byte, dflUnstore z = .ok out → out.length ≤ z.length - 5 ∧ 5 ≤ z.length)

/-- 44_deflate.md rule R204, block by block: a missing header, the block types, LEN and NLEN, data cut
short, a block that another follows, a final block with bytes after it. -/
def Obligations.StoredStreamByBlocks : Prop :=
  dflUnstore [] = .error .compression ∧
  (∀ (h : Byte) rest, h.toNat / 2 % 4 = 1 ∨ h.toNat / 2 % 4 = 2 →
    dflUnstore (h :: rest) = .error .unsupported) ∧
  (∀ (h : Byte) rest, h.toNat / 2 % 4 = 3 → dflUnstore (h :: rest) = .error .compression) ∧
  (∀ (h : Byte) rest, h.toNat / 2 % 4 = 0 → rest.length < 4 →
    dflUnstore (h :: rest) = .error .compression) ∧
  (∀ (h l0 l1 n0 n1 : Byte) data, h.toNat / 2 % 4 = 0 →
    (l0.toNat + 256 * l1.toNat) + (n0.toNat + 256 * n1.toNat) ≠ 0xFFFF ∨
      data.length < l0.toNat + 256 * l1.toNat →
    dflUnstore (h :: l0 :: l1 :: n0 :: n1 :: data) = .error .compression) ∧
  (∀ (h l0 l1 n0 n1 : Byte) d rest, h.toNat / 2 % 4 = 0 →
    (l0.toNat + 256 * l1.toNat) + (n0.toNat + 256 * n1.toNat) = 0xFFFF →
    d.length = l0.toNat + 256 * l1.toNat →
    (h.toNat % 2 = 1 → dflUnstore (h :: l0 :: l1 :: n0 :: n1 :: (d ++ rest)) = .ok d) ∧
    (h.toNat % 2 = 0 → dflUnstore (h :: l0 :: l1 :: n0 :: n1 :: (d ++ rest)) =
      (dflUnstore rest).map (d ++ ·)))

/-- 42_frame_encode.md rule R154: the compressed form is never chosen, ENCODE emits flags 0x00 and ENCODE_TTL
0x04, NC changes nothing, ORIG_SIZE stays 0. -/
def Obligations.CompressedFormNeverEmitted : Prop :=
  (∀ o nc, compressChoice o nc = (0x00, o)) ∧
  (∀ o nc, (envelope o nc none).head? = some 0x00) ∧
  (∀ o nc c n, (envelope o nc (some (c, n))).head? = some 0x04) ∧
  (∀ nc s, exec (.encode nc) s = exec (.encode false) s) ∧
  (∀ nc s, exec (.encodeTtl nc) s = exec (.encodeTtl false) s) ∧
  (∀ nc s t, exec (.encode nc) s = .next t → t.get .flags = 0 ∧ t.get .origSize = 0) ∧
  (∀ nc s t, exec (.encodeTtl nc) s = .next t → t.get .status = 2 →
    t.get .flags = 4 ∧ t.get .origSize = 0)

/-- 42_frame_encode.md rules R153 and R155, 30_encoding.md rules R89 and R93: the text is the marker and the
sextet text of the envelope, and its length. -/
def Obligations.FrameTextShape : Prop :=
  ∀ (p : Params) (o : List Byte) (nc : Bool),
    (frameText p o nc none =
      0x64 :: 0x78 :: textOf p (sxtEnc (Frame.envelope ⟨0x00, crc16 o, 0, 0, o⟩)) ∧
     (frameText p o nc none).length = 2 + 4 * ((3 + o.length + 2) / 3)) ∧
    (∀ c n, frameText p o nc (some (c, n)) =
      0x64 :: 0x78 :: textOf p (sxtEnc (Frame.envelope ⟨0x04, crc16 o, c, n, o⟩)) ∧
     (frameText p o nc (some (c, n))).length = 2 + 4 * ((11 + o.length + 2) / 3))

/-! ### The sixteen commands -/

/-- 45_system.md rule R223: NOP. -/
def Obligations.NopClearsResults : Prop :=
  encode .nop = 0x00000000 ∧
  ∀ s : State, ∃ t, exec .nop s = .next t ∧ Succeeded t ∧ ResultsZeroBut [] t ∧
    t.get .crc = s.get .crc ∧ Emitted [] t ∧ CommandFrame s t

/-- 45_system.md rule R224: SRESET. The fields `response` and `events` are the model's own (logs 2 and 4). -/
def Obligations.SresetRestoresRegisters : Prop :=
  encode .sreset = 0x00000001 ∧
  ∀ s : State, ∃ t, exec .sreset s = .next t ∧ (∀ r, r ≠ .crc → r ≠ .now → t.get r = 0) ∧
    t.get .crc = 0x0000FFFF ∧ t.get .now = s.get .now ∧ t.nows = 0 ∧ t.busy = false ∧
    (∀ a, t.ibuf.read a = s.ibuf.read a) ∧ t.ibufEpoch = s.ibufEpoch ∧ (∀ a, t.obuf.read a = none) ∧
    t.params = s.params ∧ t.response = s.response ∧ t.events = s.events

/-- 41_crc.md rule R137: CRC_INIT. OBUF is unspecified afterwards (10_state.md rule R42, log 6). -/
def Obligations.CrcInitLoadsInitialValue : Prop :=
  ∀ s : State, ∃ t, exec .crcInit s = .next t ∧ Succeeded t ∧ ResultsZeroBut [] t ∧
    CrcIs 0xFFFF t ∧ Emitted [] t ∧ CommandFrame s t

/-- 41_crc.md rule R138: CRC_UPDATE. -/
def Obligations.CrcUpdateFoldsInput : Prop :=
  ∀ (s : State) inp, HasInput s inp →
    ∃ t, exec .crcUpdate s = .next t ∧ Succeeded t ∧ ResultsZeroBut [] t ∧
      CrcIs (crcUpdate ((s.get .crc).setWidth 16) inp) t ∧ Emitted [] t ∧ CommandFrame s t

/-- 41_crc.md rule R139: CRC_CALC. -/
def Obligations.CrcCalcComputesChecksum : Prop :=
  ∀ (s : State) inp, HasInput s inp →
    ∃ t, exec .crcCalc s = .next t ∧ Succeeded t ∧ ResultsZeroBut [.crcComputed] t ∧
      CrcIs (crc16 inp) t ∧ (t.get .crcComputed).toNat = (crc16 inp).toNat ∧ Emitted [] t ∧
      CommandFrame s t

/-- 40_sextet.md rule R118: SXT_ENC. -/
def Obligations.SxtEncEmitsText : Prop :=
  ∀ (s : State) inp, HasInput s inp → 4 * ((inp.length + 2) / 3) ≤ s.params.obufSize →
    ∃ t, exec .sxtEnc s = .next t ∧ Succeeded t ∧ ResultsZeroBut [.olen] t ∧
      t.get .crc = s.get .crc ∧ Emitted (textOf s.params (sxtEnc inp)) t ∧
      (textOf s.params (sxtEnc inp)).length = 4 * ((inp.length + 2) / 3) ∧ CommandFrame s t

/-- 40_sextet.md rule R119: SXT_DEC on a text `sxt_dec` accepts. -/
def Obligations.SxtDecEmitsBytes : Prop :=
  ∀ (s : State) inp bs, HasInput s inp → sxtDec s.params inp = .ok bs →
    bs.length ≤ s.params.obufSize →
    ∃ t, exec .sxtDec s = .next t ∧ Succeeded t ∧ ResultsZeroBut [.olen] t ∧
      t.get .crc = s.get .crc ∧ Emitted bs t ∧ CommandFrame s t

/-- 44_deflate.md rules R202, R203 and R206: DFL_STORE, and its error on more than 65535 bytes. -/
def Obligations.DflStoreEmitsStoredBlock : Prop :=
  ∀ (s : State) inp, HasInput s inp →
    (inp.length ≤ 65535 → inp.length + 5 ≤ s.params.obufSize →
      ∃ t, exec .dflStore s = .next t ∧ Succeeded t ∧ ResultsZeroBut [.olen] t ∧
        t.get .crc = s.get .crc ∧ CommandFrame s t ∧
        Emitted (0x01 :: BitVec.ofNat 8 (inp.length % 256) :: BitVec.ofNat 8 (inp.length / 256) ::
          BitVec.ofNat 8 ((65535 - inp.length) % 256) :: BitVec.ofNat 8 ((65535 - inp.length) / 256) ::
          inp) t) ∧
    (65535 < inp.length →
      ∃ t, exec .dflStore s = .next t ∧ FailedWith .compression t ∧ ResultsZeroBut [.errcode] t ∧
        t.get .crc = s.get .crc ∧ CommandFrame s t)

/-- 44_deflate.md rule R207: DFL_UNSTORE, and the errors of the decompressor. -/
def Obligations.DflUnstoreEmitsData : Prop :=
  ∀ (s : State) inp, HasInput s inp →
    (∀ bs, dflUnstore inp = .ok bs → bs.length ≤ s.params.obufSize →
      ∃ t, exec .dflUnstore s = .next t ∧ Succeeded t ∧ ResultsZeroBut [.olen] t ∧
        t.get .crc = s.get .crc ∧ Emitted bs t ∧ CommandFrame s t) ∧
    (∀ e, dflUnstore inp = .error e →
      (e = .compression ∨ e = .unsupported) ∧
      ∃ t, exec .dflUnstore s = .next t ∧ FailedWith e t ∧ ResultsZeroBut [.errcode] t ∧
        t.get .crc = s.get .crc ∧ CommandFrame s t)

/-- 42_frame_encode.md rule R156: ENCODE. -/
def Obligations.EncodeEmitsFrame : Prop :=
  ∀ (s : State) inp nc, HasInput s inp → 2 + 4 * ((3 + inp.length + 2) / 3) ≤ s.params.obufSize →
    ∃ t, exec (.encode nc) s = .next t ∧ Succeeded t ∧
      ResultsZeroBut [.olen, .crcStored, .crcComputed] t ∧
      CrcIs (crc16 inp) t ∧ (t.get .crcStored).toNat = (crc16 inp).toNat ∧
      (t.get .crcComputed).toNat = (crc16 inp).toNat ∧
      Emitted (frameText s.params inp nc none) t ∧ CommandFrame s t

/-- 42_frame_encode.md rule R157: ENCODE_TTL. created-at is NOWS, and IS_EXPIRED is 0. -/
def Obligations.EncodeTtlEmitsFrame : Prop :=
  ∀ (s : State) inp nc, HasInput s inp → 2 + 4 * ((11 + inp.length + 2) / 3) ≤ s.params.obufSize →
    ∃ t, exec (.encodeTtl nc) s = .next t ∧ Succeeded t ∧
      HeaderShown ⟨0x04, crc16 inp, s.nows, s.get .ttlArg, inp⟩ s.nows t ∧
      (t.get .info).getLsbD 4 = false ∧ CrcIs (crc16 inp) t ∧
      (t.get .crcComputed).toNat = (crc16 inp).toNat ∧ t.get .origSize = 0 ∧ t.get .result = 0 ∧
      Emitted (frameText s.params inp nc (some (s.nows, s.get .ttlArg))) t ∧ CommandFrame s t

/-- 43_frame_decode.md rule R176 (steps of rules R172 and R174): DECODE of a frame whose checksum matches,
plain or compressed, with or without a TTL block, not expired unless NT = 1. -/
def Obligations.DecodeReturnsOriginal : Prop :=
  ∀ (s : State) inp nt (f : Frame) orig o, HasInput s inp → Carries s.params inp f.envelope →
    f.Legal → f.Holds orig o → f.stored = crc16 o → (nt = false → ¬ f.Expired s.nows) →
    o.length ≤ s.params.obufSize →
    ∃ t, exec (.decode nt) s = .next t ∧ Succeeded t ∧ HeaderShown f s.nows t ∧
      (t.get .origSize).toNat = orig.toNat ∧ CrcIs (crc16 o) t ∧
      (t.get .crcComputed).toNat = (crc16 o).toNat ∧ t.get .result = 0 ∧ Emitted o t ∧
      CommandFrame s t

/-- 43_frame_decode.md rule R177: INSPECT, whether or not the checksums match or the text is expired. -/
def Obligations.InspectShowsBothChecksums : Prop :=
  ∀ (s : State) inp (f : Frame) orig o, HasInput s inp → Carries s.params inp f.envelope →
    f.Legal → f.Holds orig o →
    ∃ t, exec .inspect s = .next t ∧ Succeeded t ∧ HeaderShown f s.nows t ∧
      (t.get .origSize).toNat = orig.toNat ∧ CrcIs (crc16 o) t ∧
      (t.get .crcComputed).toNat = (crc16 o).toNat ∧
      t.get .result = (if f.stored = crc16 o then 1 else 0) ∧ Emitted [] t ∧ CommandFrame s t

/-- 43_frame_decode.md rule R178: VERIFY of a text that is not expired. -/
def Obligations.VerifyAnswersMatch : Prop :=
  ∀ (s : State) inp (f : Frame) orig o, HasInput s inp → Carries s.params inp f.envelope →
    f.Legal → f.Holds orig o → ¬ f.Expired s.nows →
    ∃ t, exec .verify s = .next t ∧ Succeeded t ∧ HeaderShown f s.nows t ∧
      (t.get .origSize).toNat = orig.toNat ∧ CrcIs (crc16 o) t ∧
      (t.get .crcComputed).toNat = (crc16 o).toNat ∧
      t.get .result = (if f.stored = crc16 o then 1 else 0) ∧ Emitted [] t ∧ CommandFrame s t

/-- 43_frame_decode.md rule R179: VALIDATE answers the written-out conjunction, which is that DECODE would
pass S1, S2 and S3. -/
def Obligations.ValidateAnswersStructure : Prop :=
  ∀ (s : State) inp, HasInput s inp →
    ∃ t, exec .validate s = .next t ∧ Succeeded t ∧ ResultsZeroBut [.result] t ∧
      t.get .crc = s.get .crc ∧ Emitted [] t ∧ CommandFrame s t ∧
      (StructurallyValid s.params inp → t.get .result = 1) ∧
      (¬ StructurallyValid s.params inp → t.get .result = 0) ∧
      (t.get .result = 1 ↔ ∃ e, Carries s.params inp e ∧ 3 ≤ e.length)

/-- 43_frame_decode.md rule R180: INFO shows the header, expired or not, whatever the payload is. -/
def Obligations.InfoShowsHeader : Prop :=
  ∀ (s : State) inp (f : Frame), HasInput s inp → Carries s.params inp f.envelope → f.Legal →
    ∃ t, exec .info s = .next t ∧ Succeeded t ∧ HeaderShown f s.nows t ∧
      ResultsZeroBut headerRegs t ∧
      t.get .crc = s.get .crc ∧ Emitted [] t ∧ CommandFrame s t

/-! ### Errors -/

/-- 45_system.md rule R220 phase 3, 10_state.md rule R28, 60_exceptions.md rule R239: ILEN above IBUF_SIZE. -/
def Obligations.InputOverCapacityRaises : Prop :=
  ∀ (i : Instr) (s : State), readsInput i = true → s.params.ibufSize < (s.get .ilen).toNat →
    ∃ t, exec i s = .next t ∧ FailedWith .capacity t ∧ ResultsZeroBut [.errcode] t ∧
      t.get .crc = s.get .crc ∧ CommandFrame s t

/-- 20_memory.md rule R65 and 93_implementation_defined.md U4: a command whose input range holds a
never-written byte ends in the model's own fault, and only such a command does. -/
def Obligations.UnwrittenInputFaults : Prop :=
  ∀ (i : Instr) (s : State),
    exec i s = .fault .unwrittenInput ↔
      readsInput i = true ∧ (s.get .ilen).toNat ≤ s.params.ibufSize ∧
      ∃ k, k < (s.get .ilen).toNat ∧ s.ibuf.read k = none

/-- 00_scope.md rule R12 (`emit`), 60_exceptions.md rule R239: an output longer than OBUF_SIZE raises after all
other checks and writes; ENCODE and ENCODE_TTL keep the checksums they wrote (42_frame_encode.md rule R156). -/
def Obligations.OutputOverCapacityRaises : Prop :=
  ∀ (s : State) inp, HasInput s inp →
    (s.params.obufSize < 4 * ((inp.length + 2) / 3) →
      ∃ t, exec .sxtEnc s = .next t ∧ FailedWith .capacity t ∧ ResultsZeroBut [.errcode] t ∧
        t.get .crc = s.get .crc ∧ CommandFrame s t) ∧
    (∀ bs, sxtDec s.params inp = .ok bs → s.params.obufSize < bs.length →
      ∃ t, exec .sxtDec s = .next t ∧ FailedWith .capacity t ∧ ResultsZeroBut [.errcode] t ∧
        t.get .crc = s.get .crc ∧ CommandFrame s t) ∧
    (inp.length ≤ 65535 → s.params.obufSize < inp.length + 5 →
      ∃ t, exec .dflStore s = .next t ∧ FailedWith .capacity t ∧ ResultsZeroBut [.errcode] t ∧
        t.get .crc = s.get .crc ∧ CommandFrame s t) ∧
    (∀ bs, dflUnstore inp = .ok bs → s.params.obufSize < bs.length →
      ∃ t, exec .dflUnstore s = .next t ∧ FailedWith .capacity t ∧ ResultsZeroBut [.errcode] t ∧
        t.get .crc = s.get .crc ∧ CommandFrame s t) ∧
    (∀ nc, s.params.obufSize < 2 + 4 * ((3 + inp.length + 2) / 3) →
      ∃ t, exec (.encode nc) s = .next t ∧ FailedWith .capacity t ∧
        ResultsZeroBut [.errcode, .crcStored, .crcComputed] t ∧ CrcIs (crc16 inp) t ∧
        (t.get .crcStored).toNat = (crc16 inp).toNat ∧
        (t.get .crcComputed).toNat = (crc16 inp).toNat ∧ CommandFrame s t) ∧
    (∀ nc, s.params.obufSize < 2 + 4 * ((11 + inp.length + 2) / 3) →
      ∃ t, exec (.encodeTtl nc) s = .next t ∧ FailedWith .capacity t ∧ CrcIs (crc16 inp) t ∧
        HeaderShown ⟨0x04, crc16 inp, s.nows, s.get .ttlArg, inp⟩ s.nows t ∧
        (t.get .crcComputed).toNat = (crc16 inp).toNat ∧ t.get .origSize = 0 ∧ t.get .result = 0 ∧
        CommandFrame s t) ∧
    (∀ nt (f : Frame) orig o, Carries s.params inp f.envelope → f.Legal → f.Holds orig o →
      f.stored = crc16 o → (nt = false → ¬ f.Expired s.nows) → s.params.obufSize < o.length →
      ∃ t, exec (.decode nt) s = .next t ∧ FailedWith .capacity t ∧ CrcIs (crc16 o) t ∧
        HeaderShown f s.nows t ∧ (t.get .crcComputed).toNat = (crc16 o).toNat ∧
        (t.get .origSize).toNat = orig.toNat ∧ t.get .result = 0 ∧ CommandFrame s t)

/-- 60_exceptions.md rule R232: the missing marker, in DECODE, INSPECT, VERIFY and INFO; VALIDATE answers 0. -/
def Obligations.MissingMarkRaises : Prop :=
  ∀ (s : State) inp, HasInput s inp → (¬ ∃ u, inp = 0x64 :: 0x78 :: u) →
    (∀ nt, ∀ i ∈ [Instr.decode nt, .inspect, .verify, .info],
      ∃ t, exec i s = .next t ∧ FailedWith .missingMark t ∧ ResultsZeroBut [.errcode] t ∧
        t.get .crc = s.get .crc ∧ CommandFrame s t) ∧
    (∃ t, exec .validate s = .next t ∧ Succeeded t ∧ t.get .result = 0)

/-- 60_exceptions.md rule R233: the six places of E_FORMAT: in SXT_DEC, in step S2, S3, S6 and S8. -/
def Obligations.MalformedTextRaisesFormat : Prop :=
  ∀ (s : State) inp, HasInput s inp →
    (¬ LegalText s.params inp →
      ∃ t, exec .sxtDec s = .next t ∧ FailedWith .format t ∧ ResultsZeroBut [.errcode] t ∧
        t.get .crc = s.get .crc ∧ CommandFrame s t) ∧
    (∀ u, inp = 0x64 :: 0x78 :: u →
      ¬ LegalText s.params u ∨ (∃ e, sxtDec s.params u = .ok e ∧ e.length < 3) →
      ∀ nt, ∀ i ∈ [Instr.decode nt, .inspect, .verify, .info],
        ∃ t, exec i s = .next t ∧ FailedWith .format t ∧ ResultsZeroBut [.errcode] t ∧
          t.get .crc = s.get .crc ∧ CommandFrame s t) ∧
    (∀ (f : Byte) stored rest, Carries s.params inp (f :: (be16 stored ++ rest)) → f.toNat < 8 →
      f.getLsbD 2 = true → rest.length < 8 →
      ∀ nt, ∀ i ∈ [Instr.decode nt, .inspect, .verify, .info],
        ∃ t, exec i s = .next t ∧ FailedWith .format t ∧
          ResultsZeroBut [.errcode, .flags, .crcStored] t ∧ (t.get .flags).toNat = f.toNat ∧
          (t.get .crcStored).toNat = stored.toNat ∧ t.get .crc = s.get .crc ∧ CommandFrame s t) ∧
    (∀ (f : Frame), Carries s.params inp f.envelope → f.Legal → f.flags.getLsbD 0 = true →
      f.payload.length < 2 →
      (∀ nt, (nt = false → ¬ f.Expired s.nows) →
        ∃ t, exec (.decode nt) s = .next t ∧ FailedWith .format t ∧ HeaderShown f s.nows t ∧
          ResultsZeroBut (.errcode :: headerRegs) t ∧
          t.get .crc = s.get .crc ∧ CommandFrame s t) ∧
      (∃ t, exec .inspect s = .next t ∧ FailedWith .format t ∧ HeaderShown f s.nows t ∧
          ResultsZeroBut (.errcode :: headerRegs) t ∧
        t.get .crc = s.get .crc ∧ CommandFrame s t) ∧
      (¬ f.Expired s.nows →
        ∃ t, exec .verify s = .next t ∧ FailedWith .format t ∧ HeaderShown f s.nows t ∧
          ResultsZeroBut (.errcode :: headerRegs) t ∧
          t.get .crc = s.get .crc ∧ CommandFrame s t))

/-- 60_exceptions.md rule R234: a reserved flag bit, with the byte in FLAGS, whatever follows the header. -/
def Obligations.ReservedFlagsRaise : Prop :=
  ∀ (s : State) inp (f k1 k0 : Byte) rest, HasInput s inp →
    Carries s.params inp (f :: k1 :: k0 :: rest) → f &&& 0xF8 ≠ 0 →
    ∀ nt, ∀ i ∈ [Instr.decode nt, .inspect, .verify, .info],
      ∃ t, exec i s = .next t ∧ FailedWith .invalidFlags t ∧ (t.get .flags).toNat = f.toNat ∧
        ResultsZeroBut [.errcode, .flags] t ∧ t.get .crc = s.get .crc ∧ CommandFrame s t

/-- 60_exceptions.md rule R237: an expired text, in DECODE with NT = 0 and in VERIFY, whatever its payload,
with created-at and the 33-bit expiry in the registers. -/
def Obligations.ExpiredTextRaises : Prop :=
  ∀ (s : State) inp (f : Frame), HasInput s inp → Carries s.params inp f.envelope → f.Legal →
    f.flags.getLsbD 2 = true → f.Expired s.nows →
    ∀ i ∈ [Instr.decode false, .verify],
      ∃ t, exec i s = .next t ∧ FailedWith .expired t ∧ HeaderShown f s.nows t ∧
        t.get .ttlCreated = f.created ∧
        (if (t.get .info).getLsbD 5 then 2 ^ 32 else 0) + (t.get .expiresLo).toNat =
          f.created.toNat + f.seconds.toNat ∧
        ResultsZeroBut (.errcode :: headerRegs) t ∧ t.get .crc = s.get .crc ∧ CommandFrame s t

/-- 60_exceptions.md rule R235: a checksum that differs: E_CHECKSUM in DECODE only, with both values;
RESULT = 0 without an error in VERIFY and INSPECT. -/
def Obligations.ChecksumMismatchHandled : Prop :=
  (∀ (s : State) inp (f : Frame) orig o, HasInput s inp → Carries s.params inp f.envelope →
    f.Legal → f.Holds orig o → f.stored ≠ crc16 o →
    (∀ nt, (nt = false → ¬ f.Expired s.nows) →
      ∃ t, exec (.decode nt) s = .next t ∧ FailedWith .checksum t ∧
        (t.get .crcStored).toNat = f.stored.toNat ∧ HeaderShown f s.nows t ∧
        (t.get .crcComputed).toNat = (crc16 o).toNat ∧ CrcIs (crc16 o) t ∧
        (t.get .origSize).toNat = orig.toNat ∧ t.get .result = 0 ∧ CommandFrame s t) ∧
    (¬ f.Expired s.nows → ∃ t, exec .verify s = .next t ∧ Succeeded t ∧ t.get .result = 0) ∧
    (∃ t, exec .inspect s = .next t ∧ Succeeded t ∧ t.get .result = 0)) ∧
  (∀ i s t, exec i s = .next t → t.get .errcode = 5 → ∃ nt, i = .decode nt)

/-- 43_frame_decode.md rule R174 step S8 and 60_exceptions.md rule R238: the decompressor's errors are
propagated, with the header and ORIG_SIZE in the registers. -/
def Obligations.DecompressionErrorsPropagate : Prop :=
  ∀ (s : State) inp (f : Frame) (orig : Half) z e, HasInput s inp →
    Carries s.params inp f.envelope → f.Legal → f.flags.getLsbD 0 = true →
    f.payload = be16 orig ++ z → dflUnstore z = .error e →
    (∀ nt, (nt = false → ¬ f.Expired s.nows) →
      ∃ t, exec (.decode nt) s = .next t ∧ FailedWith e t ∧ HeaderShown f s.nows t ∧
        (t.get .origSize).toNat = orig.toNat ∧
        ResultsZeroBut (.errcode :: .origSize :: headerRegs) t ∧ t.get .crc = s.get .crc ∧ CommandFrame s t) ∧
    (∃ t, exec .inspect s = .next t ∧ FailedWith e t ∧ HeaderShown f s.nows t ∧
      (t.get .origSize).toNat = orig.toNat ∧
        ResultsZeroBut (.errcode :: .origSize :: headerRegs) t ∧ t.get .crc = s.get .crc ∧ CommandFrame s t) ∧
    (¬ f.Expired s.nows →
      ∃ t, exec .verify s = .next t ∧ FailedWith e t ∧ HeaderShown f s.nows t ∧
        (t.get .origSize).toNat = orig.toNat ∧
        ResultsZeroBut (.errcode :: .origSize :: headerRegs) t ∧ t.get .crc = s.get .crc ∧ CommandFrame s t)

/-- 60_exceptions.md rule R241: no command ends with a code its row does not have; codes 1 and 10 to none. -/
def Obligations.CommandErrorCodes : Prop :=
  ∀ (i : Instr) (s t : State), exec i s = .next t →
    (t.get .errcode = 0 ∨ ∃ e ∈ possibleErrors i, t.get .errcode = e.code) ∧
    t.get .errcode ≠ 1 ∧ t.get .errcode ≠ 10

/-! ### Frames and whole-machine rules -/

/-- 10_state.md rules R24, R28 and R41: every command but SRESET leaves CMD, ILEN, TTL_ARG, NOWS and IBUF as
they were, whether it succeeds or raises. -/
def Obligations.CommandsKeepOperands : Prop :=
  ∀ (i : Instr) (s t : State), i ≠ .sreset → exec i s = .next t → CommandFrame s t

/-- 10_state.md rule R30: which commands never change CRC; a frame command leaves in CRC what it shows in
CRC_COMPUTED, or what was there. -/
def Obligations.CrcRegisterKept : Prop :=
  (∀ i ∈ [Instr.nop, .sxtEnc, .sxtDec, .dflStore, .dflUnstore, .validate, .info],
    ∀ s t, exec i s = .next t → t.get .crc = s.get .crc) ∧
  (∀ nc nt, ∀ i ∈ [Instr.encode nc, .encodeTtl nc, .decode nt, .inspect, .verify, .crcCalc],
    ∀ s t, exec i s = .next t →
      (t.get .crc = s.get .crc ∧ t.get .crcComputed = 0) ∨ t.get .crc = t.get .crcComputed)

/-- 10_state.md rule R24 and 30_encoding.md rule R84: a result register that is not in a command's list is
zero when the command has finished. -/
def Obligations.ResultsZeroUnlessWritten : Prop :=
  ∀ (i : Instr) (s t : State), exec i s = .next t → ResultsZeroBut (.errcode :: writtenResults i) t

/-- 60_exceptions.md rule R250: a command outside the time-dependent ones is a function of its other operands
alone, and no command looks at the live NOW input. -/
def Obligations.TimeDoesNotMatter : Prop :=
  (∀ (i : Instr) (s : State) (v : Word), dependsOnTime i = false → i ≠ .sreset →
    exec i { s with nows := v } =
      match exec i s with
      | .next t => .next { t with nows := v }
      | .fault r => .fault r
      | .refused r => .refused r) ∧
  (∀ (s : State) (v : Word), exec .sreset { s with nows := v } = exec .sreset s) ∧
  (∀ (i : Instr) (s : State) (v : Word),
    exec i { s with nowInput := v } =
      match exec i s with
      | .next t => .next { t with nowInput := v }
      | .fault r => .fault r
      | .refused r => .refused r)

/-- The invariant `State.Inv` (10_state.md rules R22, R26 to R29, R37, R39, 93_implementation_defined.md U9)
is kept by every step from every state. -/
def Obligations.StepKeepsInvariant : Prop :=
  ∀ s t : State, s.Inv → step s = .next t → t.Inv

/-- The invariant `State.Inv` holds after reset, for every parameters that meet 00_scope.md rule R7. -/
def Obligations.ResetMeetsInvariant : Prop :=
  (∀ p : Params, p.wf = true → (State.resetWith p).Inv) ∧ State.reset.Inv

/-- 70_reset_and_hazards.md rule R261: the reset values, complete. -/
def Obligations.ResetValues : Prop :=
  ∀ p : Params,
    (∀ r, r ≠ .crc → r ≠ .now → (State.resetWith p).get r = 0) ∧
    (State.resetWith p).get .crc = 0x0000FFFF ∧
    (State.resetWith p).get .now = (State.resetWith p).nowInput ∧
    (State.resetWith p).nows = 0 ∧ (State.resetWith p).busy = false ∧
    (∀ a, (State.resetWith p).ibuf.read a = none) ∧ (∀ a, (State.resetWith p).obuf.read a = none)

/-- 10_state.md rule R21: the parameters are the same for the life of the block. -/
def Obligations.StepKeepsParameters : Prop :=
  ∀ s t : State, step s = .next t → t.params = s.params

/-- 45_system.md rules R221 and R222: from any state with BUSY = 1 whose input is written, the engine's turn
leads to a state with BUSY = 0, and to DONE = 1 unless the command was SRESET. With no turn left in the
schedule the next turn is the engine's (log 2). -/
def Obligations.EngineTurnCompletes : Prop :=
  ∀ s : State, s.busy = true → s.events = [] →
    (∀ a, a < (s.get .ilen).toNat → s.ibuf.read a ≠ none) →
    ∃ t, step s = .next t ∧ t.busy = false ∧
      ((s.get .cmd = 0x00000001 ∧ t.get .status = 0) ∨ (s.get .cmd ≠ 0x00000001 ∧ t.done = true))

/-- 10_state.md rule R41 and 70_reset_and_hazards.md rule R260: only a host write to IBUF and the hardware reset
change a byte of IBUF. -/
def Obligations.OnlyHostAndResetChangeIbuf : Prop :=
  ∀ s t : State, step s = .next t → (∃ a, t.ibuf.read a ≠ s.ibuf.read a) →
    (∃ i v rest, s.events = .host (.bufWrite .ibuf i v) :: rest) ∨
    (∃ rest, s.events = .hardwareReset :: rest)

/-- 10_state.md rules R25 and R36: BUSY rises only by an accepted CMD write, which captures the word and samples
NOW. -/
def Obligations.OnlyCmdWriteStartsCommand : Prop :=
  ∀ s t : State, s.busy = false → step s = .next t → t.busy = true →
    ∃ w rest, s.events = .host (.regWrite 0 w) :: rest ∧ t.get .cmd = w ∧ t.nows = s.nowInput ∧
      t.get .status = 0x00000001

/-! ### The host's accesses -/

/-- 10_state.md rules R22, R23 and R36, 20_memory.md rule R63: a register read returns the register, NOW its
input's present value, an index of 17 and above 0, and changes nothing else. The access is the first turn (log 2),
and what it returns stands in `response` (log 4). -/
def Obligations.HostReadsRegisters : Prop :=
  ∀ (s : State) (rest : List Event), s.busy = false →
    (∀ r : Reg, step { s with events := .host (.regRead r.toIndex) :: rest } =
      .next { s with events := rest, response := some (.word (s.get r)) }) ∧
    s.get .now = s.nowInput ∧
    (∀ i, 17 ≤ i → step { s with events := .host (.regRead i) :: rest } =
      .next { s with events := rest, response := some (.word 0) })

/-- 10_state.md rules R22, R23 and R25: a write to CMD is accepted, to ILEN and TTL_ARG stored, to CRC stored in
bits 15:0, to any other register and to an index of 17 and above ignored. -/
def Obligations.HostWritesRegisters : Prop :=
  ∀ (s : State) (rest : List Event) (v : Word), s.busy = false →
    step { s with events := .host (.regWrite 0 v) :: rest } =
      .next { s with events := rest, response := none, cmd := v, nows := s.nowInput, status := 1 } ∧
    step { s with events := .host (.regWrite 3 v) :: rest } =
      .next { s with events := rest, response := none, ilen := v } ∧
    step { s with events := .host (.regWrite 9 v) :: rest } =
      .next { s with events := rest, response := none, ttlArg := v } ∧
    step { s with events := .host (.regWrite 5 v) :: rest } =
      .next { s with events := rest, response := none, crc := BitVec.ofNat 32 (v.toNat % 2 ^ 16) } ∧
    (∀ i, i ∉ [0, 3, 5, 9] → step { s with events := .host (.regWrite i v) :: rest } =
      .next { s with events := rest, response := none })

/-- 20_memory.md rules R60, R61 and R62, 10_state.md rules R41 and R42: a byte written to IBUF reads back and no
other byte changes; a write to OBUF is ignored; a byte of OBUF the rules specify reads as it is; an index at or
above the size is refused. -/
def Obligations.HostAccessesBuffers : Prop :=
  ∀ (s : State) (rest : List Event) (a : Nat) (v : Byte), s.busy = false →
    (a < s.params.ibufSize →
      ∃ t, step { s with events := .host (.bufWrite .ibuf a v) :: .host (.bufRead .ibuf a) :: rest } =
          .next t ∧ t.ibuf.read a = some v ∧ (∀ b, b ≠ a → t.ibuf.read b = s.ibuf.read b) ∧
        (∀ r, t.get r = s.get r) ∧ t.nows = s.nows ∧ t.obuf = s.obuf ∧ t.params = s.params ∧
        ∃ u, step t = .next u ∧ u = { t with events := rest, response := some (.byte v) }) ∧
    (a < s.params.obufSize →
      step { s with events := .host (.bufWrite .obuf a v) :: rest } =
        .next { s with events := rest, response := none } ∧
      (s.obuf.read a = some v →
        step { s with events := .host (.bufRead .obuf a) :: rest } =
          .next { s with events := rest, response := some (.byte v) })) ∧
    (s.params.ibufSize ≤ a →
      step { s with events := .host (.bufWrite .ibuf a v) :: rest } = .refused .bufferIndexOutside ∧
      step { s with events := .host (.bufRead .ibuf a) :: rest } = .refused .bufferIndexOutside) ∧
    (s.params.obufSize ≤ a →
      step { s with events := .host (.bufWrite .obuf a v) :: rest } = .refused .bufferIndexOutside ∧
      step { s with events := .host (.bufRead .obuf a) :: rest } = .refused .bufferIndexOutside)

/-- 20_memory.md rule R73, 70_reset_and_hazards.md rules R266 and R268: while BUSY = 1 the host can read
STATUS, a CMD write is dropped without a trace, and no other access has a step (logs 2, 4 and 8). -/
def Obligations.BusyWindowAccesses : Prop :=
  ∀ (s : State) (rest : List Event), s.busy = true →
    step { s with events := .host (.regRead 1) :: rest } =
      .next { s with events := rest, response := some (.word s.status) } ∧
    (∀ w, step { s with events := .host (.regWrite 0 w) :: rest } =
      .next { s with events := rest, response := none }) ∧
    (∀ a, a ≠ .regRead 1 → (∀ w, a ≠ .regWrite 0 w) →
      step { s with events := .host a :: rest } = .refused .accessWhileBusy)

/-- 70_reset_and_hazards.md rules R260 and R262: hardware reset at any time, also while BUSY, gives the reset
registers and unspecified buffers; NOW follows its input. It is one turn of the schedule (logs 2 and 11). -/
def Obligations.HardwareResetRestoresState : Prop :=
  ∀ (s : State) (rest : List Event),
    ∃ t, step { s with events := .hardwareReset :: rest } = .next t ∧
      (∀ r, r ≠ .crc → r ≠ .now → t.get r = 0) ∧ t.get .crc = 0x0000FFFF ∧
      t.get .now = s.get .now ∧ t.nows = 0 ∧ t.busy = false ∧ (∀ a, t.ibuf.read a = none) ∧
      (∀ a, t.obuf.read a = none) ∧ t.params = s.params ∧ t.events = rest

/-! ### Round trips -/

/-- 43_frame_decode.md rule R181: DECODE of the text ENCODE or ENCODE_TTL produced gives the input back; with
NT = 0 when the text is not expired at the decoder's time. -/
def Obligations.EncodeDecodeRoundTrip : Prop :=
  ∀ (s : State) bs nc, s.params.wf = true → HasInput s bs →
    (2 + 4 * ((3 + bs.length + 2) / 3) ≤ s.params.obufSize →
      ∃ t text, exec (.encode nc) s = .next t ∧ Emitted text t ∧
        ∀ u nt, u.params = s.params → HasInput u text →
          ∃ v, exec (.decode nt) u = .next v ∧ Succeeded v ∧ Emitted bs v) ∧
    (2 + 4 * ((11 + bs.length + 2) / 3) ≤ s.params.obufSize →
      ∃ t text, exec (.encodeTtl nc) s = .next t ∧ Emitted text t ∧
        ∀ u nt, u.params = s.params → HasInput u text →
          (nt = false → 0 < (s.get .ttlArg).toNat →
            u.nows.toNat ≤ s.nows.toNat + (s.get .ttlArg).toNat) →
          ∃ v, exec (.decode nt) u = .next v ∧ Succeeded v ∧ Emitted bs v)

/-- 43_frame_decode.md rule R182: a text with ttl-seconds 0 never expires; one with ttl-seconds 1 made at time
`t` decodes while NOWS is at most `t + 1`, raises E_EXPIRED from `t + 2` on, and always decodes with NT = 1. -/
def Obligations.TtlTextExpiry : Prop :=
  ∀ (s : State) bs nc, s.params.wf = true → HasInput s bs →
    2 + 4 * ((11 + bs.length + 2) / 3) ≤ s.params.obufSize →
    ∃ t text, exec (.encodeTtl nc) s = .next t ∧ Emitted text t ∧
      ∀ u, u.params = s.params → HasInput u text →
        (s.get .ttlArg = 0 → ∃ v, exec (.decode false) u = .next v ∧ Succeeded v ∧ Emitted bs v) ∧
        (s.get .ttlArg = 1 →
          (u.nows.toNat ≤ s.nows.toNat + 1 →
            ∃ v, exec (.decode false) u = .next v ∧ Succeeded v ∧ Emitted bs v) ∧
          (s.nows.toNat + 2 ≤ u.nows.toNat →
            ∃ v, exec (.decode false) u = .next v ∧ FailedWith .expired v) ∧
          (∃ v, exec (.decode true) u = .next v ∧ Succeeded v ∧ Emitted bs v))
end

