-- ==== Sys2Proof/Laws/Bytes.lean ====
section
/-!
SUPPORT. The small lemmas of the byte-order helpers, the group arithmetic and the flag computations.
-/

namespace Sys2Proof.Machine

/-! ### Byte order -/

/-- Reading a big-endian 16-bit field gives the value written (00_scope.md rule R11). -/
@[simp] theorem fromBe16_be16 (v : Half) :
    fromBe16 (v.extractLsb' 8 8) (v.extractLsb' 0 8) = v := by
  unfold fromBe16
  ext i hi
  simp only [BitVec.getElem_append, BitVec.getElem_extractLsb']
  split <;> (rw [BitVec.getLsbD_eq_getElem (by omega)]; congr 1; omega)

/-- Reading a big-endian 32-bit field gives the value written (00_scope.md rule R11). -/
@[simp] theorem fromBe32_be32 (v : Word) :
    fromBe32 (v.extractLsb' 24 8) (v.extractLsb' 16 8) (v.extractLsb' 8 8) (v.extractLsb' 0 8) = v := by
  unfold fromBe32
  ext i hi
  simp only [BitVec.getElem_append, BitVec.getElem_extractLsb']
  repeat' split
  all_goals (rw [BitVec.getLsbD_eq_getElem (by omega)]; congr 1; omega)

/-- Reading a little-endian 16-bit field gives the value written (00_scope.md rule R11). -/
@[simp] theorem fromLe16_le16 (v : Half) :
    fromLe16 (v.extractLsb' 0 8) (v.extractLsb' 8 8) = v := fromBe16_be16 v

/-- `from_le16([a, b]) = a + b * 256` (00_scope.md rule R11). -/
theorem fromLe16_toNat (a b : Byte) : (fromLe16 a b).toNat = a.toNat + 256 * b.toNat := by
  have ha := a.isLt
  simp only [fromLe16, BitVec.toNat_append]
  rw [← Nat.shiftLeft_add_eq_or_of_lt ha, Nat.shiftLeft_eq]
  omega

@[simp] theorem be16_length (v : Half) : (be16 v).length = 2 := rfl
@[simp] theorem be32_length (v : Word) : (be32 v).length = 4 := rfl
@[simp] theorem le16_length (v : Half) : (le16 v).length = 2 := rfl

/-! ### One group of the sextet transform (40_sextet.md rules R111 and R115) -/

@[simp] theorem groupByte0_sextets (b0 b1 : Byte) : groupByte0 (sextet0 b0) (sextet1 b0 b1) = b0 := by
  unfold groupByte0 sextet0 sextet1
  ext i hi
  simp
  interval_cases i <;> simp

@[simp] theorem groupByte1_sextets (b0 b1 b2 : Byte) :
    groupByte1 (sextet1 b0 b1) (sextet2 b1 b2) = b1 := by
  unfold groupByte1 sextet1 sextet2
  ext i hi
  simp
  interval_cases i <;> simp

@[simp] theorem groupByte2_sextets (b1 b2 : Byte) : groupByte2 (sextet2 b1 b2) (sextet3 b2) = b2 := by
  unfold groupByte2 sextet2 sextet3
  ext i hi
  simp
  interval_cases i <;> simp

/-! ### Register fields -/

@[simp] theorem halfWord_toNat (h : Half) : (halfWord h).toNat = h.toNat := by
  have := h.isLt
  rw [halfWord, BitVec.toNat_setWidth]
  omega

@[simp] theorem byteWord_toNat (b : Byte) : (byteWord b).toNat = b.toNat := by
  have := b.isLt
  rw [byteWord, BitVec.toNat_setWidth]
  omega

theorem resultWord_eq (b : Bool) : resultWord b = if b then 1 else 0 := by cases b <;> rfl

/-! ### Flags (30_encoding.md rule R87) -/

theorem isCompressed_eq (f : Byte) : isCompressed f = f.getLsbD 0 := by revert f; decide
theorem isDeflate_eq (f : Byte) : isDeflate f = f.getLsbD 1 := by revert f; decide
theorem hasTtl_eq (f : Byte) : hasTtl f = f.getLsbD 2 := by revert f; decide
theorem reservedFlagsSet_eq (f : Byte) : reservedFlagsSet f = decide (8 ≤ f.toNat) := by
  revert f; decide

/-- Expiry is the comparison of 43_frame_decode.md rule R175. -/
theorem isExpired_iff (c n w : Word) :
    isExpired c n w = true ↔ 0 < n.toNat ∧ c.toNat + n.toNat < w.toNat := by simp [isExpired]

/-- expires-at is the sum, never wrapped (00_scope.md rule R14). -/
theorem expiresAt_toNat (c n : Word) : (expiresAt c n).toNat = c.toNat + n.toNat := by
  have := c.isLt
  have := n.isLt
  rw [expiresAt, BitVec.toNat_add, BitVec.toNat_setWidth, BitVec.toNat_setWidth]
  omega

/-- EXPIRES_LO is bits 31:0 of the sum, or 0 (10_state.md rule R38). -/
theorem expiresLoWord_toNat (c n : Word) : (expiresLoWord c n).toNat =
    if 0 < n.toNat then (c.toNat + n.toNat) % 2 ^ 32 else 0 := by
  unfold expiresLoWord
  split
  · rw [BitVec.extractLsb'_toNat, expiresAt_toNat]; simp
  · rfl

/-- Bit 32 of expires-at (10_state.md rule R38). -/
theorem expiresAt_bit32 (c n : Word) :
    (expiresAt c n).getLsbD 32 = decide (2 ^ 32 ≤ c.toNat + n.toNat) := by
  have h := expiresAt_toNat c n
  have hc := c.isLt
  have hn := n.isLt
  rw [BitVec.getLsbD, h, Nat.testBit_eq_decide_div_mod_eq, decide_eq_decide]
  omega

/-- Every field of the INFO word (10_state.md rule R37). -/
theorem infoWord_fields (f : Byte) (c n w : Word) :
    (infoWord f c n w).getLsbD 0 = f.getLsbD 0 ∧ (infoWord f c n w).getLsbD 1 = f.getLsbD 1 ∧
    (infoWord f c n w).getLsbD 2 = f.getLsbD 2 ∧
    (infoWord f c n w).getLsbD 3 = expiresValid f n ∧
    (infoWord f c n w).getLsbD 4 = (expiresValid f n && isExpired c n w) ∧
    (infoWord f c n w).getLsbD 5 = (expiresValid f n && (expiresAt c n).getLsbD 32) ∧
    (infoWord f c n w).toNat < 64 := by
  rw [infoWord, isCompressed_eq, isDeflate_eq, hasTtl_eq]
  generalize f.getLsbD 0 = a
  generalize f.getLsbD 1 = b
  generalize f.getLsbD 2 = d
  generalize (expiresValid f n && isExpired c n w) = x
  generalize (expiresValid f n && (expiresAt c n).getLsbD 32) = y
  generalize expiresValid f n = z
  cases a <;> cases b <;> cases d <;> cases x <;> cases y <;> cases z <;> decide

end Sys2Proof.Machine
end

