-- ==== Sys2Proof/Laws/Checksum.lean ====
section
/-!
SUPPORT. The CRC shift is linear over XOR and loses nothing (41_crc.md rules R131 and R134).
-/

namespace Sys2Proof.Machine

/-- The shift as one expression: the polynomial's XOR is masked by the high bit. -/
theorem crcShift_eq (c : Half) :
    crcShift c = (c <<< 1) ^^^ (if c.getLsbD 15 then Config.poly else 0) := by
  unfold crcShift
  cases c.getLsbD 15 <;> simp

@[simp] theorem crcShift_zero : crcShift 0 = 0 := by decide

/-- The shift is linear over XOR. -/
theorem crcShift_xor (a b : Half) : crcShift (a ^^^ b) = crcShift a ^^^ crcShift b := by
  have hs : (a ^^^ b) <<< 1 = (a <<< 1) ^^^ (b <<< 1) := BitVec.shiftLeft_xor_distrib a b 1
  rw [crcShift_eq, crcShift_eq, crcShift_eq, hs, BitVec.getLsbD_xor]
  generalize a <<< 1 = x
  generalize b <<< 1 = y
  generalize Config.poly = p
  apply BitVec.eq_of_getLsbD_eq
  intro i _
  cases a.getLsbD 15 <;> cases b.getLsbD 15 <;> simp <;>
    cases x.getLsbD i <;> cases y.getLsbD i <;> cases p.getLsbD i <;> rfl

@[simp] theorem crcShifts_zero (n : Nat) : crcShifts n 0 = 0 := by
  induction n with
  | zero => rfl
  | succ n ih => rw [crcShifts, crcShift_zero, ih]

/-- Any number of shifts is linear over XOR. -/
theorem crcShifts_xor (n : Nat) (a b : Half) :
    crcShifts n (a ^^^ b) = crcShifts n a ^^^ crcShifts n b := by
  induction n generalizing a b with
  | zero => rfl
  | succ n ih => rw [crcShifts, crcShift_xor, ih, crcShifts, crcShifts]

theorem crcShifts_add (m n : Nat) (c : Half) : crcShifts (m + n) c = crcShifts n (crcShifts m c) := by
  induction m generalizing c with
  | zero => rw [Nat.zero_add]; rfl
  | succ m ih => rw [Nat.succ_add, crcShifts, ih, crcShifts]

/-- A shift loses nothing: only zero shifts to zero. -/
theorem crcShift_eq_zero_iff (c : Half) : crcShift c = 0 ↔ c = 0 := by
  refine ⟨fun h => ?_, fun h => by rw [h, crcShift_zero]⟩
  have bit : ∀ i, (crcShift c).getLsbD i = false := fun i => by rw [h]; simp
  have top : c.getLsbD 15 = false := by
    have := bit 0
    rw [crcShift_eq, BitVec.getLsbD_xor] at this
    cases ht : c.getLsbD 15 with
    | false => rfl
    | true => rw [ht] at this; simp [Config.poly] at this
  apply BitVec.eq_of_getLsbD_eq
  intro i hi
  rw [show (0 : Half).getLsbD i = false from BitVec.getLsbD_zero]
  by_cases h15 : i = 15
  · rw [h15, top]
  · have := bit (i + 1)
    rw [crcShift_eq, top, BitVec.getLsbD_xor, BitVec.getLsbD_shiftLeft] at this
    simpa [show i + 1 < 16 by omega] using this

theorem crcShifts_eq_zero_iff (n : Nat) (c : Half) : crcShifts n c = 0 ↔ c = 0 := by
  induction n generalizing c with
  | zero => rfl
  | succ n ih => rw [crcShifts, ih, crcShift_eq_zero_iff]

end Sys2Proof.Machine
end

