-- ==== Sys2Proof/Laws/Deflate.lean ====
section
/-!
SUPPORT. The decompressor's loop (44_deflate.md rule R204): the bound on its turns does not matter, and the output so far
only stands in front of the answer.
-/

namespace Sys2Proof.Machine

/-- BTYPE and BFINAL as arithmetic on the header byte (30_encoding.md rule R97). -/
theorem blockHeader_iff : ∀ h : Byte,
    (blockType h = 1 ↔ h.toNat / 2 % 4 = 1) ∧ (blockType h = 2 ↔ h.toNat / 2 % 4 = 2) ∧
    (blockType h = 3 ↔ h.toNat / 2 % 4 = 3) ∧ (blockFinal h = true ↔ h.toNat % 2 = 1) := by decide

/-- LEN and NLEN are complements exactly when they add up to 0xFFFF. -/
theorem xor_eq_ones_iff (a b : Half) : a ^^^ b = 0xFFFF ↔ a.toNat + b.toNat = 0xFFFF := by
  have e : ∀ x : Half, (x ^^^ 0xFFFF).toNat = 65535 - x.toNat := by
    intro x
    rw [show (0xFFFF : Half) = BitVec.allOnes 16 by decide, BitVec.xor_allOnes, BitVec.toNat_not]
  have hb : a ^^^ (a ^^^ b) = b := by rw [← BitVec.xor_assoc, BitVec.xor_self, BitVec.zero_xor]
  constructor
  · intro h
    rw [← hb, h, e]
    have := a.isLt
    omega
  · intro h
    have : b = a ^^^ 0xFFFF := BitVec.eq_of_toNat_eq (by rw [e]; omega)
    rw [this, ← BitVec.xor_assoc, BitVec.xor_self, BitVec.zero_xor]

/-- With at least one turn more than the stream has bytes, more turns answer the same. -/
theorem dflUnstoreLoop_fuel (m n : Nat) (z out : List Byte) (hm : z.length < m) (hn : z.length < n) :
    dflUnstoreLoop m z out = dflUnstoreLoop n z out := by
  induction m generalizing n z out with
  | zero => omega
  | succ m ih =>
    cases n with
    | zero => omega
    | succ n =>
      unfold dflUnstoreLoop
      match z with
      | [] | [_] | [_, _] | [_, _, _] | [_, _, _, _] => rfl
      | h :: l0 :: l1 :: n0 :: n1 :: data =>
        simp only [List.length_cons] at hm hn
        simp only
        rw [ih n (data.drop (fromLe16 l0 l1).toNat) _ (by simp; omega) (by simp; omega)]

/-- The output so far stands in front of what the rest of the stream answers. -/
theorem dflUnstoreLoop_out (n : Nat) (z out : List Byte) :
    dflUnstoreLoop n z out = (dflUnstoreLoop n z []).map (out ++ ·) := by
  induction n generalizing z out with
  | zero => rfl
  | succ n ih =>
    unfold dflUnstoreLoop
    match z with
    | [] => rfl
    | [h] | [h, _] | [h, _, _] | [h, _, _, _] => simp only; split <;> (try split) <;> rfl
    | h :: l0 :: l1 :: n0 :: n1 :: data =>
      simp only
      split
      · rfl
      · split
        · rfl
        · split
          · rfl
          · split
            · rfl
            · split
              · rfl
              · rw [ih, ih (out := [] ++ _)]
                cases dflUnstoreLoop n (List.drop (fromLe16 l0 l1).toNat data) [] <;> simp [Except.map]

/-- The loop with enough turns is `dfl_unstore` with the output so far in front. -/
theorem dflUnstoreLoop_eq (n : Nat) (z out : List Byte) (h : z.length < n) :
    dflUnstoreLoop n z out = (dflUnstore z).map (out ++ ·) := by
  rw [dflUnstoreLoop_out, dflUnstore, dflUnstoreLoop_fuel n (z.length + 1) z [] h (by omega)]

end Sys2Proof.Machine
end

