-- ==== Sys2Proof/Laws/Memory.lean ====
section
/-!
SUPPORT. The laws of the buffers: read after write, the canonical form, ranges, and the input of a command.
-/

namespace Sys2Proof.Machine

@[simp] theorem Memory.read_nil (a : Nat) : Memory.read [] a = none := rfl

/-- A read after a write gives the byte written. -/
@[simp] theorem Memory.read_write_same (m : Memory) (a : Nat) (v : Byte) :
    (m.write a v).read a = some v := by
  induction m with
  | nil => simp [Memory.write, Memory.read]
  | cons c m ih =>
    unfold Memory.write
    split
    · simp [Memory.read]
    · split
      · simp [Memory.read]
      · rename_i h1 h2; simp [Memory.read, ih, Ne.symm h2]

/-- A write leaves every other byte alone. -/
@[simp] theorem Memory.read_write_ne (m : Memory) (a b : Nat) (v : Byte) (h : b ≠ a) :
    (m.write a v).read b = m.read b := by
  induction m with
  | nil => simp [Memory.write, Memory.read, Ne.symm h]
  | cons c m ih =>
    unfold Memory.write
    split
    · simp [Memory.read, Ne.symm h]
    · split
      · rename_i h2; subst h2; simp [Memory.read, Ne.symm h]
      · simp [Memory.read, ih]

/-- The head index of a memory after a write. -/
theorem Memory.write_head (m : Memory) (a : Nat) (v : Byte) (n : Nat) (ha : n < a)
    (hm : ∀ c ∈ m.head?, n < c.1) : ∀ c ∈ (m.write a v).head?, n < c.1 := by
  cases m with
  | nil => simp [Memory.write, ha]
  | cons c m =>
    have := hm c (by simp)
    unfold Memory.write
    split
    · simp [ha]
    · split <;> simp [ha, this]

/-- The canonical form of a nonempty memory: its tail is canonical and starts above its head. -/
theorem Memory.wf_cons (c : Host.Cell) (m : Memory) :
    Memory.wf (c :: m) = true ↔ (∀ d ∈ m.head?, c.1 < d.1) ∧ Memory.wf m = true := by
  cases m <;> simp [Memory.wf]

/-- A write keeps the canonical form. -/
theorem Memory.wf_write (m : Memory) (a : Nat) (v : Byte) (h : m.wf = true) :
    (m.write a v).wf = true := by
  induction m with
  | nil => rfl
  | cons c m ih =>
    have ⟨h1, h2⟩ := (Memory.wf_cons c m).1 h
    unfold Memory.write
    split
    · rename_i hlt; exact (Memory.wf_cons _ _).2 ⟨by simpa using hlt, h⟩
    · split
      · rename_i heq; exact (Memory.wf_cons _ _).2 ⟨by simpa [heq] using h1, h2⟩
      · refine (Memory.wf_cons _ _).2 ⟨Memory.write_head m a v c.1 (by omega) h1, ih h2⟩

/-- Every index of a nonempty memory is below `n`. -/
theorem Memory.below_cons (n : Nat) (c : Host.Cell) (m : Memory) :
    Memory.below n (c :: m) = true ↔ c.1 < n ∧ Memory.below n m = true := by
  simp only [Memory.below, List.all_cons, Bool.and_eq_true, decide_eq_true_eq]

/-- A write below the size keeps every index below it. -/
theorem Memory.below_write (n : Nat) (m : Memory) (a : Nat) (v : Byte) (ha : a < n)
    (h : m.below n = true) : (m.write a v).below n = true := by
  induction m with
  | nil => exact (Memory.below_cons n _ _).2 ⟨ha, rfl⟩
  | cons c m ih =>
    have ⟨h1, h2⟩ := (Memory.below_cons n c m).1 h
    unfold Memory.write
    split
    · exact (Memory.below_cons n _ _).2 ⟨ha, h⟩
    · split
      · exact (Memory.below_cons n _ _).2 ⟨ha, h2⟩
      · exact (Memory.below_cons n _ _).2 ⟨h1, ih h2⟩

theorem Memory.wf_writeRange (m : Memory) (a : Nat) (bs : List Byte) (h : m.wf = true) :
    (m.writeRange a bs).wf = true := by
  induction bs generalizing m a with
  | nil => exact h
  | cons b bs ih => exact ih _ _ (Memory.wf_write m a b h)

theorem Memory.below_writeRange (n : Nat) (m : Memory) (a : Nat) (bs : List Byte)
    (ha : a + bs.length ≤ n) (h : m.below n = true) : (m.writeRange a bs).below n = true := by
  induction bs generalizing m a with
  | nil => exact h
  | cons b bs ih =>
    simp only [List.length_cons] at ha
    exact ih _ _ (by omega) (Memory.below_write n m a b (by omega) h)

/-- Everything a range write does, byte by byte. -/
theorem Memory.read_writeRange (m : Memory) (a : Nat) (bs : List Byte) (k : Nat) :
    (m.writeRange a bs).read k =
      if a ≤ k ∧ k < a + bs.length then bs[k - a]? else m.read k := by
  induction bs generalizing m a with
  | nil => simp [Memory.writeRange]
  | cons b bs ih =>
    rw [Memory.writeRange, ih]
    simp only [List.length_cons]
    by_cases hk : k = a
    · subst hk; simp
    · rw [Memory.read_write_ne _ _ _ _ hk]
      by_cases h1 : a + 1 ≤ k ∧ k < a + 1 + bs.length
      · rw [if_pos h1, if_pos (by omega)]
        obtain ⟨j, rfl⟩ : ∃ j, k = a + 1 + j := ⟨k - (a + 1), by omega⟩
        simp [show a + 1 + j - a = j + 1 by omega]
      · rw [if_neg h1, if_neg (by omega)]

/-- What an emitted output reads as: its bytes, and nothing beyond them. -/
@[simp] theorem Memory.read_writeRange_nil (bs : List Byte) (k : Nat) :
    (Memory.writeRange [] 0 bs).read k = bs[k]? := by
  rw [Memory.read_writeRange]
  simp only [Nat.zero_le, true_and, Nat.zero_add, Nat.sub_zero, Memory.read_nil]
  split
  · rfl
  · rename_i h; exact (List.getElem?_eq_none (by omega)).symm

/-- Everything a range read can answer: the bytes, each one read at its index. -/
theorem Memory.readRange_eq_some (m : Memory) (a n : Nat) (bs : List Byte) :
    m.readRange a n = some bs ↔ bs.length = n ∧ ∀ k, k < n → m.read (a + k) = bs[k]? := by
  induction n generalizing a bs with
  | zero => cases bs <;> simp [Memory.readRange]
  | succ n ih =>
    cases bs with
    | nil =>
      simp only [Memory.readRange, List.length_nil]
      constructor
      · intro h; split at h <;> simp at h
      · rintro ⟨h, -⟩; omega
    | cons b bs =>
      simp only [Memory.readRange, List.length_cons, Nat.add_right_cancel_iff]
      constructor
      · intro h
        split at h
        · rename_i x xs hx hxs
          simp only [Option.some.injEq, List.cons.injEq] at h
          obtain ⟨rfl, rfl⟩ := h
          obtain ⟨hl, hr⟩ := (ih _ _).1 hxs
          refine ⟨hl, fun k hk => ?_⟩
          cases k with
          | zero => simpa using hx
          | succ k => simpa [Nat.add_assoc, Nat.add_comm 1 k] using hr k (by omega)
        · simp at h
      · rintro ⟨hl, hr⟩
        have h0 : m.read a = some b := by simpa using hr 0 (by omega)
        have h1 : m.readRange (a + 1) n = some bs :=
          (ih _ _).2 ⟨hl, fun k hk => by
            simpa [Nat.add_assoc, Nat.add_comm 1 k] using hr (k + 1) (by omega)⟩
        rw [h0, h1]

/-- A range read gives nothing exactly when some byte of the range has no specified value. -/
theorem Memory.readRange_eq_none (m : Memory) (a n : Nat) :
    m.readRange a n = none ↔ ∃ k, k < n ∧ m.read (a + k) = none := by
  induction n generalizing a with
  | zero => simp [Memory.readRange]
  | succ n ih =>
    simp only [Memory.readRange]
    cases h0 : m.read a with
    | none => simp only [true_iff]; exact ⟨0, by omega, h0⟩
    | some b =>
      cases h1 : m.readRange (a + 1) n with
      | none =>
        obtain ⟨k, hk, hr⟩ := (ih _).1 h1
        simp only [true_iff]
        exact ⟨k + 1, by omega, by rwa [Nat.add_assoc, Nat.add_comm 1 k] at hr⟩
      | some bs =>
        simp only [reduceCtorEq, false_iff, not_exists, not_and]
        intro k hk hr
        cases k with
        | zero => simp [h0] at hr
        | succ k =>
          have : m.readRange (a + 1) n = none :=
            (ih _).2 ⟨k, by omega, by rwa [Nat.add_assoc, Nat.add_comm 1 k]⟩
          simp [h1] at this

/-- The input operand of a state that holds `inp`. -/
theorem HasInput.inputOf_eq {s : State} {inp : List Byte} (h : HasInput s inp) :
    inputOf s = some inp := by
  rw [inputOf, Memory.readRange_eq_some]
  exact ⟨h.length.symm, fun k hk => by simpa using h.bytes k (by rw [← h.length]; exact hk)⟩

theorem HasInput.not_tooLong {s : State} {inp : List Byte} (h : HasInput s inp) :
    inputTooLong s = false := by
  have h1 := h.length
  have h2 := h.fits
  simp only [inputTooLong, decide_eq_false_iff_not]
  omega

/-- A command on a state that holds its input completes: phases 1, 3, 4 and 5 of 45_system.md rule R220. -/
theorem runOnInput_of_hasInput {s : State} {inp : List Byte} (h : HasInput s inp)
    (body : List Byte → State → Proc Unit) :
    runOnInput s body = .next (complete (body inp (commonStart s))) := by
  simp [runOnInput, h.not_tooLong, h.inputOf_eq]

/-- Everything a command that reads IBUF can answer with a next state. -/
theorem runOnInput_next {s t : State} {body : List Byte → State → Proc Unit}
    (h : runOnInput s body = .next t) :
    (inputTooLong s = true ∧ t = takeError .capacity (commonStart s)) ∨
    (inputTooLong s = false ∧ ∃ inp, inputOf s = some inp ∧ t = complete (body inp (commonStart s))) := by
  unfold runOnInput at h
  split at h
  · rename_i hl; left; exact ⟨hl, by simpa using h.symm⟩
  · rename_i hl
    right
    split at h
    · simp at h
    · rename_i inp hi; exact ⟨by simpa using hl, inp, hi, by simpa using h.symm⟩

/-- A command that reads IBUF faults only on an input byte never written, and is never refused. -/
theorem runOnInput_fault {s : State} {body : List Byte → State → Proc Unit} {f : Fault}
    (h : runOnInput s body = .fault f) :
    f = .unwrittenInput ∧ inputTooLong s = false ∧ inputOf s = none := by
  unfold runOnInput at h
  split at h
  · simp at h
  · rename_i hl
    split at h
    · rename_i hi; exact ⟨by cases f; rfl, by simpa using hl, hi⟩
    · simp at h

/-- Everything `emit` can do (00_scope.md rule R12). -/
theorem emit_cases (v : List Byte) (s : State) :
    (s.params.obufSize < v.length ∧ emit v s = .raised .capacity s) ∨
    (v.length ≤ s.params.obufSize ∧
      emit v s = .ok () ({ s with obuf := Memory.writeRange [] 0 v }.set .olen (lengthWord v.length))) := by
  unfold emit
  split
  · rename_i h; exact .inl ⟨h, rfl⟩
  · rename_i h; exact .inr ⟨by omega, rfl⟩

/-- The length of an output as a register value (00_scope.md rule R14). -/
theorem lengthWord_toNat (n : Nat) (h : n < 2 ^ 32) : (lengthWord n).toNat = n := by
  rw [lengthWord, if_pos h, BitVec.toNat_ofNat, Nat.mod_eq_of_lt h]

end Sys2Proof.Machine
end

