-- ==== Sys2Proof/Laws/State.lean ====
section
/-!
SUPPORT. The small lemmas of the state and its registers: reading a register after a write, and what a register
write leaves alone.
-/

namespace Sys2Proof.Machine

@[simp] theorem State.get_set_same (s : State) (r : Reg) (v : Word) (h : r ≠ .now) :
    (s.set r v).get r = v := by cases r <;> first | rfl | exact absurd rfl h

@[simp] theorem State.get_set_ne (s : State) (r q : Reg) (v : Word) (h : q ≠ r) :
    (s.set r v).get q = s.get q := by
  cases r <;> cases q <;> first | rfl | exact absurd rfl h

@[simp] theorem State.set_now (s : State) (v : Word) : s.set .now v = s := rfl

@[simp] theorem State.set_params (s : State) (r : Reg) (v : Word) : (s.set r v).params = s.params := by
  cases r <;> rfl
@[simp] theorem State.set_nows (s : State) (r : Reg) (v : Word) : (s.set r v).nows = s.nows := by
  cases r <;> rfl
@[simp] theorem State.set_nowInput (s : State) (r : Reg) (v : Word) :
    (s.set r v).nowInput = s.nowInput := by cases r <;> rfl
@[simp] theorem State.set_ibuf (s : State) (r : Reg) (v : Word) : (s.set r v).ibuf = s.ibuf := by
  cases r <;> rfl
@[simp] theorem State.set_obuf (s : State) (r : Reg) (v : Word) : (s.set r v).obuf = s.obuf := by
  cases r <;> rfl
@[simp] theorem State.set_ibufEpoch (s : State) (r : Reg) (v : Word) :
    (s.set r v).ibufEpoch = s.ibufEpoch := by cases r <;> rfl
@[simp] theorem State.set_obufEpoch (s : State) (r : Reg) (v : Word) :
    (s.set r v).obufEpoch = s.obufEpoch := by cases r <;> rfl
@[simp] theorem State.set_response (s : State) (r : Reg) (v : Word) :
    (s.set r v).response = s.response := by cases r <;> rfl
@[simp] theorem State.set_events (s : State) (r : Reg) (v : Word) : (s.set r v).events = s.events := by
  cases r <;> rfl

/-! Updates that are no register write leave every register alone. -/

@[simp] theorem State.get_obuf_update (s : State) (m : Memory) (r : Reg) :
    ({ s with obuf := m } : State).get r = s.get r := by cases r <;> rfl
@[simp] theorem State.get_ibuf_update (s : State) (m : Memory) (r : Reg) :
    ({ s with ibuf := m } : State).get r = s.get r := by cases r <;> rfl
@[simp] theorem State.get_events_update (s : State) (es : List Event) (r : Reg) :
    ({ s with events := es } : State).get r = s.get r := by cases r <;> rfl
@[simp] theorem State.get_response_update (s : State) (x : Option Response) (r : Reg) :
    ({ s with response := x } : State).get r = s.get r := by cases r <;> rfl
@[simp] theorem State.get_nows_update (s : State) (v : Word) (r : Reg) :
    ({ s with nows := v } : State).get r = s.get r := by cases r <;> rfl

/-- Setting a register and the sampled time commute. -/
theorem State.set_nows_update (s : State) (v w : Word) (r : Reg) :
    ({ s with nows := v } : State).set r w = { s.set r w with nows := v } := by cases r <;> rfl

/-! The common start (45_system.md rule R220 phase 1). -/

/-- A result register is zero after the common start (10_state.md rule R24). -/
theorem commonStart_result (s : State) (r : Reg) (h : r ∈ resultRegs) : (commonStart s).get r = 0 := by
  cases r <;> first | rfl | simp [resultRegs] at h

/-- Any other register is as it was (10_state.md rule R24). -/
theorem commonStart_other (s : State) (r : Reg) (h : r ∉ resultRegs) :
    (commonStart s).get r = s.get r := by
  cases r <;> first | rfl | simp [resultRegs] at h

@[simp] theorem commonStart_errcode (s : State) : (commonStart s).get .errcode = 0 := rfl
@[simp] theorem commonStart_olen (s : State) : (commonStart s).get .olen = 0 := rfl
@[simp] theorem commonStart_crcStored (s : State) : (commonStart s).get .crcStored = 0 := rfl
@[simp] theorem commonStart_crcComputed (s : State) : (commonStart s).get .crcComputed = 0 := rfl
@[simp] theorem commonStart_flags (s : State) : (commonStart s).get .flags = 0 := rfl
@[simp] theorem commonStart_ttlCreated (s : State) : (commonStart s).get .ttlCreated = 0 := rfl
@[simp] theorem commonStart_ttlSeconds (s : State) : (commonStart s).get .ttlSeconds = 0 := rfl
@[simp] theorem commonStart_expiresLo (s : State) : (commonStart s).get .expiresLo = 0 := rfl
@[simp] theorem commonStart_info (s : State) : (commonStart s).get .info = 0 := rfl
@[simp] theorem commonStart_origSize (s : State) : (commonStart s).get .origSize = 0 := rfl
@[simp] theorem commonStart_resultReg (s : State) : (commonStart s).get .result = 0 := rfl
@[simp] theorem commonStart_cmd (s : State) : (commonStart s).get .cmd = s.get .cmd := rfl
@[simp] theorem commonStart_status (s : State) : (commonStart s).get .status = s.get .status := rfl
@[simp] theorem commonStart_ilen (s : State) : (commonStart s).get .ilen = s.get .ilen := rfl
@[simp] theorem commonStart_crc (s : State) : (commonStart s).get .crc = s.get .crc := rfl
@[simp] theorem commonStart_ttlArg (s : State) : (commonStart s).get .ttlArg = s.get .ttlArg := rfl
@[simp] theorem commonStart_now (s : State) : (commonStart s).get .now = s.get .now := rfl
@[simp] theorem commonStart_params (s : State) : (commonStart s).params = s.params := rfl
@[simp] theorem commonStart_nows (s : State) : (commonStart s).nows = s.nows := rfl
@[simp] theorem commonStart_nowInput (s : State) : (commonStart s).nowInput = s.nowInput := rfl
@[simp] theorem commonStart_ibuf (s : State) : (commonStart s).ibuf = s.ibuf := rfl
@[simp] theorem commonStart_obuf (s : State) : (commonStart s).obuf = [] := rfl
@[simp] theorem commonStart_ibufEpoch (s : State) : (commonStart s).ibufEpoch = s.ibufEpoch := rfl
@[simp] theorem commonStart_obufEpoch (s : State) : (commonStart s).obufEpoch = s.obufEpoch + 1 := rfl
@[simp] theorem commonStart_response (s : State) : (commonStart s).response = s.response := rfl
@[simp] theorem commonStart_events (s : State) : (commonStart s).events = s.events := rfl

/-! Taking an error and finishing (45_system.md rule R220 phase 5). -/

@[simp] theorem takeError_status (e : ErrKind) (s : State) : (takeError e s).get .status = 6 := by
  rw [takeError, State.get_set_same _ _ _ (by decide)]; rfl
@[simp] theorem takeError_errcode (e : ErrKind) (s : State) :
    (takeError e s).get .errcode = e.code := rfl
@[simp] theorem takeError_olen (e : ErrKind) (s : State) : (takeError e s).get .olen = 0 := rfl
@[simp] theorem takeError_obuf (e : ErrKind) (s : State) : (takeError e s).obuf = [] := rfl
@[simp] theorem takeError_params (e : ErrKind) (s : State) : (takeError e s).params = s.params := rfl
@[simp] theorem takeError_ibuf (e : ErrKind) (s : State) : (takeError e s).ibuf = s.ibuf := rfl
@[simp] theorem takeError_nows (e : ErrKind) (s : State) : (takeError e s).nows = s.nows := rfl
@[simp] theorem takeError_nowInput (e : ErrKind) (s : State) :
    (takeError e s).nowInput = s.nowInput := rfl
@[simp] theorem takeError_ibufEpoch (e : ErrKind) (s : State) :
    (takeError e s).ibufEpoch = s.ibufEpoch := rfl
@[simp] theorem takeError_obufEpoch (e : ErrKind) (s : State) :
    (takeError e s).obufEpoch = s.obufEpoch := rfl
@[simp] theorem takeError_response (e : ErrKind) (s : State) :
    (takeError e s).response = s.response := rfl
@[simp] theorem takeError_events (e : ErrKind) (s : State) : (takeError e s).events = s.events := rfl

/-- Taking an error leaves every register but STATUS, ERRCODE and OLEN as the raise found it
(60_exceptions.md rule R236). -/
@[simp] theorem takeError_other (e : ErrKind) (s : State) (r : Reg) (h1 : r ≠ .status)
    (h2 : r ≠ .errcode) (h3 : r ≠ .olen) : (takeError e s).get r = s.get r := by
  simp [takeError, h1, h2, h3]

@[simp] theorem finish_status (s : State) : (finish s).get .status = 2 := by
  rw [finish, State.get_set_same _ _ _ (by decide)]; rfl
@[simp] theorem finish_other (s : State) (r : Reg) (h : r ≠ .status) :
    (finish s).get r = s.get r := by simp [finish, h]
@[simp] theorem finish_params (s : State) : (finish s).params = s.params := rfl
@[simp] theorem finish_ibuf (s : State) : (finish s).ibuf = s.ibuf := rfl
@[simp] theorem finish_obuf (s : State) : (finish s).obuf = s.obuf := rfl
@[simp] theorem finish_nows (s : State) : (finish s).nows = s.nows := rfl
@[simp] theorem finish_nowInput (s : State) : (finish s).nowInput = s.nowInput := rfl
@[simp] theorem finish_ibufEpoch (s : State) : (finish s).ibufEpoch = s.ibufEpoch := rfl
@[simp] theorem finish_obufEpoch (s : State) : (finish s).obufEpoch = s.obufEpoch := rfl
@[simp] theorem finish_response (s : State) : (finish s).response = s.response := rfl
@[simp] theorem finish_events (s : State) : (finish s).events = s.events := rfl

@[simp] theorem complete_ok (u : Unit) (s : State) : complete (.ok u s) = finish s := rfl
@[simp] theorem complete_raised (e : ErrKind) (s : State) :
    complete (.raised e s) = takeError e s := rfl

@[simp] theorem Proc.bind_ok {α β : Type} (a : α) (s : State) (f : α → State → Proc β) :
    (Proc.ok a s).bind f = f a s := rfl
@[simp] theorem Proc.bind_raised {α β : Type} (e : ErrKind) (s : State) (f : α → State → Proc β) :
    (Proc.raised e s : Proc α).bind f = .raised e s := rfl
@[simp] theorem orRaise_ok {α : Type} (a : α) (s : State) : orRaise (.ok a) s = .ok a s := rfl
@[simp] theorem orRaise_error {α : Type} (e : ErrKind) (s : State) :
    orRaise (.error e : Except ErrKind α) s = .raised e s := rfl

end Sys2Proof.Machine
end

