-- ==== Sys2Proof/Laws/Procs.lean ====
section
/-!
SUPPORT. What the shared procedures of the commands can do: their frames, and `parse_header` and `recover` on the
envelope of a frame.
-/

namespace Sys2Proof.Machine

open Sys2Proof.Config (Params)

/-! ### Frames -/

theorem CommandFrame.refl (s : State) : CommandFrame s s :=
  ⟨rfl, rfl, rfl, rfl, rfl, fun _ => rfl, rfl, rfl, rfl, rfl⟩

theorem CommandFrame.trans {s t u : State} (h : CommandFrame s t) (g : CommandFrame t u) :
    CommandFrame s u :=
  ⟨g.cmd.trans h.cmd, g.ilen.trans h.ilen, g.ttlArg.trans h.ttlArg, g.now.trans h.now,
    g.nows.trans h.nows, fun a => (g.ibuf a).trans (h.ibuf a), g.ibufEpoch.trans h.ibufEpoch,
    g.params.trans h.params, g.response.trans h.response, g.events.trans h.events⟩

/-- A write to a register that is no operand of the host keeps the frame. -/
theorem CommandFrame.set {s t : State} (h : CommandFrame s t) (r : Reg) (v : Word)
    (hr : r ≠ .cmd ∧ r ≠ .ilen ∧ r ≠ .ttlArg) : CommandFrame s (t.set r v) := by
  refine h.trans ⟨?_, ?_, ?_, ?_, ?_, fun a => ?_, ?_, ?_, ?_, ?_⟩
  · exact State.get_set_ne _ _ _ _ hr.1.symm
  · exact State.get_set_ne _ _ _ _ hr.2.1.symm
  · exact State.get_set_ne _ _ _ _ hr.2.2.symm
  · by_cases h : r = .now
    · subst h; rfl
    · exact State.get_set_ne _ _ _ _ (Ne.symm h)
  all_goals simp

theorem CommandFrame.obuf {s t : State} (h : CommandFrame s t) (m : Memory) :
    CommandFrame s { t with obuf := m } :=
  h.trans ⟨rfl, rfl, rfl, rfl, rfl, fun _ => rfl, rfl, rfl, rfl, rfl⟩

theorem commonStart_frame (s : State) : CommandFrame s (commonStart s) :=
  ⟨rfl, rfl, rfl, rfl, rfl, fun _ => rfl, rfl, rfl, rfl, rfl⟩

theorem takeError_frame (e : ErrKind) (s : State) : CommandFrame s (takeError e s) :=
  ⟨rfl, rfl, rfl, rfl, rfl, fun _ => rfl, rfl, rfl, rfl, rfl⟩

theorem finish_frame (s : State) : CommandFrame s (finish s) :=
  ⟨rfl, rfl, rfl, rfl, rfl, fun _ => rfl, rfl, rfl, rfl, rfl⟩

/-- The end of a command keeps the frame of its pseudocode. -/
theorem complete_frame {s : State} (p : Proc Unit) (h : CommandFrame s p.final) :
    CommandFrame s (complete p) := by
  cases p with
  | ok _ t => exact h.trans (finish_frame t)
  | raised e t => exact h.trans (takeError_frame e t)

/-- Pseudocode in sequence keeps the frame when both parts do. -/
theorem bind_frame {α β : Type} {s : State} (p : Proc α) (f : α → State → Proc β)
    (h : CommandFrame s p.final) (g : ∀ a t, CommandFrame t (f a t).final) :
    CommandFrame s (p.bind f).final := by
  cases p with
  | ok a t => exact h.trans (g a t)
  | raised e t => exact h

theorem orRaise_frame {α : Type} (r : Except ErrKind α) (s : State) :
    CommandFrame s (orRaise r s).final := by
  cases r <;> exact CommandFrame.refl s

theorem emit_frame (v : List Byte) (s : State) : CommandFrame s (emit v s).final := by
  unfold emit
  split
  · exact CommandFrame.refl s
  · exact ((CommandFrame.refl s).obuf _).set .olen _ (by decide)

theorem writeInfo_frame (f : Byte) (c n : Word) (s : State) : CommandFrame s (writeInfo f c n s) :=
  (CommandFrame.refl s).set .info _ (by decide)

theorem writeTtlRegs_frame (c n : Word) (s : State) : CommandFrame s (writeTtlRegs c n s) :=
  (((CommandFrame.refl s).set .ttlCreated c (by decide)).set .ttlSeconds n (by decide)).set
    .expiresLo (expiresLoWord c n) (by decide)

theorem writeEncodeRegs_frame (o : List Byte) (f : Byte) (s : State) :
    CommandFrame s (writeEncodeRegs o f s) := by
  have h := ((((CommandFrame.refl s).set .crc (halfWord (crc16 o)) (by decide)).set .crcComputed
    (halfWord (crc16 o)) (by decide)).set .crcStored (halfWord (crc16 o)) (by decide)).set .flags
    (byteWord f) (by decide)
  simp only [writeEncodeRegs]
  split
  · exact h.set .origSize _ (by decide)
  · exact h

theorem parseTtl_frame (f : Byte) (k : Half) (rest : List Byte) (chk : Bool) (s : State) :
    CommandFrame s (parseTtl f k rest chk s).final := by
  unfold parseTtl
  split
  · split
    · simp only
      split
      · exact (writeTtlRegs_frame _ _ s).trans (writeInfo_frame _ _ _ _)
      · exact (writeTtlRegs_frame _ _ s).trans (writeInfo_frame _ _ _ _)
    · exact CommandFrame.refl s
  · exact writeInfo_frame _ _ _ _

theorem parseEnvelope_frame (e : List Byte) (chk : Bool) (s : State) :
    CommandFrame s (parseEnvelope e chk s).final := by
  unfold parseEnvelope
  split
  · simp only
    split
    · exact (CommandFrame.refl s).set .flags _ (by decide)
    · exact (((CommandFrame.refl s).set .flags _ (by decide)).set .crcStored _ (by decide)).trans
        (parseTtl_frame _ _ _ _ _)
  · exact CommandFrame.refl s

theorem parseHeader_frame (t : List Byte) (chk : Bool) (s : State) :
    CommandFrame s (parseHeader t chk s).final :=
  bind_frame _ _ (orRaise_frame _ s) fun e u => parseEnvelope_frame e chk u

theorem recoverBytes_frame (h : Header) (s : State) : CommandFrame s (recoverBytes h s).final := by
  unfold recoverBytes
  split
  · split
    · exact ((CommandFrame.refl s).set .origSize _ (by decide)).trans (orRaise_frame _ _)
    · exact CommandFrame.refl s
  · exact CommandFrame.refl s

theorem recover_frame (h : Header) (s : State) : CommandFrame s (recover h s).final :=
  bind_frame _ _ (recoverBytes_frame h s) fun o t =>
    ((CommandFrame.refl t).set .crc (halfWord (crc16 o)) (by decide)).set .crcComputed
      (halfWord (crc16 o)) (by decide)

/-! ### `parse_header` on the envelope of a frame (43_frame_decode.md rule R172) -/

/-- The state after steps S4 to S6 on a frame. -/
def headerState (f : Frame) (s : State) : State :=
  let s := (s.set .flags (byteWord f.flags)).set .crcStored (halfWord f.stored)
  writeInfo f.flags f.created f.seconds
    (if hasTtl f.flags then writeTtlRegs f.created f.seconds s else s)

/-- Steps S4 to S7 on the envelope of a legal frame: the header registers are written, then the expiry test
may raise. -/
theorem parseEnvelope_of_frame (f : Frame) (hf : f.Legal) (chk : Bool) (s : State) :
    parseEnvelope f.envelope chk s =
      if chk && isExpired f.created f.seconds s.nows then .raised .expired (headerState f s)
      else .ok ⟨f.flags, f.stored, f.payload⟩ (headerState f s) := by
  have hr : reservedFlagsSet f.flags = false := by
    rw [reservedFlagsSet_eq]; simpa using hf.flags
  have hi := hasTtl_eq f.flags
  cases ht : f.flags.getLsbD 2 with
  | true =>
    rw [ht] at hi
    simp only [Frame.envelope, ht]
    simp [parseEnvelope, parseTtl, headerState, be16, be32, hr, hi, writeInfo, writeTtlRegs]
  | false =>
    rw [ht] at hi
    obtain ⟨hc, hn⟩ := hf.noTtl ht
    simp only [Frame.envelope, ht]
    simp [parseEnvelope, parseTtl, headerState, be16, hr, hi, hc, hn, isExpired, writeInfo]

/-- An envelope of a frame has its 3-byte header. -/
theorem Frame.three_le_envelope (f : Frame) : 3 ≤ f.envelope.length := by
  simp [Frame.envelope]

/-- The marker test is the first two bytes (43_frame_decode.md rule R171). -/
theorem hasMark_iff (t : List Byte) : hasMark t = true ↔ ∃ u, t = 0x64 :: 0x78 :: u := by
  rw [hasMark, Config.markBytes]
  match t with
  | [] => simp
  | [a] => simp
  | a :: b :: u => simp

/-- Steps S1 to S3 pass exactly on the texts that carry an envelope of at least 3 bytes. -/
theorem openText_ok {p : Params} {t e : List Byte} (h : Carries p t e) (he : 3 ≤ e.length) :
    openText p t = .ok e := by
  obtain ⟨u, rfl, hu⟩ := h
  have hm : hasMark (0x64 :: 0x78 :: u) = true := (hasMark_iff _).2 ⟨u, rfl⟩
  rw [openText, if_pos hm, List.drop_succ_cons, List.drop_succ_cons, List.drop_zero, hu]
  simp [show ¬ e.length < 3 by omega]

theorem openText_missing {p : Params} {t : List Byte} (h : ¬ ∃ u, t = 0x64 :: 0x78 :: u) :
    openText p t = .error .missingMark := by
  have hm : hasMark t = false := by
    cases hh : hasMark t with
    | false => rfl
    | true => exact absurd ((hasMark_iff t).1 hh) h
  simp [openText, hm]

/-- `parse_header` on a text that carries the envelope of a legal frame. -/
theorem parseHeader_of_frame {s : State} {t : List Byte} {f : Frame}
    (h : Carries s.params t f.envelope) (hf : f.Legal) (chk : Bool) :
    parseHeader t chk s =
      if chk && isExpired f.created f.seconds s.nows then .raised .expired (headerState f s)
      else .ok ⟨f.flags, f.stored, f.payload⟩ (headerState f s) := by
  rw [parseHeader, openText_ok h f.three_le_envelope, orRaise_ok, Proc.bind_ok,
    parseEnvelope_of_frame f hf]

/-- Writes outside the header registers leave what is shown. -/
theorem HeaderShown.of_get {f : Frame} {w : Word} {s t : State} (h : HeaderShown f w s)
    (hg : ∀ r ∈ [Reg.flags, .crcStored, .ttlCreated, .ttlSeconds, .expiresLo, .info],
      t.get r = s.get r) : HeaderShown f w t := by
  have h1 := hg .flags (by decide)
  have h2 := hg .crcStored (by decide)
  have h3 := hg .ttlCreated (by decide)
  have h4 := hg .ttlSeconds (by decide)
  have h5 := hg .expiresLo (by decide)
  have h6 := hg .info (by decide)
  exact ⟨h1 ▸ h.flags, h2 ▸ h.stored, h3 ▸ h.created, h4 ▸ h.seconds, h5 ▸ h.expiresLo,
    h6 ▸ h.infoCompressed, h6 ▸ h.infoDeflate, h6 ▸ h.infoTtl, h6 ▸ h.infoValid, h6 ▸ h.infoExpired,
    h6 ▸ h.infoHigh, h6 ▸ h.infoRest⟩

/-- The header registers show the frame, when the TTL registers were zero before. -/
theorem headerState_shown (f : Frame) (hf : f.Legal) (s : State) (h1 : s.get .ttlCreated = 0)
    (h2 : s.get .ttlSeconds = 0) (h3 : s.get .expiresLo = 0) :
    HeaderShown f s.nows (headerState f s) := by
  obtain ⟨i0, i1, i2, i3, i4, i5, i6⟩ := infoWord_fields f.flags f.created f.seconds s.nows
  have hi : (headerState f s).get .info = infoWord f.flags f.created f.seconds s.nows := by
    simp only [headerState, writeInfo, writeTtlRegs]
    rw [State.get_set_same _ _ _ (by decide)]
    split <;> simp
  have hv : expiresValid f.flags f.seconds = decide (0 < f.seconds.toNat) := by
    rw [expiresValid, hasTtl_eq]
    cases ht : f.flags.getLsbD 2 with
    | true => simp
    | false => simp [(hf.noTtl ht).2]
  have ht : (headerState f s).get .ttlCreated = f.created ∧
      (headerState f s).get .ttlSeconds = f.seconds ∧
      (headerState f s).get .expiresLo = expiresLoWord f.created f.seconds := by
    simp only [headerState, writeInfo, writeTtlRegs]
    cases hh : hasTtl f.flags with
    | true => simp
    | false =>
      rw [hasTtl_eq] at hh
      obtain ⟨hc, hn⟩ := hf.noTtl hh
      simp [h1, h2, h3, hc, hn, expiresLoWord]
  obtain ⟨t1, t2, t3⟩ := ht
  constructor
  · simp only [headerState, writeInfo, writeTtlRegs]; split <;> simp
  · simp only [headerState, writeInfo, writeTtlRegs]; split <;> simp
  · exact t1
  · exact t2
  · rw [t3, expiresLoWord_toNat]
  · rw [hi, i0]
  · rw [hi, i1]
  · rw [hi, i2]
  · rw [hi, i3, hv]
  · rw [hi, i4, hv]
    simp only [isExpired, Frame.Expired]
    by_cases h : 0 < f.seconds.toNat <;> simp [h]
  · rw [hi, i5, hv, expiresAt_bit32]
    by_cases h : 0 < f.seconds.toNat <;> simp [h]
  · rw [hi]; exact i6

/-- The header registers are all that steps S4 to S6 write. -/
theorem headerState_other (f : Frame) (s : State) (r : Reg)
    (h : r ∉ [Reg.flags, .crcStored, .ttlCreated, .ttlSeconds, .expiresLo, .info]) :
    (headerState f s).get r = s.get r := by
  simp only [List.mem_cons, List.not_mem_nil, or_false, not_or] at h
  simp only [headerState, writeInfo, writeTtlRegs]
  split <;> simp [h]

/-! ### `recover` (43_frame_decode.md rule R174) -/

/-- The state after step S8 on a frame: ORIG_SIZE, if the compressed flag is set. -/
def recoverState (f : Frame) (orig : Half) (s : State) : State :=
  if f.flags.getLsbD 0 then s.set .origSize (halfWord orig) else s

/-- `recover` on a frame that holds original bytes. -/
theorem recover_of_holds {f : Frame} {orig : Half} {o : List Byte} (h : f.Holds orig o) (s : State) :
    recover ⟨f.flags, f.stored, f.payload⟩ s =
      .ok o (((recoverState f orig s).set .crc (halfWord (crc16 o))).set .crcComputed
        (halfWord (crc16 o))) := by
  unfold Frame.Holds at h
  split at h
  · rename_i hc
    obtain ⟨z, hz, ho⟩ := h
    simp only [recover, recoverBytes, recoverState, isCompressed_eq, hc, hz, be16]
    simp [ho]
  · rename_i hc
    obtain ⟨hp, -⟩ := h
    simp only [recover, recoverBytes, recoverState, isCompressed_eq, hc, hp]
    simp

end Sys2Proof.Machine
end

