-- ==== Sys2Proof/Laws/Machine.lean ====
section
/-!
SUPPORT. What the machine can do, said once: which errors and which registers a procedure can raise and write, every
next state of a command, every host access and every step. Later proofs cite these and unfold no meaning.
-/

namespace Sys2Proof.Machine

open Sys2Proof.Config (Params)

/-! ### Errors and register writes of a procedure -/

/-- Every error the procedure raises is one of `es`. -/
def Proc.Raises {α : Type} (es : List ErrKind) : Proc α → Prop
  | .ok _ _ => True
  | .raised e _ => e ∈ es

/-- The procedure writes no register outside `rs`. -/
def Proc.Writes {α : Type} (rs : List Reg) (s : State) (p : Proc α) : Prop :=
  ∀ r, r ∉ rs → p.final.get r = s.get r

theorem Proc.Raises.mono {α : Type} {es fs : List ErrKind} {p : Proc α} (h : p.Raises es)
    (hs : ∀ e ∈ es, e ∈ fs) : p.Raises fs := by
  cases p with
  | ok => exact True.intro
  | raised e s => exact hs e h

theorem Proc.Writes.mono {α : Type} {rs qs : List Reg} {s : State} {p : Proc α} (h : p.Writes rs s)
    (hs : ∀ r ∈ rs, r ∈ qs) : p.Writes qs s := fun r hr => h r fun hm => hr (hs r hm)

theorem Proc.Raises.bind {α β : Type} {es : List ErrKind} {p : Proc α} {f : α → State → Proc β}
    (h : p.Raises es) (hf : ∀ a t, p = .ok a t → (f a t).Raises es) : (p.bind f).Raises es := by
  cases p with
  | ok a t => exact hf a t rfl
  | raised e t => exact h

theorem Proc.Writes.bind {α β : Type} {rs : List Reg} {s : State} {p : Proc α} {f : α → State → Proc β}
    (h : p.Writes rs s) (hf : ∀ a t, p = .ok a t → (f a t).Writes rs t) : (p.bind f).Writes rs s := by
  cases p with
  | ok a t => exact fun r hr => (hf a t rfl r hr).trans (h r hr)
  | raised e t => exact h

theorem Proc.writes_ok {α : Type} (rs : List Reg) (a : α) (s : State) : (Proc.ok a s).Writes rs s :=
  fun _ _ => rfl

theorem Proc.writes_raised {α : Type} (rs : List Reg) (e : ErrKind) (s : State) :
    (Proc.raised e s : Proc α).Writes rs s := fun _ _ => rfl

/-- `v <- f(..) else raise` writes nothing. -/
theorem orRaise_writes {α : Type} (rs : List Reg) (r : Except ErrKind α) (s : State) :
    (orRaise r s).Writes rs s := by cases r <;> exact fun _ _ => rfl

/-- `v <- f(..) else raise` raises the error of `f`. -/
theorem orRaise_raises {α : Type} (es : List ErrKind) (r : Except ErrKind α) (s : State)
    (h : ∀ e, r = .error e → e ∈ es) : (orRaise r s).Raises es := by
  cases r with
  | ok => exact True.intro
  | error e => exact h e rfl

/-- `emit` writes OLEN only. -/
theorem emit_writes (v : List Byte) (s : State) : (emit v s).Writes [.olen] s := by
  rcases emit_cases v s with ⟨-, h⟩ | ⟨-, h⟩ <;> rw [h]
  · exact fun _ _ => rfl
  · intro r hr
    rw [Proc.final, State.get_set_ne _ _ _ _ (by simpa using hr)]
    exact State.get_obuf_update ..

/-- `emit` raises E_CAPACITY only. -/
theorem emit_raises (v : List Byte) (s : State) : (emit v s).Raises [.capacity] := by
  rcases emit_cases v s with ⟨-, h⟩ | ⟨-, h⟩ <;> rw [h]
  · exact List.mem_singleton.2 rfl
  · exact True.intro

/-! ### The units' errors -/

theorem sxtDec_error {p : Params} {t : List Byte} {e : ErrKind} (h : sxtDec p t = .error e) :
    e = .format := by
  unfold sxtDec at h; split at h <;> cases h; rfl

theorem dflStore_error {bs : List Byte} {e : ErrKind} (h : dflStore bs = .error e) :
    e = .compression := by
  unfold dflStore at h; split at h <;> cases h; rfl

theorem dflUnstoreLoop_error (fuel : Nat) (z out : List Byte) (e : ErrKind)
    (h : dflUnstoreLoop fuel z out = .error e) : e = .compression ∨ e = .unsupported := by
  induction fuel generalizing z out with
  | zero => cases h; exact .inl rfl
  | succ n ih =>
    unfold dflUnstoreLoop at h
    split at h
    · contradiction
    · cases h; exact .inl rfl
    · rename_i heq
      cases heq
      split at h
      · cases h; exact .inr rfl
      · split at h
        · cases h; exact .inl rfl
        · split at h
          · split at h
            · cases h; exact .inl rfl
            · split at h
              · cases h; exact .inl rfl
              · split at h
                · cases h
                · exact ih _ _ h
          · cases h; exact .inl rfl

theorem dflUnstore_error {z : List Byte} {e : ErrKind} (h : dflUnstore z = .error e) :
    e = .compression ∨ e = .unsupported := dflUnstoreLoop_error _ _ _ _ h

theorem openText_error {p : Params} {t : List Byte} {e : ErrKind} (h : openText p t = .error e) :
    e = .missingMark ∨ e = .format := by
  unfold openText at h
  split at h
  · split at h
    · split at h <;> cases h; exact .inr rfl
    · rename_i he; cases h; exact .inr (sxtDec_error he)
  · cases h; exact .inl rfl

/-! ### `parse_header` and `recover` (43_frame_decode.md rules R172 and R174) -/

theorem parseTtl_writes (f : Byte) (k : Half) (rest : List Byte) (chk : Bool) (s : State) :
    (parseTtl f k rest chk s).Writes headerRegs s := by
  intro r hr
  simp only [headerRegs, List.mem_cons, List.not_mem_nil, or_false, not_or] at hr
  unfold parseTtl
  split
  · split
    · dsimp only [writeInfo, writeTtlRegs]
      split <;> simp [Proc.final, hr]
    · rfl
  · simp [Proc.final, writeInfo, hr]

theorem parseEnvelope_writes (e : List Byte) (chk : Bool) (s : State) :
    (parseEnvelope e chk s).Writes headerRegs s := by
  unfold parseEnvelope
  split
  · intro r hr
    have hf : r ≠ .flags := fun e => hr (by simp [e, headerRegs])
    have hc : r ≠ .crcStored := fun e => hr (by simp [e, headerRegs])
    dsimp only
    split
    · simp [Proc.final, hf]
    · rw [parseTtl_writes _ _ _ _ _ r hr]; simp [hf, hc]
  · exact fun _ _ => rfl

theorem parseHeader_writes (t : List Byte) (chk : Bool) (s : State) :
    (parseHeader t chk s).Writes headerRegs s :=
  (orRaise_writes _ _ _).bind fun e u _ => parseEnvelope_writes e chk u

theorem parseTtl_raises (es : List ErrKind) (f : Byte) (k : Half) (rest : List Byte) (chk : Bool)
    (s : State) (h1 : .format ∈ es) (h2 : chk = true → .expired ∈ es) :
    (parseTtl f k rest chk s).Raises es := by
  unfold parseTtl
  split
  · split
    · dsimp only
      split
      · rename_i h
        rw [Bool.and_eq_true] at h
        exact h2 h.1
      · exact True.intro
    · exact h1
  · exact True.intro

theorem parseEnvelope_raises (es : List ErrKind) (e : List Byte) (chk : Bool) (s : State)
    (h1 : .format ∈ es) (h2 : chk = true → .expired ∈ es) (h3 : .invalidFlags ∈ es) :
    (parseEnvelope e chk s).Raises es := by
  unfold parseEnvelope
  split
  · dsimp only
    split
    · exact h3
    · exact parseTtl_raises es _ _ _ _ _ h1 h2
  · exact h1

/-- The errors of steps S1 to S7. -/
theorem parseHeader_raises (es : List ErrKind) (t : List Byte) (chk : Bool) (s : State)
    (h1 : .format ∈ es) (h2 : chk = true → .expired ∈ es) (h3 : .invalidFlags ∈ es)
    (h4 : .missingMark ∈ es) : (parseHeader t chk s).Raises es := by
  refine (orRaise_raises _ _ _ fun e h => ?_).bind fun e u _ => parseEnvelope_raises es e chk u h1 h2 h3
  rcases openText_error h with rfl | rfl
  · exact h4
  · exact h1

/-- Steps S8 and S9 write ORIG_SIZE, CRC and CRC_COMPUTED. -/
theorem recover_writes (h : Header) (s : State) :
    (recover h s).Writes [.origSize, .crc, .crcComputed] s := by
  have hb : (recoverBytes h s).Writes [.origSize, .crc, .crcComputed] s := by
    unfold recoverBytes
    split
    · split
      · intro r hr
        rw [orRaise_writes _ _ _ r hr]
        simp only [List.mem_cons, not_or] at hr
        simp [hr.1]
      · exact fun _ _ => rfl
    · exact fun _ _ => rfl
  refine hb.bind fun o u _ r hr => ?_
  simp only [List.mem_cons, List.not_mem_nil, or_false, not_or] at hr
  simp [Proc.final, hr]

/-- The errors of step S8. -/
theorem recover_raises (h : Header) (s : State) :
    (recover h s).Raises [.format, .compression, .unsupported] := by
  refine Proc.Raises.bind (?_ : (recoverBytes h s).Raises _) fun o u _ => True.intro
  unfold recoverBytes
  split
  · split
    · refine orRaise_raises _ _ _ fun e he => ?_
      rcases dflUnstore_error he with rfl | rfl <;> simp
    · simp [Proc.Raises]
  · exact True.intro

/-! ### Phase 4 of every command (45_system.md rule R220) -/

/-- The pseudocode of a command on its input, SRESET's apart. -/
def commandBody : Instr → List Byte → State → Proc Unit
  | .nop, _, s | .sreset, _, s => .ok () s
  | .crcInit, _, s => .ok () (s.set .crc (halfWord Config.crcInitValue))
  | .crcUpdate, inp, s => .ok () (s.set .crc (halfWord (crcUpdate (crcOperand s) inp)))
  | .crcCalc, inp, s =>
    .ok () ((s.set .crc (halfWord (crc16 inp))).set .crcComputed (halfWord (crc16 inp)))
  | .sxtEnc, inp, s => emit (textOf s.params (sxtEnc inp)) s
  | .sxtDec, inp, s => (orRaise (sxtDec s.params inp) s).bind emit
  | .dflStore, inp, s => (orRaise (dflStore inp) s).bind emit
  | .dflUnstore, inp, s => (orRaise (dflUnstore inp) s).bind emit
  | .encode nc, inp, s =>
    let f := envelopeFlags inp nc none
    emit (frameText s.params inp nc none) ((writeEncodeRegs inp f s).set .info (byteWord (f &&& 0x07)))
  | .encodeTtl nc, inp, s =>
    let f := envelopeFlags inp nc (some (s.nows, s.get .ttlArg))
    emit (frameText s.params inp nc (some (s.nows, s.get .ttlArg)))
      (writeInfo f s.nows (s.get .ttlArg)
        (writeTtlRegs s.nows (s.get .ttlArg) (writeEncodeRegs inp f s)))
  | .decode nt, inp, s =>
    (parseHeader inp (checkTtlOption nt) s).bind fun h s =>
      (recover h s).bind fun o s => if crc16 o ≠ h.stored then .raised .checksum s else emit o s
  | .inspect, inp, s =>
    (parseHeader inp false s).bind fun h s =>
      (recover h s).bind fun o s => .ok () (s.set .result (resultWord (crc16 o == h.stored)))
  | .verify, inp, s =>
    (parseHeader inp true s).bind fun h s =>
      (recover h s).bind fun o s => .ok () (s.set .result (resultWord (crc16 o == h.stored)))
  | .validate, inp, s => .ok () (s.set .result (resultWord (textValid s.params inp)))
  | .info, inp, s => (parseHeader inp false s).bind fun _ s => .ok () s

@[simp] theorem writeEncodeRegs_params (o : List Byte) (f : Byte) (s : State) :
    (writeEncodeRegs o f s).params = s.params := by
  dsimp only [writeEncodeRegs]; split <;> simp

@[simp] theorem writeEncodeRegs_nows (o : List Byte) (f : Byte) (s : State) :
    (writeEncodeRegs o f s).nows = s.nows := by
  dsimp only [writeEncodeRegs]; split <;> simp

/-- A command that reads IBUF, as its body between the common start and end. -/
theorem exec_input (i : Instr) (s : State) (h : readsInput i = true) :
    exec i s = runOnInput s (commandBody i) := by
  cases i with
  | nop | sreset | crcInit => cases h
  | encode nc =>
    simp only [exec, execEncode]
    congr 1; funext inp u
    simp [commandBody]
  | encodeTtl nc =>
    simp only [exec, execEncodeTtl]
    congr 1; funext inp u
    simp [commandBody, writeInfo, writeTtlRegs]
  | _ => rfl

/-- A command that reads no input. -/
theorem exec_plain (i : Instr) (s : State) (h : readsInput i = false) (hs : i ≠ .sreset) :
    exec i s = .next (complete (commandBody i [] (commonStart s))) := by
  cases i with
  | nop | crcInit => rfl
  | sreset => exact absurd rfl hs
  | _ => cases h

/-- Everything a command can answer with a next state: SRESET's own ending; E_CAPACITY for its input; or its
body on an input it holds. -/
theorem exec_cases {i : Instr} {s t : State} (h : exec i s = .next t) :
    (i = .sreset ∧ t = resetRegisters (commonStart s)) ∨
    (readsInput i = true ∧ inputTooLong s = true ∧ t = takeError .capacity (commonStart s)) ∨
    (i ≠ .sreset ∧ ∃ inp, (readsInput i = true → inputTooLong s = false ∧ inputOf s = some inp) ∧
      t = complete (commandBody i inp (commonStart s))) := by
  by_cases hs : i = .sreset
  · subst hs; exact .inl ⟨rfl, by simpa [exec, execSreset] using h.symm⟩
  · cases hr : readsInput i with
    | false =>
      rw [exec_plain i s hr hs] at h
      exact .inr (.inr ⟨hs, [], by simp, by simpa using h.symm⟩)
    | true =>
      rw [exec_input i s hr] at h
      rcases runOnInput_next h with ⟨h1, h2⟩ | ⟨h1, inp, h2, h3⟩
      · exact .inr (.inl ⟨rfl, h1, h2⟩)
      · exact .inr (.inr ⟨hs, inp, fun _ => ⟨h1, h2⟩, h3⟩)

/-- No command is refused, and a fault is the model's own for an unwritten input byte. -/
theorem exec_total (i : Instr) (s : State) :
    (∃ t, exec i s = .next t) ∨
    (readsInput i = true ∧ inputTooLong s = false ∧ inputOf s = none ∧
      exec i s = .fault .unwrittenInput) := by
  by_cases hs : i = .sreset
  · subst hs; exact .inl ⟨_, rfl⟩
  · cases hr : readsInput i with
    | false => exact .inl ⟨_, exec_plain i s hr hs⟩
    | true =>
      rw [exec_input i s hr]
      unfold runOnInput
      cases hl : inputTooLong s with
      | true => exact .inl ⟨_, rfl⟩
      | false =>
        cases hi : inputOf s with
        | none => exact .inr ⟨rfl, rfl, rfl, rfl⟩
        | some inp => exact .inl ⟨_, rfl⟩

/-- The errors of a command's body are those of its row in 60_exceptions.md rule R241. -/
theorem commandBody_raises (i : Instr) (inp : List Byte) (s : State) :
    (commandBody i inp s).Raises (possibleErrors i) := by
  have units : ∀ (es : List ErrKind) (r : Except ErrKind (List Byte)) (u : State),
      (∀ e, r = .error e → e ∈ es) → .capacity ∈ es → ((orRaise r u).bind emit).Raises es :=
    fun es r u h1 h2 =>
      (orRaise_raises es r u h1).bind fun a t _ => (emit_raises a t).mono (by simpa using h2)
  have header : ∀ {chk : Bool} {i : Instr} {u : State}, .format ∈ possibleErrors i →
      (chk = true → .expired ∈ possibleErrors i) → .invalidFlags ∈ possibleErrors i →
      .missingMark ∈ possibleErrors i → (parseHeader inp chk u).Raises (possibleErrors i) :=
    fun h1 h2 h3 h4 => parseHeader_raises _ _ _ _ h1 h2 h3 h4
  cases i with
  | nop | sreset | crcInit | crcUpdate | crcCalc | validate => exact True.intro
  | sxtEnc | encode nc | encodeTtl nc => exact emit_raises ..
  | sxtDec => exact units _ _ _ (fun e h => by simp [sxtDec_error h, possibleErrors]) (by decide)
  | dflStore => exact units _ _ _ (fun e h => by simp [dflStore_error h, possibleErrors]) (by decide)
  | dflUnstore =>
    exact units _ _ _ (fun e h => by rcases dflUnstore_error h with rfl | rfl <;> decide) (by decide)
  | decode nt =>
    refine (header (by simp [possibleErrors]) (by cases nt <;> decide) (by simp [possibleErrors])
      (by simp [possibleErrors])).bind fun h u _ => ?_
    refine ((recover_raises h u).mono (by simp [possibleErrors])).bind fun o v _ => ?_
    split
    · simp [Proc.Raises, possibleErrors]
    · exact (emit_raises _ _).mono (by simp [possibleErrors])
  | inspect | verify =>
    refine (header (by simp [possibleErrors]) (by decide) (by simp [possibleErrors])
      (by simp [possibleErrors])).bind fun h u _ => ?_
    exact ((recover_raises h u).mono (by simp [possibleErrors])).bind fun o v _ => True.intro
  | info =>
    exact (header (by simp [possibleErrors]) (by decide) (by simp [possibleErrors])
      (by simp [possibleErrors])).bind fun h u _ => True.intro

/-- A command's body writes CRC and the result registers 30_encoding.md rule R84 lists for it, no other. -/
theorem commandBody_writes (i : Instr) (inp : List Byte) (s : State) :
    (commandBody i inp s).Writes (.crc :: writtenResults i) s := by
  have units : ∀ (r : Except ErrKind (List Byte)) (u : State),
      ((orRaise r u).bind emit).Writes [.crc, .olen] u := fun r u =>
    (orRaise_writes _ r u).bind fun a t _ => (emit_writes a t).mono (by simp)
  cases i with
  | nop | sreset => exact fun _ _ => rfl
  | crcInit | crcUpdate | crcCalc | validate =>
    intro r hr
    simp [writtenResults] at hr
    simp [commandBody, Proc.final, hr]
  | sxtEnc => exact (emit_writes _ _).mono (by decide)
  | sxtDec | dflStore | dflUnstore => exact units _ _
  | encode nc =>
    intro r hr
    simp [writtenResults] at hr
    simp only [commandBody]
    rw [emit_writes _ _ r (by simp [hr])]
    simp only [writeEncodeRegs]
    split <;> simp [hr]
  | encodeTtl nc =>
    intro r hr
    simp [writtenResults] at hr
    simp only [commandBody]
    rw [emit_writes _ _ r (by simp [hr])]
    simp only [writeEncodeRegs, writeInfo, writeTtlRegs]
    split <;> simp [hr]
  | decode nt =>
    refine ((parseHeader_writes _ _ _).mono (by simp [headerRegs, writtenResults])).bind fun h u _ => ?_
    refine ((recover_writes h u).mono (by simp [writtenResults])).bind fun o v _ => ?_
    split
    · exact fun _ _ => rfl
    · exact (emit_writes _ _).mono (by simp [writtenResults])
  | inspect | verify =>
    refine ((parseHeader_writes _ _ _).mono (by simp [headerRegs, writtenResults])).bind fun h u _ => ?_
    refine ((recover_writes h u).mono (by simp [writtenResults])).bind fun o v _ => ?_
    intro r hr
    simp [writtenResults] at hr
    simp [Proc.final, hr]
  | info =>
    exact ((parseHeader_writes _ _ _).mono (by simp [headerRegs, writtenResults])).bind
      fun h u _ => fun _ _ => rfl

/-- A command's body keeps the operands of the host. -/
theorem commandBody_frame (i : Instr) (inp : List Byte) (s : State) :
    CommandFrame s (commandBody i inp s).final := by
  have units : ∀ (r : Except ErrKind (List Byte)) (u : State),
      CommandFrame u ((orRaise r u).bind emit).final := fun r u =>
    bind_frame _ _ (orRaise_frame r u) fun a t => emit_frame a t
  cases i with
  | nop | sreset => exact .refl s
  | crcInit | crcUpdate => exact (CommandFrame.refl s).set .crc _ (by decide)
  | validate => exact (CommandFrame.refl s).set .result _ (by decide)
  | crcCalc => exact ((CommandFrame.refl s).set .crc _ (by decide)).set .crcComputed _ (by decide)
  | sxtEnc => exact emit_frame ..
  | sxtDec | dflStore | dflUnstore => exact units _ _
  | encode nc =>
    exact ((writeEncodeRegs_frame ..).set .info _ (by decide)).trans (emit_frame ..)
  | encodeTtl nc =>
    exact ((writeEncodeRegs_frame ..).trans ((writeTtlRegs_frame ..).trans (writeInfo_frame ..))).trans
      (emit_frame ..)
  | decode nt =>
    refine bind_frame _ _ (parseHeader_frame ..) fun h u => ?_
    refine bind_frame _ _ (recover_frame ..) fun o v => ?_
    split
    · exact .refl v
    · exact emit_frame ..
  | inspect | verify =>
    refine bind_frame _ _ (parseHeader_frame ..) fun h u => ?_
    exact bind_frame _ _ (recover_frame ..) fun o v =>
      (CommandFrame.refl v).set .result _ (by decide)
  | info => exact bind_frame _ _ (parseHeader_frame ..) fun h u => .refl u

theorem bind_ibuf {α β : Type} {s : State} (p : Proc α) (f : α → State → Proc β)
    (h : p.final.ibuf = s.ibuf) (g : ∀ a t, (f a t).final.ibuf = t.ibuf) :
    (p.bind f).final.ibuf = s.ibuf := by
  cases p with
  | ok a t => exact (g a t).trans h
  | raised e t => exact h

theorem orRaise_final {α : Type} (r : Except ErrKind α) (s : State) : (orRaise r s).final = s := by
  cases r <;> rfl

@[simp] theorem emit_ibuf (v : List Byte) (s : State) : (emit v s).final.ibuf = s.ibuf := by
  rcases emit_cases v s with ⟨-, h⟩ | ⟨-, h⟩ <;> rw [h] <;> rfl

@[simp] theorem parseHeader_ibuf (t : List Byte) (chk : Bool) (s : State) :
    (parseHeader t chk s).final.ibuf = s.ibuf := by
  refine bind_ibuf _ _ (by rw [orRaise_final]) fun e u => ?_
  unfold parseEnvelope
  split
  · dsimp only
    split
    · simp [Proc.final]
    · unfold parseTtl
      split
      · split
        · dsimp only [writeInfo, writeTtlRegs]
          split <;> simp [Proc.final]
        · simp [Proc.final]
      · simp [Proc.final, writeInfo]
  · rfl

@[simp] theorem recover_ibuf (h : Header) (s : State) : (recover h s).final.ibuf = s.ibuf := by
  refine bind_ibuf _ _ ?_ fun o u => rfl
  unfold recoverBytes
  split
  · split
    · rw [orRaise_final]; rfl
    · rfl
  · rfl

@[simp] theorem writeEncodeRegs_ibuf (o : List Byte) (f : Byte) (s : State) :
    (writeEncodeRegs o f s).ibuf = s.ibuf := by
  dsimp only [writeEncodeRegs]; split <;> simp

/-- A command's body leaves the list of IBUF as it is. -/
theorem commandBody_ibuf (i : Instr) (inp : List Byte) (s : State) :
    (commandBody i inp s).final.ibuf = s.ibuf := by
  cases i with
  | nop | sreset | crcInit | crcUpdate | crcCalc | validate => rfl
  | sxtEnc => exact emit_ibuf ..
  | sxtDec | dflStore | dflUnstore =>
    exact bind_ibuf _ _ (by rw [orRaise_final]) fun a t => emit_ibuf a t
  | encode nc => simp [commandBody]
  | encodeTtl nc => simp [commandBody, writeInfo, writeTtlRegs]
  | decode nt =>
    refine bind_ibuf _ _ (parseHeader_ibuf ..) fun h u => bind_ibuf _ _ (recover_ibuf ..) fun o v => ?_
    split
    · rfl
    · exact emit_ibuf ..
  | inspect | verify =>
    exact bind_ibuf _ _ (parseHeader_ibuf ..) fun h u => bind_ibuf _ _ (recover_ibuf ..) fun o v => rfl
  | info => exact bind_ibuf _ _ (parseHeader_ibuf ..) fun h u => rfl

/-! ### The host, the engine and the step -/

/-- Everything a host access can answer with a next state. -/
theorem hostAccess_cases {a : HostAccess} {s t : State} (h : hostAccess a s = .next t) :
    (∃ x, t = { s with response := x }) ∨
    (s.busy = false ∧ ∃ w, a = .regWrite 0 w ∧ t = { acceptCommand w s with response := none }) ∨
    (s.busy = false ∧ ∃ v, a = .regWrite 3 v ∧ t = { s with ilen := v, response := none }) ∨
    (s.busy = false ∧ ∃ v, a = .regWrite 9 v ∧ t = { s with ttlArg := v, response := none }) ∨
    (s.busy = false ∧ ∃ v, a = .regWrite 5 v ∧
      t = { s with crc := v &&& 0x0000FFFF, response := none }) ∨
    (s.busy = false ∧ ∃ i v, a = .bufWrite .ibuf i v ∧ i < s.params.ibufSize ∧
      t = { s with ibuf := s.ibuf.write i v, response := none }) := by
  unfold hostAccess at h
  cases hb : s.busy with
  | true =>
    rw [hb, if_pos rfl] at h
    unfold accessBusy at h
    split at h <;> cases h <;> exact .inl ⟨_, rfl⟩
  | false =>
    rw [hb] at h
    simp only [Bool.false_eq_true, if_false] at h
    unfold accessIdle at h
    split at h
    · cases h; exact .inl ⟨_, rfl⟩
    · rename_i i v
      cases h
      by_cases h0 : i = 0
      · subst h0; exact .inr (.inl ⟨rfl, v, rfl, rfl⟩)
      by_cases h3 : i = 3
      · subst h3; exact .inr (.inr (.inl ⟨rfl, v, rfl, rfl⟩))
      by_cases h9 : i = 9
      · subst h9; exact .inr (.inr (.inr (.inl ⟨rfl, v, rfl, rfl⟩)))
      by_cases h5 : i = 5
      · subst h5; exact .inr (.inr (.inr (.inr (.inl ⟨rfl, v, rfl, rfl⟩))))
      left
      refine ⟨none, ?_⟩
      have : regWriteEffect i v s = s := by
        unfold regWriteEffect Reg.ofIndex
        split <;> rename_i hh <;> first | rfl | (exfalso; revert hh; split <;> simp_all)
      rw [this]
    · split at h
      · cases h; exact .inl ⟨_, rfl⟩
      · cases h
    · rename_i b i v
      split at h
      · rename_i hi
        cases h
        cases b with
        | ibuf => exact .inr (.inr (.inr (.inr (.inr ⟨rfl, i, v, rfl, hi, rfl⟩))))
        | obuf => exact .inl ⟨none, rfl⟩
      · cases h

/-- Everything the engine can answer with a next state. -/
theorem engineTurn_cases {s t : State} (h : engineTurn s = .next t) :
    (s.busy = false ∧ t = s) ∨
    (s.busy = true ∧ ∃ i, decode (s.get .cmd) = .ok i ∧ exec i s = .next t) ∨
    (s.busy = true ∧ ∃ r, decode (s.get .cmd) = .error r ∧ t = takeError .illegalCmd (commonStart s)) := by
  unfold engineTurn at h
  cases hb : s.busy with
  | false => rw [hb] at h; exact .inl ⟨rfl, by simpa using h.symm⟩
  | true =>
    rw [hb, if_pos rfl] at h
    unfold engineStep pendingWord at h
    split at h
    · rename_i i hd; exact .inr (.inl ⟨rfl, i, hd, h⟩)
    · rename_i r hd; cases h; exact .inr (.inr ⟨rfl, r, hd, rfl⟩)

/-- Everything a step can answer with a next state: the turn at the head of the schedule, or the engine's. -/
theorem step_cases {s t : State} (h : step s = .next t) :
    (s.events = [] ∧ engineTurn s = .next t) ∨
    (∃ rest, s.events = .engine :: rest ∧ engineTurn { s with events := rest } = .next t) ∨
    (∃ a rest, s.events = .host a :: rest ∧ hostAccess a { s with events := rest } = .next t) ∨
    (∃ v rest, s.events = .driveNow v :: rest ∧ t = { s with events := rest, nowInput := v }) ∨
    (∃ rest, s.events = .hardwareReset :: rest ∧ t = hardwareReset { s with events := rest }) := by
  unfold step at h
  split at h
  · rename_i he; exact .inl ⟨he, h⟩
  · rename_i e rest he
    cases e with
    | host a => exact .inr (.inr (.inl ⟨a, rest, he, h⟩))
    | engine => exact .inr (.inl ⟨rest, he, h⟩)
    | driveNow v => cases h; exact .inr (.inr (.inr (.inl ⟨v, rest, he, rfl⟩)))
    | hardwareReset => cases h; exact .inr (.inr (.inr (.inr ⟨rest, he, rfl⟩)))

end Sys2Proof.Machine
end

