-- ==== Sys2Proof/Laws/PerInstr.lean ====
section
/-!
SUPPORT. Statements about every command as syntax, one lemma per constructor (30_encoding.md rules R80 to R83).
-/

namespace Sys2Proof.Laws

/-- The word of a command lies in a row of the opcode table that builds the command back from it, its ZERO
field is zero, and its option bits are set only on the commands that have them. -/
def EncodedInRow.Statement (i : Instr) : Prop :=
  (∃ r ∈ opcodeTable, r.accepts (encode i) = true ∧ r.build (encode i) = i) ∧
    zeroField (encode i) = 0 ∧
    (ncField (encode i) = true → i = .encode true ∨ i = .encodeTtl true) ∧
    (ntField (encode i) = true → i = .decode true)

theorem EncodedInRow.nop : EncodedInRow.Statement .nop :=
  ⟨⟨opcodeTable[0], by simp [opcodeTable], rfl, rfl⟩, by decide⟩

theorem EncodedInRow.sreset : EncodedInRow.Statement .sreset :=
  ⟨⟨opcodeTable[1], by simp [opcodeTable], rfl, rfl⟩, by decide⟩

theorem EncodedInRow.crcInit : EncodedInRow.Statement .crcInit :=
  ⟨⟨opcodeTable[2], by simp [opcodeTable], rfl, rfl⟩, by decide⟩

theorem EncodedInRow.crcUpdate : EncodedInRow.Statement .crcUpdate :=
  ⟨⟨opcodeTable[3], by simp [opcodeTable], rfl, rfl⟩, by decide⟩

theorem EncodedInRow.crcCalc : EncodedInRow.Statement .crcCalc :=
  ⟨⟨opcodeTable[4], by simp [opcodeTable], rfl, rfl⟩, by decide⟩

theorem EncodedInRow.sxtEnc : EncodedInRow.Statement .sxtEnc :=
  ⟨⟨opcodeTable[5], by simp [opcodeTable], rfl, rfl⟩, by decide⟩

theorem EncodedInRow.sxtDec : EncodedInRow.Statement .sxtDec :=
  ⟨⟨opcodeTable[6], by simp [opcodeTable], rfl, rfl⟩, by decide⟩

theorem EncodedInRow.dflStore : EncodedInRow.Statement .dflStore :=
  ⟨⟨opcodeTable[7], by simp [opcodeTable], rfl, rfl⟩, by decide⟩

theorem EncodedInRow.dflUnstore : EncodedInRow.Statement .dflUnstore :=
  ⟨⟨opcodeTable[8], by simp [opcodeTable], rfl, rfl⟩, by decide⟩

theorem EncodedInRow.encode (nc : Bool) : EncodedInRow.Statement (.encode nc) := by
  cases nc <;> exact ⟨⟨opcodeTable[9], by simp [opcodeTable], rfl, rfl⟩, by decide⟩

theorem EncodedInRow.encodeTtl (nc : Bool) : EncodedInRow.Statement (.encodeTtl nc) := by
  cases nc <;> exact ⟨⟨opcodeTable[10], by simp [opcodeTable], rfl, rfl⟩, by decide⟩

theorem EncodedInRow.decode (nt : Bool) : EncodedInRow.Statement (.decode nt) := by
  cases nt <;> exact ⟨⟨opcodeTable[11], by simp [opcodeTable], rfl, rfl⟩, by decide⟩

theorem EncodedInRow.inspect : EncodedInRow.Statement .inspect :=
  ⟨⟨opcodeTable[12], by simp [opcodeTable], rfl, rfl⟩, by decide⟩

theorem EncodedInRow.verify : EncodedInRow.Statement .verify :=
  ⟨⟨opcodeTable[13], by simp [opcodeTable], rfl, rfl⟩, by decide⟩

theorem EncodedInRow.validate : EncodedInRow.Statement .validate :=
  ⟨⟨opcodeTable[14], by simp [opcodeTable], rfl, rfl⟩, by decide⟩

theorem EncodedInRow.info : EncodedInRow.Statement .info :=
  ⟨⟨opcodeTable[15], by simp [opcodeTable], rfl, rfl⟩, by decide⟩

end Sys2Proof.Laws
end

