-- ==== Sys2Proof/Laws/Sextet.lean ====
section
/-!
SUPPORT. The Sextet Transform's checks in the words of 40_sextet.md rule R114: `textLegal` is `LegalText`, the
padding counts agree, and `AMAP` inverts `ALPHA`.
-/

namespace Sys2Proof.Machine

open Sys2Proof.Config (Params)

/-- The last two elements of a list, by index. -/
theorem drop_length_sub_two (t : List Byte) (h : 2 ≤ t.length) :
    ∃ a b, t.drop (t.length - 2) = [a, b] ∧ t[t.length - 2]? = some a ∧ t[t.length - 1]? = some b := by
  refine ⟨t[t.length - 2], t[t.length - 1], ?_, ?_, ?_⟩
  · apply List.ext_getElem
    · simp; omega
    · intro i h1 h2
      simp only [List.length_cons, List.length_nil, List.length_drop] at h1 h2
      have : i = 0 ∨ i = 1 := by omega
      rcases this with rfl | rfl
      · simp
      · simp; congr 1; omega
  · simp
  · simp

/-- `AMAP[c]` is present exactly for the characters of the alphabet. -/
theorem amap_isSome_iff (p : Params) (c : Byte) : (amap p c).isSome = true ↔ c ∈ p.alpha.toList := by
  rw [amap, Option.isSome_map, List.findIdx?_isSome]
  simp only [List.any_eq_true, beq_iff_eq, exists_eq_right]

/-- What the constraints on ALPHA and PAD say, as propositions (00_scope.md rule R7). -/
theorem Params.wf_alphabet {p : Params} (h : p.wf = true) :
    p.alpha.toList.Nodup ∧ p.pad ∉ p.alpha.toList := by
  simp only [Params.wf, Bool.and_eq_true, Params.alphaDistinct, Params.padOutside] at h
  exact ⟨by simpa using h.1.1.1.1, by simpa using h.1.1.2⟩

/-- `AMAP[ALPHA[k]] = k`. -/
theorem amap_alphaAt {p : Params} (h : p.wf = true) (k : Sextet) : amap p (alphaAt p k) = some k := by
  obtain ⟨nd, -⟩ := Params.wf_alphabet h
  have hk : k.toNat < p.alpha.toList.length := by simpa using k.isLt
  have : p.alpha.toList.findIdx? (· == alphaAt p k) = some k.toNat := by
    rw [List.findIdx?_eq_some_iff_getElem]
    refine ⟨hk, by simp [alphaAt], fun j hj => ?_⟩
    rw [beq_iff_eq]
    intro e
    have : p.alpha.toList[j] = p.alpha.toList[k.toNat] := by rw [e]; simp [alphaAt]
    have := (nd.getElem_inj_iff).1 this
    omega
  simp [amap, this]

/-- `ALPHA[AMAP[c]] = c`. -/
theorem alphaAt_of_amap {p : Params} {c : Byte} {k : Sextet} (h : amap p c = some k) : alphaAt p k = c := by
  simp only [amap, Option.map_eq_some_iff] at h
  obtain ⟨j, hj, rfl⟩ := h
  rw [List.findIdx?_eq_some_iff_getElem] at hj
  obtain ⟨h1, h2, -⟩ := hj
  have : j < 64 := by simpa using h1
  rw [beq_iff_eq, Vector.getElem_toList] at h2
  simp only [alphaAt, BitVec.toNat_ofNat, ← h2]
  congr 1
  omega

/-- The padding byte has no index. -/
theorem amap_pad {p : Params} (h : p.wf = true) : amap p p.pad = none := by
  have := (amap_isSome_iff p p.pad).not.2 (Params.wf_alphabet h).2
  simpa using this

/-- Check 5 of 40_sextet.md rule R114. -/
theorem charsLegal_iff (p : Params) (t : List Byte) :
    charsLegal p t = true ↔ ∀ c ∈ t, c = p.pad ∨ c ∈ p.alpha.toList := by
  simp only [charsLegal, List.all_eq_true, Bool.or_eq_true, beq_iff_eq, amap_isSome_iff]

/-- Checks 3 and 4 of 40_sextet.md rule R114, position by position. -/
theorem padPlaced_iff (p : Params) (t : List Byte) (h : t.length % 4 = 0) :
    padPlaced p t = true ↔
      (∀ i, i + 2 < t.length → t[i]? ≠ some p.pad) ∧
      ¬ (t[t.length - 2]? = some p.pad ∧ t[t.length - 1]? ≠ some p.pad) := by
  have early : (t.take (t.length - 2)).all (· != p.pad) = true ↔
      ∀ i, i + 2 < t.length → t[i]? ≠ some p.pad := by
    simp only [List.all_eq_true, bne_iff_ne, List.mem_iff_getElem?]
    constructor
    · intro g i hi e
      exact g p.pad ⟨i, by rw [List.getElem?_take]; simp [e]; omega⟩ rfl
    · rintro g x ⟨i, hi⟩ rfl
      rw [List.getElem?_take] at hi
      split at hi
      · exact g i (by omega) hi
      · cases hi
  rw [padPlaced, Bool.and_eq_true, early]
  refine and_congr_right fun _ => ?_
  by_cases ht : t = []
  · subst ht; simp
  · have : 0 < t.length := List.length_pos_iff.mpr ht
    obtain ⟨a, b, hd, ha, hb⟩ := drop_length_sub_two t (by omega)
    rw [hd, ha, hb]
    by_cases h1 : a = p.pad <;> simp [h1]

/-- The decoder's checks are the checks of 40_sextet.md rule R114. -/
theorem textLegal_iff (p : Params) (t : List Byte) : textLegal p t = true ↔ LegalText p t := by
  by_cases h : t.length % 4 = 0
  · rw [textLegal, Bool.and_eq_true, Bool.and_eq_true, padPlaced_iff p t h, charsLegal_iff]
    simp only [h, beq_self_eq_true, true_and]
    exact ⟨fun g => ⟨h, g.1.1, g.1.2, g.2⟩, fun g => ⟨⟨g.noEarlyPad, g.padIsSuffix⟩, g.chars⟩⟩
  · have : (t.length % 4 == 0) = false := by simpa using h
    simp only [textLegal, this, Bool.false_and, Bool.false_eq_true, false_iff]
    exact fun g => h g.length

/-- The two spellings of the trailing-padding count agree on texts of legal length. -/
theorem padCount_eq (p : Params) (t : List Byte) (h : t.length % 4 = 0) :
    padCount p t = trailingPads p t := by
  by_cases ht : t = []
  · subst ht; simp [padCount, trailingPads]
  · have : 0 < t.length := List.length_pos_iff.mpr ht
    obtain ⟨a, b, hd, ha, hb⟩ := drop_length_sub_two t (by omega)
    simp [padCount, trailingPads, hd, ha, hb]

/-- `sxt_dec` answers exactly on the legal texts. -/
theorem sxtDec_cases (p : Params) (t : List Byte) :
    (LegalText p t ∧ sxtDec p t = .ok ((groupBytes p t).take (decodedLength p t))) ∨
    (¬ LegalText p t ∧ sxtDec p t = .error .format) := by
  by_cases h : textLegal p t = true
  · exact .inl ⟨(textLegal_iff p t).mp h, by simp [sxtDec, h]⟩
  · exact .inr ⟨fun g => h ((textLegal_iff p t).mpr g), by simp [sxtDec, h]⟩

/-- Three bytes for each whole group. -/
theorem groupBytes_length (p : Params) (t : List Byte) : (groupBytes p t).length = t.length / 4 * 3 := by
  induction t using groupBytes.induct with
  | case1 t0 t1 t2 t3 rest ih => simp [groupBytes, ih]; omega
  | case2 t h =>
    have : t.length < 4 := by
      by_contra hc
      match t, hc with
      | [], hc | [_], hc | [_, _], hc | [_, _, _], hc => simp at hc
      | a :: b :: c :: d :: rest, _ => exact h a b c d rest rfl
    rw [groupBytes] <;> simp_all

/-- The padding count is at most 2. -/
theorem padCount_le (p : Params) (t : List Byte) : padCount p t ≤ 2 := by
  unfold padCount
  split
  · split
    · split <;> omega
    · omega
  · omega

end Sys2Proof.Machine
end

