-- ==== Sys2Proof/Tests/Slice0.lean ====
section
/-!
SUPPORT. Tests. Expected words and values are those of 30_encoding.md rules R81 to R85, 41_crc.md rule R132,
95_test_vectors.md and 96_test_vectors_decode.md (vector names in the comments); the witnesses show a concrete
state and operands that meet the hypotheses of a statement.
-/

namespace Sys2Proof.Tests

open Sys2Proof Sys2Proof.Machine
open Sys2Proof.Config (Params testParams)

/-! ### Well-formedness: one ill-formed parameter list for each check, refused by that check -/

theorem test_wf_accepts_testParams : testParams.wf = true := by decide

theorem test_wf_refuses_repeated_code :
    ({ testParams with alpha := testParams.alpha.set 1 0x41 } : Params).alphaDistinct = false ∧
    ({ testParams with alpha := testParams.alpha.set 1 0x41 } : Params).wf = false := by decide

theorem test_wf_refuses_unprintable_code :
    ({ testParams with alpha := testParams.alpha.set 1 0x21 } : Params).alphaPrintable = false ∧
    ({ testParams with alpha := testParams.alpha.set 1 0x7F } : Params).wf = false := by decide

theorem test_wf_refuses_pad_in_alphabet :
    ({ testParams with pad := 0x41 } : Params).padOutside = false ∧
    ({ testParams with pad := 0x41 } : Params).wf = false := by decide

theorem test_wf_refuses_unprintable_pad :
    ({ testParams with pad := 0x21 } : Params).padPrintable = false ∧
    ({ testParams with pad := 0x20 } : Params).wf = false := by decide

theorem test_wf_refuses_small_buffers :
    ({ testParams with ibufSize := 1 } : Params).sizesOk = false ∧
    ({ testParams with obufSize := 1 } : Params).wf = false ∧
    ({ testParams with ibufSize := 2, obufSize := 2 } : Params).wf = true := by decide

theorem test_wf_every_command : (Instr.encode true).wf = true ∧ Instr.nop.wf = true := by decide

/-! ### Decoding: one word for every command, written out from the opcode map -/

theorem test_decode_nop :
    decode (0b0000000000 : Word) = .ok .nop ∧ decodeTableWord 32 0x00000000 = some .nop := by decide

theorem test_decode_sreset :
    decode (0b0000000001 : Word) = .ok .sreset ∧ decodeTableWord 32 0x00000001 = some .sreset := by decide

theorem test_decode_crcInit :
    decode (0b0000010000 : Word) = .ok .crcInit ∧ decodeTableWord 32 0x00000010 = some .crcInit := by decide

theorem test_decode_crcUpdate :
    decode (0b0000010001 : Word) = .ok .crcUpdate ∧ decodeTableWord 32 0x00000011 = some .crcUpdate := by decide

theorem test_decode_crcCalc :
    decode (0b0000010010 : Word) = .ok .crcCalc ∧ decodeTableWord 32 0x00000012 = some .crcCalc := by decide

theorem test_decode_sxtEnc :
    decode (0b0000100000 : Word) = .ok .sxtEnc ∧ decodeTableWord 32 0x00000020 = some .sxtEnc := by decide

theorem test_decode_sxtDec :
    decode (0b0000100001 : Word) = .ok .sxtDec ∧ decodeTableWord 32 0x00000021 = some .sxtDec := by decide

theorem test_decode_dflStore :
    decode (0b0000110000 : Word) = .ok .dflStore ∧ decodeTableWord 32 0x00000030 = some .dflStore := by decide

theorem test_decode_dflUnstore :
    decode (0b0000110001 : Word) = .ok .dflUnstore ∧ decodeTableWord 32 0x00000031 = some .dflUnstore := by decide

theorem test_decode_encode :
    decode (0b0001000000 : Word) = .ok (.encode false) ∧ decodeTableWord 32 0x00000040 = some (.encode false) := by decide

theorem test_decode_encode_nc :
    decode (0b0101000000 : Word) = .ok (.encode true) ∧ decodeTableWord 32 0x00000140 = some (.encode true) := by decide

theorem test_decode_encodeTtl :
    decode (0b0001000001 : Word) = .ok (.encodeTtl false) ∧ decodeTableWord 32 0x00000041 = some (.encodeTtl false) := by decide

theorem test_decode_encodeTtl_nc :
    decode (0b0101000001 : Word) = .ok (.encodeTtl true) ∧ decodeTableWord 32 0x00000141 = some (.encodeTtl true) := by decide

theorem test_decode_decode :
    decode (0b0001000010 : Word) = .ok (.decode false) ∧ decodeTableWord 32 0x00000042 = some (.decode false) := by decide

theorem test_decode_decode_nt :
    decode (0b1001000010 : Word) = .ok (.decode true) ∧ decodeTableWord 32 0x00000242 = some (.decode true) := by decide

theorem test_decode_inspect :
    decode (0b0001000011 : Word) = .ok .inspect ∧ decodeTableWord 32 0x00000043 = some .inspect := by decide

theorem test_decode_verify :
    decode (0b0001000100 : Word) = .ok .verify ∧ decodeTableWord 32 0x00000044 = some .verify := by decide

theorem test_decode_validate :
    decode (0b0001000101 : Word) = .ok .validate ∧ decodeTableWord 32 0x00000045 = some .validate := by decide

theorem test_decode_info :
    decode (0b0001000110 : Word) = .ok .info ∧ decodeTableWord 32 0x00000046 = some .info := by decide

/-- V-SY3 to V-SY10: words that match no row, one for each reason. -/
theorem test_decode_illegal :
    decode 0x00000002 = .error .unknownOpcode ∧ decode 0x000000FF = .error .unknownOpcode ∧
    decode 0x00000120 = .error .ncNotAnOption ∧ decode 0x00000243 = .error .ntNotAnOption ∧
    decode 0x00000400 = .error .reservedBits ∧ decode 0x80000040 = .error .reservedBits ∧
    decodeTableWord 32 0x00000342 = none ∧ decodeTableWord 32 0x00000241 = none := by decide

/-! ### The units' functions -/

/-- V-CR0: entries of the table of 41_crc.md rule R132. -/
theorem test_crcTab :
    crcTab 0x00 = 0x0000 ∧ crcTab 0x01 = 0x1021 ∧ crcTab 0x7F = 0x8F78 ∧ crcTab 0x80 = 0x9188 ∧
    crcTab 0xCE = 0x3882 ∧ crcTab 0xF5 = 0xBFBA ∧ crcTab 0xFF = 0x1EF0 := by decide

/-- V-CR1 and V-CR1b: the first byte of "123456789" by both forms of the step. -/
theorem test_crcStep : crcStep 0xFFFF 0x31 = 0xC782 ∧ crcStepSerial 0xFFFF 0x31 = 0xC782 := by decide

/-! ### One step on small states -/

/-- A block with the command `i` pending on the input `inp`, and no turn left but the engine's. -/
def pending (p : Params) (i : Instr) (inp : List Byte) : State :=
  { State.resetWith p with
    cmd := encode i, status := 1, ilen := BitVec.ofNat 32 inp.length, ibuf := Memory.writeRange [] 0 inp }

/-- `pending` with the parameters of 95_test_vectors.md section 0. -/
abbrev ready (i : Instr) (inp : List Byte) : State := pending testParams i inp

/-- The block of the capacity vectors, with buffers of 8 bytes. -/
abbrev small (i : Instr) (inp : List Byte) : State :=
  pending { testParams with ibufSize := 8, obufSize := 8 } i inp

/-- The values of some registers and the output bytes after one step, none if there is no next state. -/
def observe (rs : List Reg) (s : State) : Option (List Word × List Byte) :=
  match step s with
  | .next t => some (rs.map t.get, t.obuf.map (·.2))
  | _ => none

set_option maxRecDepth 8000 in
/-- V-SY1: NOP clears the error and the result registers and keeps CRC. -/
theorem test_nop :
    observe [.status, .errcode, .crc, .crcStored, .olen]
      { ready .nop [] with errcode := 5, crc := 0xDADA, crcStored := 0xDADB } =
      some ([2, 0, 0xDADA, 0, 0], []) := by decide

set_option maxRecDepth 8000 in
/-- V-SY2: SRESET puts every register back. -/
theorem test_sreset :
    observe [.status, .ilen, .ttlArg, .crc, .info, .cmd]
      { ready .sreset [0x48, 0x69] with ttlArg := 60, crc := 0x64E5, info := 0x0C } =
      some ([0, 0, 0, 0xFFFF, 0, 0], []) := by decide

set_option maxRecDepth 8000 in
/-- V-CR9: CRC_INIT makes no capacity check. -/
theorem test_crcInit :
    observe [.status, .errcode, .crc] { ready .crcInit [] with crc := 0x1234, ilen := 5000 } =
      some ([2, 0, 0xFFFF], []) := by decide

set_option maxRecDepth 8000 in
/-- V-CR8: a host-written start value. -/
theorem test_crcUpdate :
    observe [.status, .crc, .crcComputed] { ready .crcUpdate [0x56] with crc := 0x1234 } =
      some ([2, 0x3C40, 0], []) := by decide

set_option maxRecDepth 8000 in
/-- V-CR8: no bytes, no change. -/
theorem test_crcUpdate_empty :
    observe [.status, .crc] { ready .crcUpdate [] with crc := 0x1234 } = some ([2, 0x1234], []) := by decide

set_option maxRecDepth 8000 in
/-- V-CR1: DX's own vector. -/
theorem test_crcCalc :
    observe [.status, .crc, .crcComputed, .olen]
      (ready .crcCalc [0x31, 0x32, 0x33, 0x34, 0x35, 0x36, 0x37, 0x38, 0x39]) =
      some ([2, 0x29B1, 0x29B1, 0], []) := by decide

set_option maxRecDepth 8000 in
/-- V-CA2: ILEN above IBUF_SIZE. -/
theorem test_crcCalc_capacity :
    observe [.status, .errcode, .crc] { small .crcCalc [] with ilen := 9 } =
      some ([6, 9, 0xFFFF], []) := by decide

set_option maxRecDepth 8000 in
/-- V-SX9. -/
theorem test_sxtEnc :
    observe [.status, .olen] (ready .sxtEnc [0x12, 0x34, 0x56, 0x78]) =
      some ([2, 8], [0x41, 0x6E, 0x56, 0x53, 0x61, 0x45, 0x3D, 0x3D]) := by decide

set_option maxRecDepth 8000 in
/-- V-CA4: an output of 12 bytes into a buffer of 8. -/
theorem test_sxtEnc_capacity :
    observe [.status, .errcode, .olen] (small .sxtEnc [0x61, 0x62, 0x63, 0x64, 0x65, 0x66, 0x67]) =
      some ([6, 9, 0], []) := by decide

set_option maxRecDepth 8000 in
/-- V-SD7: the discarded bits are not looked at. -/
theorem test_sxtDec :
    observe [.status, .olen] (ready .sxtDec [0x45, 0x46, 0x3D, 0x3D]) = some ([2, 1], [0x00]) := by decide

set_option maxRecDepth 8000 in
/-- V-SD9: padding misplaced. -/
theorem test_sxtDec_padding :
    observe [.status, .errcode, .olen] (ready .sxtDec [0x45, 0x3D, 0x45, 0x45]) = some ([6, 3, 0], []) := by decide

set_option maxRecDepth 8000 in
/-- V-CA6: an output that fits exactly. -/
theorem test_dflStore :
    observe [.status, .olen] (small .dflStore [0x61, 0x62, 0x63]) =
      some ([2, 8], [0x01, 0x03, 0x00, 0xFC, 0xFF, 0x61, 0x62, 0x63]) := by decide

set_option maxRecDepth 8000 in
/-- V-DE4g's two blocks. -/
theorem test_dflUnstore :
    observe [.status, .olen]
      (ready .dflUnstore [0x00, 0x01, 0x00, 0xFE, 0xFF, 0x48, 0x01, 0x01, 0x00, 0xFE, 0xFF, 0x69]) =
      some ([2, 2], [0x48, 0x69]) := by decide

set_option maxRecDepth 8000 in
/-- X18: a Huffman-coded block. -/
theorem test_dflUnstore_huffman :
    observe [.status, .errcode, .olen] (ready .dflUnstore [0x03, 0x00]) = some ([6, 8, 0], []) := by decide

set_option maxRecDepth 8000 in
/-- V-EN2 (the input of V-DE1). -/
theorem test_encode :
    observe [.status, .olen, .crc, .crcStored, .crcComputed, .flags]
      (ready (.encode false) [0x48, 0x65, 0x6C, 0x6C, 0x6F]) =
      some ([2, 14, 0xDADA, 0xDADA, 0xDADA, 0],
        [0x64, 0x78, 0x45, 0x4A, 0x76, 0x65, 0x57, 0x43, 0x52, 0x6F, 0x66, 0x43, 0x34, 0x3D]) := by decide

set_option maxRecDepth 8000 in
/-- V-CA1: raised by emit, after the checksum registers were written. -/
theorem test_encode_capacity :
    observe [.status, .errcode, .olen, .crc, .crcStored]
      (small (.encode false) [0x48, 0x65, 0x6C, 0x6C, 0x6F]) =
      some ([6, 9, 0, 0xDADA, 0xDADA], []) := by decide

set_option maxRecDepth 8000 in
/-- V-EN5. -/
theorem test_encodeTtl :
    observe [.status, .olen, .flags, .info, .ttlCreated, .ttlSeconds, .expiresLo]
      { ready (.encodeTtl true) [0x48, 0x69] with nows := 0x65000000, ttlArg := 60 } =
      some ([2, 22, 4, 0x0C, 0x65000000, 60, 0x6500003C],
        [0x64, 0x78, 0x46, 0x43, 0x58, 0x68, 0x64, 0x55, 0x45, 0x45, 0x45, 0x45, 0x45, 0x45, 0x45, 0x48, 0x31, 0x4D, 0x65, 0x55, 0x3D, 0x3D]) := by decide

set_option maxRecDepth 8000 in
/-- V-EN11: an expiry of 33 bits. -/
theorem test_encodeTtl_wide :
    (observe [.status, .info, .expiresLo]
      { ready (.encodeTtl false) [0x48, 0x69] with nows := 0xFFFFFFF0, ttlArg := 0x20 }).map (·.1) =
      some [2, 0x2C, 0x10] := by decide

set_option maxRecDepth 8000 in
/-- V-DE4d: a compressed frame whose original-size field is wrong. -/
theorem test_decode :
    observe [.status, .olen, .crc, .flags, .info, .origSize]
      (ready (.decode false) [0x64, 0x78, 0x45, 0x79, 0x58, 0x68, 0x45, 0x45, 0x51, 0x46, 0x45, 0x6B, 0x48, 0x35, 0x37, 0x77, 0x6C, 0x74]) =
      some ([2, 2, 0x64E5, 3, 3, 5], [0x48, 0x69]) := by decide

set_option maxRecDepth 8000 in
/-- V-TT3: an expired text decoded with NT = 1. -/
theorem test_decode_nt :
    observe [.status, .olen, .info, .expiresLo]
      { ready (.decode true) [0x64, 0x78, 0x46, 0x43, 0x58, 0x68, 0x64, 0x55, 0x45, 0x45, 0x45, 0x45, 0x45, 0x45, 0x45, 0x48, 0x31, 0x4D, 0x65, 0x55, 0x3D, 0x3D] with nows := 0x6500003D } =
      some ([2, 2, 0x1C, 0x6500003C], [0x48, 0x69]) := by decide

set_option maxRecDepth 8000 in
/-- V-IN2: a checksum that differs is an answer. -/
theorem test_inspect :
    observe [.status, .errcode, .result, .crcStored, .crcComputed, .olen]
      (ready .inspect [0x64, 0x78, 0x45, 0x4A, 0x76, 0x66, 0x57, 0x43, 0x52, 0x6F, 0x66, 0x43, 0x34, 0x3D]) = some ([2, 0, 0, 0xDADB, 0xDADA, 0], []) := by decide

set_option maxRecDepth 8000 in
/-- V-IN3. -/
theorem test_inspect_flags :
    observe [.status, .errcode, .flags, .crcStored, .crc] (ready .inspect [0x64, 0x78, 0x47, 0x4C, 0x37, 0x37]) =
      some ([6, 4, 8, 0, 0xFFFF], []) := by decide

set_option maxRecDepth 8000 in
/-- V-TT4b: the time equal to the expiry. -/
theorem test_verify :
    observe [.status, .result, .info, .crc]
      { ready .verify [0x64, 0x78, 0x46, 0x43, 0x58, 0x68, 0x64, 0x55, 0x45, 0x45, 0x45, 0x45, 0x45, 0x45, 0x45, 0x48, 0x31, 0x4D, 0x65, 0x55, 0x3D, 0x3D] with nows := 0x6500003C } =
      some ([2, 1, 0x0C, 0x64E5], []) := by decide

set_option maxRecDepth 8000 in
/-- V-TT4: one second later. -/
theorem test_verify_expired :
    observe [.status, .errcode, .result, .info, .crcStored, .crcComputed, .crc]
      { ready .verify [0x64, 0x78, 0x46, 0x43, 0x58, 0x68, 0x64, 0x55, 0x45, 0x45, 0x45, 0x45, 0x45, 0x45, 0x45, 0x48, 0x31, 0x4D, 0x65, 0x55, 0x3D, 0x3D] with nows := 0x6500003D } =
      some ([6, 6, 0, 0x1C, 0x64E5, 0, 0xFFFF], []) := by decide

set_option maxRecDepth 8000 in
/-- V-VA14: a reserved flag bit is not looked at. -/
theorem test_validate :
    observe [.status, .result, .flags, .crc] (ready .validate [0x64, 0x78, 0x47, 0x4C, 0x37, 0x37]) =
      some ([2, 1, 0, 0xFFFF], []) := by decide

set_option maxRecDepth 8000 in
/-- V-VA7. -/
theorem test_validate_padding :
    observe [.status, .errcode, .result] (ready .validate [0x64, 0x78, 0x45, 0x45, 0x3D, 0x45]) = some ([2, 0, 0], []) := by decide

set_option maxRecDepth 8000 in
/-- V-TT9: INFO of a text whose expiry has 33 bits. -/
theorem test_info :
    observe [.status, .info, .ttlCreated, .ttlSeconds, .expiresLo, .crcStored, .crc]
      { ready .info [0x64, 0x78, 0x46, 0x43, 0x58, 0x68, 0x37, 0x37, 0x37, 0x37, 0x34, 0x45, 0x45, 0x45, 0x45, 0x47, 0x46, 0x4D, 0x65, 0x55, 0x3D, 0x3D] with nows := 0xFFFFFFFF } =
      some ([2, 0x2C, 0xFFFFFFF0, 0x20, 0x10, 0x64E5, 0xFFFF], []) := by decide

set_option maxRecDepth 8000 in
/-- V-IF8. -/
theorem test_info_short_ttl :
    observe [.status, .errcode, .flags, .crcStored, .info] (ready .info [0x64, 0x78, 0x46, 0x4C, 0x37, 0x37, 0x45, 0x45, 0x45, 0x3D]) =
      some ([6, 3, 4, 0xFFFF, 0], []) := by decide

set_option maxRecDepth 8000 in
/-- V-SY11: a CMD write while BUSY = 1. -/
theorem test_busy_write_ignored :
    observe [.status, .cmd] { ready (.encode false) [] with events := [.host (.regWrite 0 1)] } =
      some ([1, 0x40], []) := by decide

set_option maxRecDepth 8000 in
/-- From reset the placed word is the next command the engine completes. -/
theorem test_withFetchWord :
    observe [.status, .cmd, .olen] (State.reset.withFetchWord 32 0x40) = some ([2, 0x40, 6], [0x64, 0x78, 0x45, 0x4C, 0x37, 0x37]) := by decide

/-! ### Witnesses: for each statement with hypotheses, a state and operands that meet all of them -/

/-- `pending` holds its input when it fits. -/
theorem pending_hasInput (p : Params) (i : Instr) (inp : List Byte) (h : inp.length ≤ p.ibufSize)
    (h32 : inp.length < 2 ^ 32) : HasInput (pending p i inp) inp where
  length := by
    show (BitVec.ofNat 32 inp.length).toNat = inp.length
    rw [BitVec.toNat_ofNat]; exact Nat.mod_eq_of_lt h32
  fits := h
  bytes k hk := by
    show (Memory.writeRange [] 0 inp).read k = inp[k]?
    exact Memory.read_writeRange_nil inp k

/-- The time of the command set to `v`. -/
abbrev at_ (v : Word) (s : State) : State := { s with nows := v }

theorem at_hasInput {v : Word} {s : State} {inp : List Byte} (h : HasInput s inp) :
    HasInput (at_ v s) inp := ⟨h.length, h.fits, h.bytes⟩

/-- V-EN5's text, its frame, and the frames of V-DE1, V-DE15, V-DE4e, V-DE13. -/
def text60 : List Byte :=
  [0x64, 0x78, 0x46, 0x43, 0x58, 0x68, 0x64, 0x55, 0x45, 0x45, 0x45, 0x45, 0x45, 0x45, 0x45, 0x48, 0x31, 0x4D, 0x65, 0x55, 0x3D, 0x3D]
def frame60 : Frame := ⟨0x04, 0x64E5, 0x65000000, 60, [0x48, 0x69]⟩
def textHello : List Byte := [0x64, 0x78, 0x45, 0x4A, 0x76, 0x65, 0x57, 0x43, 0x52, 0x6F, 0x66, 0x43, 0x34, 0x3D]
def frameHello : Frame := ⟨0x00, 0xDADA, 0, 0, [0x48, 0x65, 0x6C, 0x6C, 0x6F]⟩
def textWrong : List Byte := [0x64, 0x78, 0x45, 0x4A, 0x76, 0x66, 0x57, 0x43, 0x52, 0x6F, 0x66, 0x43, 0x34, 0x3D]
def frameWrong : Frame := ⟨0x00, 0xDADB, 0, 0, [0x48, 0x65, 0x6C, 0x6C, 0x6F]⟩
def textPacked : List Byte :=
  [0x64, 0x78, 0x46, 0x79, 0x58, 0x68, 0x64, 0x55, 0x45, 0x45, 0x45, 0x45, 0x45, 0x45, 0x45, 0x48, 0x30, 0x45, 0x45, 0x6B, 0x41, 0x47, 0x45, 0x4C, 0x7A, 0x37, 0x57, 0x43, 0x67, 0x3D]
def framePacked : Frame :=
  ⟨0x07, 0x64E5, 0x65000000, 60, [0x00, 0x02, 0x01, 0x02, 0x00, 0xFD, 0xFF, 0x48, 0x69]⟩
def textEmptyStream : List Byte := [0x64, 0x78, 0x45, 0x79, 0x58, 0x68, 0x45, 0x45, 0x4D, 0x3D]
def frameEmptyStream : Frame := ⟨0x03, 0x64E5, 0, 0, [0x00, 0x02]⟩
def textHuffman : List Byte := [0x64, 0x78, 0x45, 0x79, 0x58, 0x68, 0x45, 0x45, 0x4D, 0x48, 0x45, 0x45, 0x3D, 0x3D]
def frameHuffman : Frame := ⟨0x03, 0x64E5, 0, 0, [0x00, 0x02, 0x03, 0x00]⟩
def textShortPayload : List Byte := [0x64, 0x78, 0x45, 0x62, 0x37, 0x37, 0x45, 0x45, 0x3D, 0x3D]
def frameShortPayload : Frame := ⟨0x01, 0xFFFF, 0, 0, [0x00]⟩

set_option maxRecDepth 8000 in
theorem carries60 : Carries testParams text60 frame60.envelope :=
  ⟨text60.drop 2, by decide, by decide⟩

theorem legal60 : frame60.Legal := ⟨by decide, by decide⟩

set_option maxRecDepth 8000 in
theorem carriesHello : Carries testParams textHello frameHello.envelope :=
  ⟨textHello.drop 2, by decide, by decide⟩

theorem legalHello : frameHello.Legal := ⟨by decide, by decide⟩

set_option maxRecDepth 8000 in
theorem carriesWrong : Carries testParams textWrong frameWrong.envelope :=
  ⟨textWrong.drop 2, by decide, by decide⟩

theorem legalWrong : frameWrong.Legal := ⟨by decide, by decide⟩

set_option maxRecDepth 8000 in
theorem carriesPacked : Carries testParams textPacked framePacked.envelope :=
  ⟨textPacked.drop 2, by decide, by decide⟩

theorem legalPacked : framePacked.Legal := ⟨by decide, by decide⟩

set_option maxRecDepth 8000 in
theorem carriesEmptyStream : Carries testParams textEmptyStream frameEmptyStream.envelope :=
  ⟨textEmptyStream.drop 2, by decide, by decide⟩

theorem legalEmptyStream : frameEmptyStream.Legal := ⟨by decide, by decide⟩

set_option maxRecDepth 8000 in
theorem carriesHuffman : Carries testParams textHuffman frameHuffman.envelope :=
  ⟨textHuffman.drop 2, by decide, by decide⟩

theorem legalHuffman : frameHuffman.Legal := ⟨by decide, by decide⟩

set_option maxRecDepth 8000 in
theorem carriesShortPayload : Carries testParams textShortPayload frameShortPayload.envelope :=
  ⟨textShortPayload.drop 2, by decide, by decide⟩

theorem legalShortPayload : frameShortPayload.Legal := ⟨by decide, by decide⟩

theorem holds60 : frame60.Holds 0 [0x48, 0x69] := by simp [Frame.Holds, frame60]
theorem holdsHello : frameHello.Holds 0 [0x48, 0x65, 0x6C, 0x6C, 0x6F] := by simp [Frame.Holds, frameHello]
theorem holdsWrong : frameWrong.Holds 0 [0x48, 0x65, 0x6C, 0x6C, 0x6F] := by simp [Frame.Holds, frameWrong]
theorem holdsPacked : framePacked.Holds 2 [0x48, 0x69] :=
  ⟨[0x01, 0x02, 0x00, 0xFD, 0xFF, 0x48, 0x69], by decide, by decide⟩

set_option maxRecDepth 8000 in
theorem witness_StepRunsPendingCommand :
    (ready .nop []).busy = true ∧ decode ((ready .nop []).get .cmd) = .ok .nop ∧ (ready .nop []).events = [] ∧
    ({ ready .nop [] with events := [.engine] } : State).events = .engine :: [] :=
  by decide

set_option maxRecDepth 8000 in
theorem witness_IllegalWordFinishesWithIllegalCmd :
    ({ ready .nop [] with cmd := 0x00000243 } : State).busy = true ∧
    ({ ready .nop [] with cmd := 0x00000243 } : State).events = [] ∧
    ∀ r ∈ opcodeTable, ({ ready .nop [] with cmd := 0x00000243 } : State).get .cmd &&& r.mask ≠ r.pattern :=
  ⟨by decide, by decide, by simp [opcodeTable, State.get]⟩

set_option maxRecDepth 8000 in
theorem witness_DecodeEncodeAgree :
    (Instr.decode true).wf = true ∧ decode 0x00000242 = .ok (.decode true) :=
  by decide

set_option maxRecDepth 8000 in
/-- A word on each side of the equivalence. -/
theorem witness_LegalWordsExactly :
    (∃ i, decode 0x00000242 = .ok i) ∧ ¬ ∃ i, decode 0x00000243 = .ok i :=
  ⟨⟨.decode true, by decide⟩, fun ⟨i, h⟩ => by
    have e : decode 0x00000243 = .error .ntNotAnOption := by decide
    rw [e] at h; cases h⟩

set_option maxRecDepth 8000 in
/-- A word of the row with an option bit. -/
theorem witness_OpcodeMap :
    (0x00000242 : Word) &&& 0xFFFFFDFF = 0x00000042 ∧ (0x00000242 : Word).getLsbD 9 = true ∧
    decode 0x00000242 = .ok (.decode true) :=
  by decide

set_option maxRecDepth 8000 in
/-- A burst of exactly 16 bits, at the highest place. -/
theorem witness_ChecksumDetectsBursts :
    (8 ≤ 8 ∧ (0x8001 : BitVec 16) ≠ 0 ∧
      ((0x80 : Byte) ++ (0x01 : Byte) ++ (0x00 : Byte) : BitVec 24) ^^^ ((0x00 : Byte) ++ (0x00 : Byte) ++ (0x00 : Byte)) =
        (0x8001 : BitVec 16).setWidth 24 <<< 8) ∧
    ([0x00, 0x01] : List Byte).length = ([0x00, 0x00] : List Byte).length ∧
    ([0x00, 0x01] : List Byte).length ≤ 2 ∧ ([0x00, 0x01] : List Byte) ≠ [0x00, 0x00] :=
  by decide

set_option maxRecDepth 8000 in
/-- V-SD4 and V-SD7: a text with its discarded bits zero and one without. -/
theorem witness_SextetRoundTrip :
    testParams.wf = true ∧ sxtDec testParams [0x58, 0x53, 0x42, 0x71] = .ok [0x4D, 0x61, 0x6E] ∧
    sxtDec testParams [0x45, 0x46, 0x3D, 0x3D] = .ok [0x00] :=
  by decide

set_option maxRecDepth 8000 in
theorem witness_SextetDecodeDomain :
    testParams.wf = true ∧ LegalText testParams [] ∧ LegalText testParams [0x45, 0x45, 0x3D, 0x3D] ∧
    ¬ LegalText testParams [0x45, 0x45, 0x3D] ∧ ¬ LegalText testParams [0x45, 0x3D, 0x45, 0x45] ∧ ¬ LegalText testParams [0x45, 0x45, 0x3D, 0x45] ∧
    ¬ LegalText testParams [0x41, 0x41, 0x21, 0x21] ∧
    (amap testParams 0x45).isSome ∧ (amap testParams 0x46).isSome ∧
    sextetValue testParams 0x45 >>> 4 = sextetValue testParams 0x46 >>> 4 ∧
    sextetValue testParams 0x45 >>> 2 = sextetValue testParams 0x46 >>> 2 ∧
    sextetValue testParams 0x45 ≠ sextetValue testParams 0x46 :=
  by simp only [← textLegal_iff]; decide

set_option maxRecDepth 8000 in
/-- The longest input, and the shortest stream. -/
theorem witness_StoredBlockRoundTrip :
    (List.replicate 65535 (0x00 : Byte)).length ≤ 65535 ∧ dflUnstore [0x01, 0x00, 0x00, 0xFF, 0xFF] = .ok [] :=
  ⟨List.length_replicate.le, by decide⟩

set_option maxRecDepth 8000 in
/-- A header byte of each kind, and lengths on both sides of each test. -/
theorem witness_StoredStreamByBlocks :
    (0x03 : Byte).toNat / 2 % 4 = 1 ∧ (0x05 : Byte).toNat / 2 % 4 = 2 ∧ (0x07 : Byte).toNat / 2 % 4 = 3 ∧
    (0xF9 : Byte).toNat / 2 % 4 = 0 ∧ ([0x00, 0x00, 0xFF] : List Byte).length < 4 ∧
    (0x02 : Byte).toNat + 256 * (0x00 : Byte).toNat + ((0xFC : Byte).toNat + 256 * (0xFF : Byte).toNat) ≠ 0xFFFF ∧
    ([0x48] : List Byte).length < (0x02 : Byte).toNat + 256 * (0x00 : Byte).toNat ∧
    (0x01 : Byte).toNat + 256 * (0x00 : Byte).toNat + ((0xFE : Byte).toNat + 256 * (0xFF : Byte).toNat) = 0xFFFF ∧
    ([0x48] : List Byte).length = (0x01 : Byte).toNat + 256 * (0x00 : Byte).toNat ∧
    (0x01 : Byte).toNat % 2 = 1 ∧ (0xF8 : Byte).toNat % 2 = 0 :=
  by decide

set_option maxRecDepth 8000 in
theorem witness_CompressedFormNeverEmitted :
    (∃ t, exec (.encode true) (ready .nop []) = .next t) ∧
    ∃ t, exec (.encodeTtl false) (ready .nop []) = .next t ∧ t.get .status = 2 :=
  ⟨⟨_, rfl⟩, ⟨_, rfl, by decide⟩⟩

set_option maxRecDepth 8000 in
theorem witness_CrcUpdateFoldsInput :
    HasInput (ready .crcUpdate [0x31, 0x32, 0x33, 0x34, 0x35]) [0x31, 0x32, 0x33, 0x34, 0x35] :=
  pending_hasInput _ .crcUpdate _ (by decide) (by decide)

set_option maxRecDepth 8000 in
theorem witness_CrcCalcComputesChecksum :
    HasInput (ready .crcCalc [0x48, 0x69]) [0x48, 0x69] :=
  pending_hasInput _ .crcCalc _ (by decide) (by decide)

set_option maxRecDepth 8000 in
/-- V-VA6 and V-VA5: envelopes of exactly 3 bytes and of 2. -/
theorem witness_ValidateAnswersStructure :
    HasInput (ready .validate [0x64, 0x78, 0x45, 0x45, 0x45, 0x45]) [0x64, 0x78, 0x45, 0x45, 0x45, 0x45] ∧ StructurallyValid testParams [0x64, 0x78, 0x45, 0x45, 0x45, 0x45] ∧
    HasInput (ready .validate [0x64, 0x78, 0x45, 0x45, 0x45, 0x3D]) [0x64, 0x78, 0x45, 0x45, 0x45, 0x3D] ∧ ¬ StructurallyValid testParams [0x64, 0x78, 0x45, 0x45, 0x45, 0x3D] :=
  ⟨pending_hasInput _ .validate _ (by decide) (by decide), ⟨[0x45, 0x45, 0x45, 0x45], rfl, by rw [← textLegal_iff]; decide, by decide⟩,
    pending_hasInput _ .validate _ (by decide) (by decide), by
      rintro ⟨u, h, -, h3⟩
      obtain rfl : [0x45, 0x45, 0x45, 0x3D] = u := by simpa using h
      exact absurd h3 (by decide)⟩

set_option maxRecDepth 8000 in
/-- V-CA5: an output that fits exactly. -/
theorem witness_SxtEncEmitsText :
    HasInput (small .sxtEnc [0x61, 0x62, 0x63, 0x64, 0x65, 0x66]) [0x61, 0x62, 0x63, 0x64, 0x65, 0x66] ∧
    4 * ((([0x61, 0x62, 0x63, 0x64, 0x65, 0x66] : List Byte).length + 2) / 3) ≤ (small .sxtEnc [0x61, 0x62, 0x63, 0x64, 0x65, 0x66]).params.obufSize :=
  ⟨pending_hasInput _ .sxtEnc _ (by decide) (by decide), by decide⟩

set_option maxRecDepth 8000 in
/-- V-SD3. -/
theorem witness_SxtDecEmitsBytes :
    HasInput (ready .sxtDec [0x58, 0x53, 0x41, 0x3D]) [0x58, 0x53, 0x41, 0x3D] ∧ sxtDec (ready .sxtDec [0x58, 0x53, 0x41, 0x3D]).params [0x58, 0x53, 0x41, 0x3D] = .ok [0x4D, 0x61] ∧
    ([0x4D, 0x61] : List Byte).length ≤ (ready .sxtDec [0x58, 0x53, 0x41, 0x3D]).params.obufSize :=
  ⟨pending_hasInput _ .sxtDec _ (by decide) (by decide), by decide, by decide⟩

/-- A block with room for the longest input of DFL_STORE and one byte more. -/
abbrev wide (i : Instr) (inp : List Byte) : State :=
  pending { testParams with ibufSize := 65536, obufSize := 65540 } i inp

set_option maxRecDepth 8000 in
/-- V-CA6, and inputs of 65535 and 65536 bytes. -/
theorem witness_DflStoreEmitsStoredBlock :
    (HasInput (small .dflStore [0x61, 0x62, 0x63]) [0x61, 0x62, 0x63] ∧ ([0x61, 0x62, 0x63] : List Byte).length + 5 ≤ (small .dflStore [0x61, 0x62, 0x63]).params.obufSize) ∧
    (HasInput (wide .dflStore (List.replicate 65535 0)) (List.replicate 65535 0) ∧
      (List.replicate 65535 (0 : Byte)).length + 5 ≤ 65540) ∧
    (HasInput (wide .dflStore (List.replicate 65536 0)) (List.replicate 65536 0) ∧
      65535 < (List.replicate 65536 (0 : Byte)).length) :=
  ⟨⟨pending_hasInput _ .dflStore _ (by decide) (by decide), by decide⟩,
    ⟨pending_hasInput _ _ _ (List.length_replicate.le.trans (by decide))
      (List.length_replicate.trans_lt (by omega)),
      (congrArg (· + 5) (List.length_replicate (n := 65535) (a := (0 : Byte)))).le⟩,
    ⟨pending_hasInput _ _ _ (List.length_replicate.le.trans (by decide))
      (List.length_replicate.trans_lt (by omega)),
      (List.length_replicate (n := 65536) (a := (0 : Byte))).symm.le⟩⟩

set_option maxRecDepth 8000 in
theorem witness_DflUnstoreEmitsData :
    HasInput (ready .dflUnstore [0x01, 0x02, 0x00, 0xFD, 0xFF, 0x48, 0x69]) [0x01, 0x02, 0x00, 0xFD, 0xFF, 0x48, 0x69] ∧ dflUnstore [0x01, 0x02, 0x00, 0xFD, 0xFF, 0x48, 0x69] = .ok [0x48, 0x69] ∧
    ([0x48, 0x69] : List Byte).length ≤ 1024 ∧
    HasInput (ready .dflUnstore [0x03]) [0x03] ∧ dflUnstore [0x03] = .error .unsupported ∧
    HasInput (ready .dflUnstore []) [] ∧ dflUnstore [] = .error .compression :=
  ⟨pending_hasInput _ .dflUnstore _ (by decide) (by decide), by decide, by decide,
    pending_hasInput _ .dflUnstore _ (by decide) (by decide), by decide, pending_hasInput _ .dflUnstore _ (by decide) (by decide), by decide⟩

set_option maxRecDepth 8000 in
theorem witness_EncodeEmitsFrame :
    HasInput (ready (.encode true) [0x48, 0x65, 0x6C, 0x6C, 0x6F]) [0x48, 0x65, 0x6C, 0x6C, 0x6F] ∧
    2 + 4 * ((3 + ([0x48, 0x65, 0x6C, 0x6C, 0x6F] : List Byte).length + 2) / 3) ≤ 1024 :=
  ⟨pending_hasInput _ _ _ (by decide) (by decide), by decide⟩

set_option maxRecDepth 8000 in
theorem witness_EncodeTtlEmitsFrame :
    HasInput (ready (.encodeTtl false) [0x48, 0x69]) [0x48, 0x69] ∧
    2 + 4 * ((11 + ([0x48, 0x69] : List Byte).length + 2) / 3) ≤ 1024 :=
  ⟨pending_hasInput _ _ _ (by decide) (by decide), by decide⟩

set_option maxRecDepth 8000 in
/-- V-TT1 (the time equal to the expiry) and V-DE4e (compressed, NT = 1). -/
theorem witness_DecodeReturnsOriginal :
    (HasInput (at_ 0x6500003C (ready (.decode false) text60)) text60 ∧
      Carries testParams text60 frame60.envelope ∧ frame60.Legal ∧ frame60.Holds 0 [0x48, 0x69] ∧
      frame60.stored = crc16 [0x48, 0x69] ∧ ¬ frame60.Expired 0x6500003C) ∧
    (HasInput (at_ 0xFFFFFFFF (ready (.decode true) textPacked)) textPacked ∧
      Carries testParams textPacked framePacked.envelope ∧ framePacked.Legal ∧
      framePacked.Holds 2 [0x48, 0x69] ∧ framePacked.stored = crc16 [0x48, 0x69]) :=
  ⟨⟨at_hasInput (pending_hasInput _ _ _ (by decide) (by decide)), carries60, legal60, holds60, by decide, by decide⟩,
    ⟨at_hasInput (pending_hasInput _ _ _ (by decide) (by decide)), carriesPacked, legalPacked, holdsPacked, by decide⟩⟩

set_option maxRecDepth 8000 in
/-- V-IN2. -/
theorem witness_InspectShowsBothChecksums :
    HasInput (ready .inspect textWrong) textWrong ∧ Carries testParams textWrong frameWrong.envelope ∧
    frameWrong.Legal ∧ frameWrong.Holds 0 [0x48, 0x65, 0x6C, 0x6C, 0x6F] :=
  ⟨pending_hasInput _ _ _ (by decide) (by decide), carriesWrong, legalWrong, holdsWrong⟩

set_option maxRecDepth 8000 in
/-- V-TT4b. -/
theorem witness_VerifyAnswersMatch :
    HasInput (at_ 0x6500003C (ready .verify text60)) text60 ∧ Carries testParams text60 frame60.envelope ∧
    frame60.Legal ∧ frame60.Holds 0 [0x48, 0x69] ∧ ¬ frame60.Expired 0x6500003C :=
  ⟨at_hasInput (pending_hasInput _ _ _ (by decide) (by decide)), carries60, legal60, holds60, by decide⟩

set_option maxRecDepth 8000 in
/-- V-IF5. -/
theorem witness_InfoShowsHeader :
    HasInput (ready .info textHuffman) textHuffman ∧ Carries testParams textHuffman frameHuffman.envelope ∧
    frameHuffman.Legal :=
  ⟨pending_hasInput _ _ _ (by decide) (by decide), carriesHuffman, legalHuffman⟩

set_option maxRecDepth 8000 in
/-- One byte more than IBUF_SIZE. -/
theorem witness_InputOverCapacityRaises :
    readsInput .crcCalc = true ∧
    ({ ready .crcCalc [] with ilen := 1025 } : State).params.ibufSize <
      (({ ready .crcCalc [] with ilen := 1025 } : State).get .ilen).toNat :=
  by decide

set_option maxRecDepth 8000 in
theorem witness_UnwrittenInputFaults :
    readsInput .sxtEnc = true ∧ (({ ready .sxtEnc [0] with ilen := 2 } : State).get .ilen).toNat ≤ 1024 ∧
    1 < (({ ready .sxtEnc [0] with ilen := 2 } : State).get .ilen).toNat ∧
    ({ ready .sxtEnc [0] with ilen := 2 } : State).ibuf.read 1 = none :=
  by decide

/-- A block whose output buffer is the smallest, two bytes. -/
abbrev tight (i : Instr) (inp : List Byte) : State := pending { testParams with obufSize := 2 } i inp

set_option maxRecDepth 8000 in
/-- V-CA1, V-CA3, V-CA4 and outputs of 3 bytes into 2. -/
theorem witness_OutputOverCapacityRaises :
    (HasInput (small .sxtEnc [0x61, 0x62, 0x63, 0x64, 0x65, 0x66, 0x67]) [0x61, 0x62, 0x63, 0x64, 0x65, 0x66, 0x67] ∧ 8 < 4 * ((([0x61, 0x62, 0x63, 0x64, 0x65, 0x66, 0x67] : List Byte).length + 2) / 3)) ∧
    (HasInput (tight .sxtDec [0x58, 0x53, 0x42, 0x71]) [0x58, 0x53, 0x42, 0x71] ∧ sxtDec testParams [0x58, 0x53, 0x42, 0x71] = .ok [0x4D, 0x61, 0x6E] ∧
      2 < ([0x4D, 0x61, 0x6E] : List Byte).length) ∧
    (HasInput (small .dflStore [0x61, 0x62, 0x63, 0x64]) [0x61, 0x62, 0x63, 0x64] ∧ 8 < ([0x61, 0x62, 0x63, 0x64] : List Byte).length + 5) ∧
    (HasInput (tight .dflUnstore [0x01, 0x03, 0x00, 0xFC, 0xFF, 0x61, 0x62, 0x63]) [0x01, 0x03, 0x00, 0xFC, 0xFF, 0x61, 0x62, 0x63] ∧
      dflUnstore [0x01, 0x03, 0x00, 0xFC, 0xFF, 0x61, 0x62, 0x63] = .ok [0x61, 0x62, 0x63] ∧ 2 < ([0x61, 0x62, 0x63] : List Byte).length) ∧
    (HasInput (small (.encode false) [0x48, 0x65, 0x6C, 0x6C, 0x6F]) [0x48, 0x65, 0x6C, 0x6C, 0x6F] ∧ 8 < 2 + 4 * ((3 + ([0x48, 0x65, 0x6C, 0x6C, 0x6F] : List Byte).length + 2) / 3)) ∧
    (HasInput (small (.encodeTtl false) []) [] ∧ 8 < 2 + 4 * ((11 + ([] : List Byte).length + 2) / 3)) ∧
    (HasInput (tight (.decode false) textHello) textHello ∧ Carries testParams textHello frameHello.envelope ∧
      frameHello.Legal ∧ frameHello.Holds 0 [0x48, 0x65, 0x6C, 0x6C, 0x6F] ∧
      frameHello.stored = crc16 [0x48, 0x65, 0x6C, 0x6C, 0x6F] ∧ ¬ frameHello.Expired 0 ∧
      2 < ([0x48, 0x65, 0x6C, 0x6C, 0x6F] : List Byte).length) :=
  ⟨⟨pending_hasInput _ _ _ (by decide) (by decide), by decide⟩, ⟨pending_hasInput _ _ _ (by decide) (by decide), by decide, by decide⟩,
    ⟨pending_hasInput _ _ _ (by decide) (by decide), by decide⟩, ⟨pending_hasInput _ _ _ (by decide) (by decide), by decide, by decide⟩,
    ⟨pending_hasInput _ _ _ (by decide) (by decide), by decide⟩, ⟨pending_hasInput _ _ _ (by decide) (by decide), by decide⟩,
    ⟨pending_hasInput _ _ _ (by decide) (by decide), carriesHello, legalHello, holdsHello, by decide, by decide, by decide⟩⟩

set_option maxRecDepth 8000 in
/-- V-DE5b, V-DE5c, and the marker's bytes in the wrong order. -/
theorem witness_MissingMarkRaises :
    HasInput (ready .info []) [] ∧ HasInput (ready .info [0x64]) [0x64] ∧
    (¬ ∃ u, ([] : List Byte) = 0x64 :: 0x78 :: u) ∧ (¬ ∃ u, ([0x64] : List Byte) = 0x64 :: 0x78 :: u) ∧
    ¬ ∃ u, [0x78, 0x64, 0x45] = (0x64 :: 0x78 :: u : List Byte) :=
  ⟨pending_hasInput _ _ _ (by decide) (by decide), pending_hasInput _ _ _ (by decide) (by decide), by simp, by simp, by simp⟩

set_option maxRecDepth 8000 in
/-- V-VA7, V-DE9, V-DE7b, V-DE11b and V-DE12. -/
theorem witness_MalformedTextRaisesFormat :
    (HasInput (ready .sxtDec [0x45, 0x45, 0x3D, 0x45]) [0x45, 0x45, 0x3D, 0x45] ∧ ¬ LegalText testParams [0x45, 0x45, 0x3D, 0x45]) ∧
    (HasInput (ready .info [0x64, 0x78, 0x45, 0x4C, 0x37]) [0x64, 0x78, 0x45, 0x4C, 0x37] ∧ ¬ LegalText testParams [0x45, 0x4C, 0x37]) ∧
    (HasInput (ready .info [0x64, 0x78, 0x45, 0x45, 0x45, 0x3D]) [0x64, 0x78, 0x45, 0x45, 0x45, 0x3D] ∧ sxtDec testParams [0x45, 0x45, 0x45, 0x3D] = .ok [0, 0] ∧
      ([0, 0] : List Byte).length < 3) ∧
    (HasInput (ready .info [0x64, 0x78, 0x46, 0x4C, 0x37, 0x37, 0x45, 0x45, 0x45, 0x45, 0x45, 0x45, 0x45, 0x45, 0x45, 0x45, 0x3D, 0x3D]) [0x64, 0x78, 0x46, 0x4C, 0x37, 0x37, 0x45, 0x45, 0x45, 0x45, 0x45, 0x45, 0x45, 0x45, 0x45, 0x45, 0x3D, 0x3D] ∧
      Carries testParams [0x64, 0x78, 0x46, 0x4C, 0x37, 0x37, 0x45, 0x45, 0x45, 0x45, 0x45, 0x45, 0x45, 0x45, 0x45, 0x45, 0x3D, 0x3D] [0x04, 0xFF, 0xFF, 0x00, 0x00, 0x00, 0x00, 0x00, 0x00, 0x00] ∧
      [0x04, 0xFF, 0xFF, 0x00, 0x00, 0x00, 0x00, 0x00, 0x00, 0x00] = (0x04 :: (be16 0xFFFF ++ [0, 0, 0, 0, 0, 0, 0]) : List Byte) ∧
      (0x04 : Byte).toNat < 8 ∧ (0x04 : Byte).getLsbD 2 = true ∧ ([0, 0, 0, 0, 0, 0, 0] : List Byte).length < 8) ∧
    (HasInput (ready (.decode false) textShortPayload) textShortPayload ∧
      Carries testParams textShortPayload frameShortPayload.envelope ∧ frameShortPayload.Legal ∧
      frameShortPayload.flags.getLsbD 0 = true ∧ frameShortPayload.payload.length < 2 ∧
      ¬ frameShortPayload.Expired 0xFFFFFFFF) :=
  ⟨⟨pending_hasInput _ _ _ (by decide) (by decide), by rw [← textLegal_iff]; decide⟩, ⟨pending_hasInput _ _ _ (by decide) (by decide), by rw [← textLegal_iff]; decide⟩,
    ⟨pending_hasInput _ _ _ (by decide) (by decide), by decide, by decide⟩,
    ⟨pending_hasInput _ _ _ (by decide) (by decide), ⟨[0x46, 0x4C, 0x37, 0x37, 0x45, 0x45, 0x45, 0x45, 0x45, 0x45, 0x45, 0x45, 0x45, 0x45, 0x3D, 0x3D], by decide, by decide⟩, by decide, by decide, by decide, by decide⟩,
    ⟨pending_hasInput _ _ _ (by decide) (by decide), carriesShortPayload, legalShortPayload, by decide, by decide, by decide⟩⟩

set_option maxRecDepth 8000 in
/-- V-VE4: the lowest reserved bit. -/
theorem witness_ReservedFlagsRaise :
    HasInput (ready .verify [0x64, 0x78, 0x47, 0x4C, 0x37, 0x37]) [0x64, 0x78, 0x47, 0x4C, 0x37, 0x37] ∧ Carries testParams [0x64, 0x78, 0x47, 0x4C, 0x37, 0x37] [0x08, 0xFF, 0xFF] ∧
    (0x08 : Byte) &&& 0xF8 ≠ 0 :=
  ⟨pending_hasInput _ _ _ (by decide) (by decide), ⟨[0x47, 0x4C, 0x37, 0x37], by decide, by decide⟩, by decide⟩

set_option maxRecDepth 8000 in
/-- V-TT4: one second past the expiry. -/
theorem witness_ExpiredTextRaises :
    HasInput (at_ 0x6500003D (ready .verify text60)) text60 ∧ Carries testParams text60 frame60.envelope ∧
    frame60.Legal ∧ frame60.flags.getLsbD 2 = true ∧ frame60.Expired 0x6500003D :=
  ⟨at_hasInput (pending_hasInput _ _ _ (by decide) (by decide)), carries60, legal60, by decide, by decide⟩

set_option maxRecDepth 8000 in
/-- V-DE15. -/
theorem witness_ChecksumMismatchHandled :
    (HasInput (ready (.decode false) textWrong) textWrong ∧ Carries testParams textWrong frameWrong.envelope ∧
      frameWrong.Legal ∧ frameWrong.Holds 0 [0x48, 0x65, 0x6C, 0x6C, 0x6F] ∧
      frameWrong.stored ≠ crc16 [0x48, 0x65, 0x6C, 0x6C, 0x6F] ∧ ¬ frameWrong.Expired 0) ∧
    ∃ t, exec (.decode false) (ready (.decode false) textWrong) = .next t ∧ t.get .errcode = 5 :=
  ⟨⟨pending_hasInput _ _ _ (by decide) (by decide), carriesWrong, legalWrong, holdsWrong, by decide, by decide⟩, ⟨_, rfl, by decide⟩⟩

set_option maxRecDepth 8000 in
/-- V-DE13 and V-VE5. -/
theorem witness_DecompressionErrorsPropagate :
    (HasInput (ready .verify textEmptyStream) textEmptyStream ∧
      Carries testParams textEmptyStream frameEmptyStream.envelope ∧ frameEmptyStream.Legal ∧
      frameEmptyStream.flags.getLsbD 0 = true ∧ frameEmptyStream.payload = be16 2 ++ [] ∧
      dflUnstore [] = .error .compression ∧ ¬ frameEmptyStream.Expired 0) ∧
    (HasInput (ready .verify textHuffman) textHuffman ∧
      Carries testParams textHuffman frameHuffman.envelope ∧ frameHuffman.Legal ∧
      frameHuffman.flags.getLsbD 0 = true ∧ frameHuffman.payload = be16 2 ++ [0x03, 0x00] ∧
      dflUnstore [0x03, 0x00] = .error .unsupported ∧ ¬ frameHuffman.Expired 0) :=
  ⟨⟨pending_hasInput _ _ _ (by decide) (by decide), carriesEmptyStream, legalEmptyStream, by decide, by decide, by decide, by decide⟩,
    ⟨pending_hasInput _ _ _ (by decide) (by decide), carriesHuffman, legalHuffman, by decide, by decide, by decide, by decide⟩⟩

set_option maxRecDepth 8000 in
/-- Also the hypothesis of `ResultsZeroUnlessWritten`. -/
theorem witness_CommandErrorCodes :
    ∃ t, exec .info (ready .info [0x64, 0x78, 0x47, 0x4C, 0x37, 0x37]) = .next t ∧ t.get .errcode = 4 :=
  ⟨_, rfl, by decide⟩

set_option maxRecDepth 8000 in
theorem witness_CommandsKeepOperands :
    Instr.nop ≠ .sreset ∧ ∃ t, exec .nop (ready .nop []) = .next t :=
  ⟨by decide, _, rfl⟩

set_option maxRecDepth 8000 in
theorem witness_CrcRegisterKept :
    (∃ t, exec .validate (ready .validate []) = .next t) ∧
    ∃ t, exec .crcCalc (ready .crcCalc []) = .next t :=
  ⟨⟨_, rfl⟩, ⟨_, rfl⟩⟩

set_option maxRecDepth 8000 in
theorem witness_ResultsZeroUnlessWritten :
    ∃ t, exec .crcUpdate (ready .crcUpdate []) = .next t :=
  ⟨_, rfl⟩

set_option maxRecDepth 8000 in
theorem witness_TimeDoesNotMatter :
    dependsOnTime (.encode true) = false ∧ Instr.encode true ≠ .sreset :=
  by decide

/-- A block that is not in its reset state meets the invariant. -/
theorem pending_inv : (ready .nop [0x48, 0x69]).Inv where
  params := by decide
  status := by decide
  errOnCode := by decide
  errcode := by decide
  errOlen := by decide
  crc := by decide
  crcStored := by decide
  crcComputed := by decide
  flags := by decide
  info := by decide
  origSize := by decide
  result := by decide
  ibuf := by decide
  ibufBelow := by decide
  obuf := by decide
  obufBelow := by decide

set_option maxRecDepth 8000 in
theorem witness_StepKeepsInvariant :
    (ready .nop [0x48, 0x69]).Inv ∧ ∃ t, step (ready .nop [0x48, 0x69]) = .next t :=
  ⟨pending_inv, _, rfl⟩

set_option maxRecDepth 8000 in
theorem witness_ResetMeetsInvariant :
    ({ testParams with ibufSize := 2, obufSize := 2 } : Params).wf = true :=
  by decide

set_option maxRecDepth 8000 in
theorem witness_StepKeepsParameters :
    ∃ t, step { ready .nop [] with events := [.hardwareReset] } = .next t :=
  ⟨_, rfl⟩

set_option maxRecDepth 8000 in
theorem witness_EngineTurnCompletes :
    (ready .sreset [0x48]).busy = true ∧ (ready .sreset [0x48]).events = [] ∧
    (∀ a, a < ((ready .sreset [0x48]).get .ilen).toNat → (ready .sreset [0x48]).ibuf.read a ≠ none) ∧
    (ready .info [0x48]).busy = true ∧ (ready .info [0x48]).events = [] ∧
    (∀ a, a < ((ready .info [0x48]).get .ilen).toNat → (ready .info [0x48]).ibuf.read a ≠ none) ∧
    (ready .sreset [0x48]).get .cmd = 1 ∧ (ready .info [0x48]).get .cmd ≠ 1 :=
  by decide

set_option maxRecDepth 8000 in
theorem witness_OnlyHostAndResetChangeIbuf :
    ∃ t, step { State.reset with events := [.host (.bufWrite .ibuf 1023 7)] } = .next t ∧
    ∃ a, t.ibuf.read a ≠ State.reset.ibuf.read a :=
  ⟨_, rfl, 1023, by decide⟩

set_option maxRecDepth 8000 in
theorem witness_OnlyCmdWriteStartsCommand :
    ({ State.reset with events := [.host (.regWrite 0 7)] } : State).busy = false ∧
    ∃ t, step { State.reset with events := [.host (.regWrite 0 7)] } = .next t ∧ t.busy = true :=
  ⟨by decide, _, rfl, by decide⟩

set_option maxRecDepth 8000 in
/-- Also the hypothesis of `HostWritesRegisters`; 17 is the first index that is not implemented. -/
theorem witness_HostReadsRegisters :
    State.reset.busy = false ∧ 17 ≤ 17 :=
  by decide

set_option maxRecDepth 8000 in
theorem witness_HostWritesRegisters :
    State.reset.busy = false ∧ 17 ∉ [0, 3, 5, 9] ∧ 1 ∉ [0, 3, 5, 9] :=
  by decide

set_option maxRecDepth 8000 in
theorem witness_HostAccessesBuffers :
    State.reset.busy = false ∧ 1023 < State.reset.params.ibufSize ∧ 1023 < State.reset.params.obufSize ∧
    ({ State.reset with obuf := [(1023, 7)] } : State).obuf.read 1023 = some 7 ∧
    State.reset.params.ibufSize ≤ 1024 ∧ State.reset.params.obufSize ≤ 1024 :=
  by decide

set_option maxRecDepth 8000 in
theorem witness_BusyWindowAccesses :
    (ready .nop []).busy = true ∧ HostAccess.regRead 0 ≠ .regRead 1 ∧
    ∀ w, HostAccess.regRead 0 ≠ .regWrite 0 w :=
  ⟨by decide, by decide, fun _ => by simp⟩

set_option maxRecDepth 8000 in
/-- V-EN2 with V-DE1; V-EN5 with V-TT1, at the last second. -/
theorem witness_EncodeDecodeRoundTrip :
    (HasInput (ready (.encode false) [0x48, 0x65, 0x6C, 0x6C, 0x6F]) [0x48, 0x65, 0x6C, 0x6C, 0x6F] ∧
      2 + 4 * ((3 + ([0x48, 0x65, 0x6C, 0x6C, 0x6F] : List Byte).length + 2) / 3) ≤ 1024 ∧
      frameText testParams [0x48, 0x65, 0x6C, 0x6C, 0x6F] false none = textHello ∧
      HasInput (ready (.decode false) textHello) textHello) ∧
    (HasInput (at_ 0x65000000 { ready (.encodeTtl false) [0x48, 0x69] with ttlArg := 60 }) [0x48, 0x69] ∧
      2 + 4 * ((11 + ([0x48, 0x69] : List Byte).length + 2) / 3) ≤ 1024 ∧
      frameText testParams [0x48, 0x69] false (some (0x65000000, 60)) = text60 ∧
      HasInput (at_ 0x6500003C (ready (.decode false) text60)) text60 ∧
      (0x6500003C : Word).toNat ≤ (0x65000000 : Word).toNat + (60 : Word).toNat) :=
  ⟨⟨pending_hasInput _ _ _ (by decide) (by decide), by decide, by decide, pending_hasInput _ _ _ (by decide) (by decide)⟩,
    ⟨at_hasInput (s := { ready (.encodeTtl false) [0x48, 0x69] with ttlArg := 60 })
        ⟨by decide, by decide, fun k hk => (Memory.read_writeRange_nil _ k)⟩,
      by decide, by decide, at_hasInput (pending_hasInput _ _ _ (by decide) (by decide)), by decide⟩⟩

set_option maxRecDepth 8000 in
/-- V-TT8 and V-TT8b: ttl-seconds 1 at the last second and one later; V-EN10: ttl-seconds 0. -/
theorem witness_TtlTextExpiry :
    ({ ready (.encodeTtl false) [0x48, 0x69] with ttlArg := 1, nows := 0x65000000 } : State).params.wf = true ∧
    HasInput { ready (.encodeTtl false) [0x48, 0x69] with ttlArg := 1, nows := 0x65000000 } [0x48, 0x69] ∧
    frameText testParams [0x48, 0x69] false (some (0x65000000, 1)) =
      [0x64, 0x78, 0x46, 0x43, 0x58, 0x68, 0x64, 0x55, 0x45, 0x45, 0x45, 0x45, 0x45, 0x45, 0x45, 0x45, 0x42, 0x4D, 0x65, 0x55, 0x3D, 0x3D] ∧
    HasInput (at_ 0x65000001 (ready (.decode false) [0x64, 0x78, 0x46, 0x43, 0x58, 0x68, 0x64, 0x55, 0x45, 0x45, 0x45, 0x45, 0x45, 0x45, 0x45, 0x45, 0x42, 0x4D, 0x65, 0x55, 0x3D, 0x3D]))
      [0x64, 0x78, 0x46, 0x43, 0x58, 0x68, 0x64, 0x55, 0x45, 0x45, 0x45, 0x45, 0x45, 0x45, 0x45, 0x45, 0x42, 0x4D, 0x65, 0x55, 0x3D, 0x3D] ∧
    (0x65000001 : Word).toNat ≤ (0x65000000 : Word).toNat + 1 ∧
    (0x65000000 : Word).toNat + 2 ≤ (0x65000002 : Word).toNat ∧
    HasInput { ready (.encodeTtl false) [0x48, 0x69] with ttlArg := 0, nows := 100 } [0x48, 0x69] :=
  ⟨by decide, ⟨by decide, by decide, fun k _ => Memory.read_writeRange_nil _ k⟩, by decide,
    at_hasInput (pending_hasInput _ _ _ (by decide) (by decide)), by decide, by decide,
    ⟨by decide, by decide, fun k _ => Memory.read_writeRange_nil _ k⟩⟩

end Sys2Proof.Tests
end

section
/-!
PROOFS. An output that does not fit OBUF (00_scope.md rule R12, 60_exceptions.md rule R239). Three layers: the lengths
of what the units produce; what a command leaves when its body raises; the state `emit` is called in, command by
command.
-/

namespace Sys2Proof.Machine

open Sys2Proof.Config (Params)

/-! ### Lengths of the units' outputs -/

/-- Four symbols for each group of three bytes, a last short group included (40_sextet.md rules R110 to R112). -/
@[simp] theorem sxtEnc_length (bs : List Byte) : (sxtEnc bs).length = 4 * ((bs.length + 2) / 3) := by
  induction bs using sxtEnc.induct with
  | case1 => rfl
  | case2 b0 => simp [sxtEnc]
  | case3 b0 b1 => simp [sxtEnc]
  | case4 b0 b1 b2 rest ih =>
    simp only [sxtEnc, List.length_cons, ih]
    omega

/-- One byte for each symbol (40_sextet.md rule R113). -/
@[simp] theorem textOf_length (p : Params) (syms : List Symbol) : (textOf p syms).length = syms.length :=
  List.length_map ..

/-- `dfl_store` answers on at most 65535 bytes, with five bytes in front of them (44_deflate.md rule R202). -/
theorem dflStore_of_le {bs : List Byte} (h : bs.length ≤ 65535) :
    ∃ z, dflStore bs = .ok z ∧ z.length = bs.length + 5 := by
  refine ⟨_, if_neg (by omega), ?_⟩
  simp only [List.length_cons, List.length_append, le16_length]
  omega

/-- A stored block is longer than what it stores, so the plain form is always chosen (42_frame_encode.md rule R152). -/
theorem compressChoice_eq (o : List Byte) (nc : Bool) : compressChoice o nc = (0x00, o) := by
  unfold compressChoice
  split
  · rename_i hc
    obtain ⟨z, hz, hlen⟩ := dflStore_of_le hc.2.2
    have not_shorter : ¬ z.length + 2 < o.length := by omega
    simp [hz, not_shorter]
  · rfl

/-- The flags byte without a TTL (42_frame_encode.md rule R153). -/
@[simp] theorem envelopeFlags_none (o : List Byte) (nc : Bool) : envelopeFlags o nc none = 0x00 := by
  simp [envelopeFlags, compressChoice_eq]

/-- The flags byte with a TTL (42_frame_encode.md rule R153). -/
@[simp] theorem envelopeFlags_some (o : List Byte) (nc : Bool) (ttl : Word × Word) :
    envelopeFlags o nc (some ttl) = 0x04 := by
  simp [envelopeFlags, compressChoice_eq, Config.flagTtl]

/-- The marker and the sextet text of header, TTL block and payload (42_frame_encode.md rule R153). -/
theorem frameText_length (p : Params) (o : List Byte) (nc : Bool) (ttl : TtlArg) :
    (frameText p o nc ttl).length = 2 + 4 * ((3 + (ttlBlock ttl).length + o.length + 2) / 3) := by
  simp only [frameText, envelope, compressChoice_eq, Config.markBytes, List.length_append,
    List.length_cons, List.length_nil, textOf_length, sxtEnc_length, be16_length]
  omega

/-! ### A command whose body raises (45_system.md rule R220 phase 5) -/

/-- `emit` of an output longer than OBUF_SIZE raises, with every register write before it standing
(00_scope.md rule R12). -/
theorem emit_of_over {v : List Byte} {s : State} (h : s.params.obufSize < v.length) :
    emit v s = .raised .capacity s := if_pos h

theorem takeError_failedWith (e : ErrKind) (s : State) : FailedWith e (takeError e s) where
  status := takeError_status e s
  errcode := takeError_errcode e s
  olen := takeError_olen e s
  obuf _ := by rw [takeError_obuf, Memory.read_nil]

/-- Taking an error writes no result register but ERRCODE, which takes the code, and OLEN, which ends as 0. -/
theorem takeError_resultsZeroBut {rs : List Reg} {e : ErrKind} {s : State} (h : ResultsZeroBut rs s)
    (he : .errcode ∈ rs) : ResultsZeroBut rs (takeError e s) := by
  intro r hr hrs
  by_cases ho : r = .olen
  · rw [ho, takeError_olen]
  · have hs : r ≠ .status := fun hh => absurd hr (by rw [hh]; decide)
    have hc : r ≠ .errcode := fun hh => hrs (hh ▸ he)
    rw [takeError_other e s r hs hc ho, h r hr hrs]

/-- A command on its input whose body raises in `u` ends as `takeError` on `u`, and keeps the host's operands. -/
theorem exec_of_raised {i : Instr} {s u : State} {inp : List Byte} {e : ErrKind} (h : HasInput s inp)
    (hi : readsInput i = true) (hu : commandBody i inp (commonStart s) = .raised e u) :
    exec i s = .next (takeError e u) ∧ FailedWith e (takeError e u) ∧ CommandFrame s (takeError e u) := by
  have hrun : exec i s = .next (takeError e u) := by
    rw [exec_input i s hi, runOnInput_of_hasInput h, hu, complete_raised]
  have hframe : CommandFrame (commonStart s) u := by
    have := commandBody_frame i inp (commonStart s)
    rwa [hu] at this
  exact ⟨hrun, takeError_failedWith e u,
    ((commonStart_frame s).trans hframe).trans (takeError_frame e u)⟩

/-- A command whose body raises before it has written anything leaves CRC alone and every other result register 0. -/
theorem exec_of_raised_at_start {i : Instr} {s : State} {inp : List Byte} {e : ErrKind} (h : HasInput s inp)
    (hi : readsInput i = true) (hu : commandBody i inp (commonStart s) = .raised e (commonStart s)) :
    ∃ t, exec i s = .next t ∧ FailedWith e t ∧ ResultsZeroBut [.errcode] t ∧
      t.get .crc = s.get .crc ∧ CommandFrame s t := by
  obtain ⟨hrun, hfail, hframe⟩ := exec_of_raised h hi hu
  have hzero : ResultsZeroBut [.errcode] (commonStart s) := fun r hr _ => commonStart_result s r hr
  refine ⟨_, hrun, hfail, takeError_resultsZeroBut hzero (by decide), ?_, hframe⟩
  rw [takeError_other _ _ _ (by decide) (by decide) (by decide), commonStart_crc]

/-- Taking an error leaves the header on show (60_exceptions.md rule R236). -/
theorem takeError_shown {f : Frame} {w : Word} {e : ErrKind} {s : State} (h : HeaderShown f w s) :
    HeaderShown f w (takeError e s) := by
  refine h.of_get fun r hr => takeError_other e s r ?_ ?_ ?_
  all_goals rintro rfl; revert hr; decide

/-! ### ENCODE and ENCODE_TTL (42_frame_encode.md rules R156 and R157) -/

/-- The register writes of both encoders when the plain form is chosen. -/
theorem writeEncodeRegs_of_plain {f : Byte} (hf : isCompressed f = false) (o : List Byte) (s : State) :
    writeEncodeRegs o f s =
      (((s.set .crc (halfWord (crc16 o))).set .crcComputed (halfWord (crc16 o))).set .crcStored
        (halfWord (crc16 o))).set .flags (byteWord f) := by
  simp [writeEncodeRegs, hf]

/-- The state ENCODE calls `emit` in. -/
def encodeState (o : List Byte) (s : State) : State :=
  (writeEncodeRegs o 0x00 s).set .info (byteWord 0x00)

/-- The state ENCODE_TTL calls `emit` in: created-at is NOWS, ttl-seconds is TTL_ARG. -/
def encodeTtlState (o : List Byte) (s : State) : State :=
  writeInfo 0x04 s.nows (s.get .ttlArg) (writeTtlRegs s.nows (s.get .ttlArg) (writeEncodeRegs o 0x04 s))

theorem commandBody_encode (nc : Bool) (o : List Byte) (s : State) :
    commandBody (.encode nc) o s = emit (frameText s.params o nc none) (encodeState o s) := by
  simp [commandBody, encodeState]

theorem commandBody_encodeTtl (nc : Bool) (o : List Byte) (s : State) :
    commandBody (.encodeTtl nc) o s =
      emit (frameText s.params o nc (some (s.nows, s.get .ttlArg))) (encodeTtlState o s) := by
  simp [commandBody, encodeTtlState]

@[simp] theorem encodeState_params (o : List Byte) (s : State) :
    (encodeState o s).params = s.params := by
  simp [encodeState]

@[simp] theorem encodeTtlState_params (o : List Byte) (s : State) :
    (encodeTtlState o s).params = s.params := by
  simp [encodeTtlState, writeInfo, writeTtlRegs]

/-- ENCODE leaves the checksum in all three checksum registers. -/
theorem encodeState_checksums (o : List Byte) (s : State) :
    ∀ r ∈ [Reg.crc, .crcStored, .crcComputed], (encodeState o s).get r = halfWord (crc16 o) := by
  rw [encodeState, writeEncodeRegs_of_plain (by decide)]
  simp

/-- FLAGS and INFO are written as 0, so ENCODE leaves only the checksum registers non-zero. -/
theorem encodeState_resultsZeroBut (o : List Byte) (s : State) :
    ResultsZeroBut [.errcode, .crcStored, .crcComputed] (encodeState o (commonStart s)) := by
  intro r hr hrs
  simp only [List.mem_cons, List.not_mem_nil, or_false, not_or] at hrs
  obtain ⟨-, hstored, hcomputed⟩ := hrs
  have hcrc : r ≠ .crc := fun hh => absurd hr (by rw [hh]; decide)
  have hzero : byteWord 0x00 = 0 := by decide
  rw [encodeState, writeEncodeRegs_of_plain (by decide), hzero]
  by_cases hinfo : r = .info
  · simp [hinfo]
  by_cases hflags : r = .flags
  · simp [hflags]
  · simp [hinfo, hflags, hstored, hcomputed, hcrc, commonStart_result s r hr]

/-- ENCODE_TTL leaves the checksum in CRC and CRC_COMPUTED (CRC_STORED is among the header registers). -/
theorem encodeTtlState_checksums (o : List Byte) (s : State) :
    ∀ r ∈ [Reg.crc, .crcComputed], (encodeTtlState o s).get r = halfWord (crc16 o) := by
  rw [encodeTtlState, writeEncodeRegs_of_plain (by decide)]
  simp [writeInfo, writeTtlRegs]

/-- ENCODE_TTL leaves ORIG_SIZE and RESULT as they were. -/
theorem encodeTtlState_other (o : List Byte) (s : State) :
    ∀ r ∈ [Reg.origSize, .result], (encodeTtlState o s).get r = s.get r := by
  rw [encodeTtlState, writeEncodeRegs_of_plain (by decide)]
  simp [writeInfo, writeTtlRegs]

/-- The frame ENCODE_TTL writes (42_frame_encode.md rule R157). -/
def ttlFrame (o : List Byte) (s : State) : Frame := ⟨0x04, crc16 o, s.nows, s.get .ttlArg, o⟩

theorem ttlFrame_legal (o : List Byte) (s : State) : (ttlFrame o s).Legal where
  flags := show (0x04 : Byte).toNat < 8 by decide
  noTtl h := absurd h (show ¬ (0x04 : Byte).getLsbD 2 = false by decide)

/-- ENCODE_TTL shows its frame in the header registers, as the decoder's steps S4 to S6 would. -/
theorem encodeTtlState_shown (o : List Byte) (s : State) :
    HeaderShown (ttlFrame o s) s.nows (encodeTtlState o (commonStart s)) := by
  refine (headerState_shown (ttlFrame o s) (ttlFrame_legal o s) (commonStart s) rfl rfl rfl).of_get ?_
  have httl : hasTtl (ttlFrame o s).flags = true := show hasTtl 0x04 = true by decide
  rw [headerState, if_pos httl, encodeTtlState, writeEncodeRegs_of_plain (by decide)]
  simp [ttlFrame, writeInfo, writeTtlRegs]

/-! ### DECODE (43_frame_decode.md rule R176) -/

/-- The state after steps S4 to S9 on a frame. -/
def recoveredState (f : Frame) (orig : Half) (o : List Byte) (s : State) : State :=
  ((recoverState f orig (headerState f s)).set .crc (halfWord (crc16 o))).set .crcComputed
    (halfWord (crc16 o))

@[simp] theorem headerState_params (f : Frame) (s : State) : (headerState f s).params = s.params := by
  simp only [headerState, writeInfo, writeTtlRegs]
  split <;> simp

@[simp] theorem recoverState_params (f : Frame) (orig : Half) (s : State) :
    (recoverState f orig s).params = s.params := by
  unfold recoverState
  split <;> simp

@[simp] theorem recoveredState_params (f : Frame) (orig : Half) (o : List Byte) (s : State) :
    (recoveredState f orig o s).params = s.params := by
  simp [recoveredState]

/-- Step S8 writes ORIG_SIZE only. -/
theorem recoverState_other (f : Frame) (orig : Half) (s : State) {r : Reg} (h : r ≠ .origSize) :
    (recoverState f orig s).get r = s.get r := by
  unfold recoverState
  split
  · exact State.get_set_ne _ _ _ _ h
  · rfl

/-- Steps S8 and S9 write ORIG_SIZE, CRC and CRC_COMPUTED only. -/
theorem recoveredState_other (f : Frame) (orig : Half) (o : List Byte) (s : State) {r : Reg}
    (h : r ∉ [Reg.origSize, .crc, .crcComputed]) :
    (recoveredState f orig o s).get r = (headerState f s).get r := by
  simp only [List.mem_cons, List.not_mem_nil, or_false, not_or] at h
  obtain ⟨horig, hcrc, hcomputed⟩ := h
  simp [recoveredState, hcrc, hcomputed, recoverState_other f orig _ horig]

theorem recoveredState_checksums (f : Frame) (orig : Half) (o : List Byte) (s : State) :
    ∀ r ∈ [Reg.crc, .crcComputed], (recoveredState f orig o s).get r = halfWord (crc16 o) := by
  simp [recoveredState]

/-- The header stays on show while the original bytes are recovered. -/
theorem recoveredState_shown {f : Frame} (hf : f.Legal) (orig : Half) (o : List Byte) (s : State) :
    HeaderShown f s.nows (recoveredState f orig o (commonStart s)) := by
  refine (headerState_shown f hf (commonStart s) rfl rfl rfl).of_get fun r hr => ?_
  refine recoveredState_other f orig o _ fun hm => ?_
  revert hr hm
  cases r <;> decide

/-- ORIG_SIZE shows the original-size field, which is 0 in a frame without one. -/
theorem recoveredState_origSize {f : Frame} {orig : Half} {o : List Byte} (h : f.Holds orig o) (s : State) :
    (recoveredState f orig o (commonStart s)).get .origSize = halfWord orig := by
  have hstart : (headerState f (commonStart s)).get .origSize = 0 := by
    rw [headerState_other f _ _ (by decide), commonStart_origSize]
  unfold Frame.Holds at h
  split at h
  · rename_i hc
    rw [recoveredState, recoverState, if_pos hc]
    simp
  · rename_i hc
    obtain ⟨-, rfl⟩ := h
    rw [recoveredState, recoverState, if_neg hc]
    simpa [hstart] using (show halfWord 0 = 0 by decide).symm

/-- DECODE reaches `emit` on a frame that is not expired and whose checksum matches. -/
theorem commandBody_decode_of_frame {s : State} {inp : List Byte} {nt : Bool} {f : Frame} {orig : Half}
    {o : List Byte} (hc : Carries s.params inp f.envelope) (hf : f.Legal) (ho : f.Holds orig o)
    (hk : f.stored = crc16 o) (hx : nt = false → ¬ f.Expired s.nows) :
    commandBody (.decode nt) inp s = emit o (recoveredState f orig o s) := by
  have hpass : (checkTtlOption nt && isExpired f.created f.seconds s.nows) = false := by
    cases nt with
    | true => rfl
    | false =>
      have : ¬ isExpired f.created f.seconds s.nows = true := fun h => hx rfl ((isExpired_iff _ _ _).1 h)
      simpa [checkTtlOption] using this
  simp only [commandBody, parseHeader_of_frame hc hf, hpass, Bool.false_eq_true, if_false,
    Proc.bind_ok, recover_of_holds ho]
  exact if_neg fun h => h hk.symm

/-! ### The output does not fit -/

/-- A unit command whose whole body is `emit` of an output longer than OBUF_SIZE. -/
theorem exec_of_output_over {i : Instr} {s : State} {inp out : List Byte} (h : HasInput s inp)
    (hi : readsInput i = true) (hb : commandBody i inp (commonStart s) = emit out (commonStart s))
    (hover : s.params.obufSize < out.length) :
    ∃ t, exec i s = .next t ∧ FailedWith .capacity t ∧ ResultsZeroBut [.errcode] t ∧
      t.get .crc = s.get .crc ∧ CommandFrame s t :=
  exec_of_raised_at_start h hi (hb.trans (emit_of_over hover))

theorem encode_output_over {s : State} {inp : List Byte} (nc : Bool) (h : HasInput s inp)
    (hover : s.params.obufSize < 2 + 4 * ((3 + inp.length + 2) / 3)) :
    ∃ t, exec (.encode nc) s = .next t ∧ FailedWith .capacity t ∧
      ResultsZeroBut [.errcode, .crcStored, .crcComputed] t ∧ CrcIs (crc16 inp) t ∧
      (t.get .crcStored).toNat = (crc16 inp).toNat ∧
      (t.get .crcComputed).toNat = (crc16 inp).toNat ∧ CommandFrame s t := by
  have hbody : commandBody (.encode nc) inp (commonStart s) =
      .raised .capacity (encodeState inp (commonStart s)) := by
    rw [commandBody_encode]
    exact emit_of_over (by simpa [frameText_length, ttlBlock] using hover)
  obtain ⟨hrun, hfail, hframe⟩ := exec_of_raised h rfl hbody
  have hsum := encodeState_checksums inp (commonStart s)
  refine ⟨_, hrun, hfail, takeError_resultsZeroBut (encodeState_resultsZeroBut inp s) (by decide),
    ?_, ?_, ?_, hframe⟩
  · simp [CrcIs, hsum]
  · simp [hsum]
  · simp [hsum]

theorem encodeTtl_output_over {s : State} {inp : List Byte} (nc : Bool) (h : HasInput s inp)
    (hover : s.params.obufSize < 2 + 4 * ((11 + inp.length + 2) / 3)) :
    ∃ t, exec (.encodeTtl nc) s = .next t ∧ FailedWith .capacity t ∧ CrcIs (crc16 inp) t ∧
      HeaderShown (ttlFrame inp s) s.nows t ∧ (t.get .crcComputed).toNat = (crc16 inp).toNat ∧
      t.get .origSize = 0 ∧ t.get .result = 0 ∧ CommandFrame s t := by
  have hbody : commandBody (.encodeTtl nc) inp (commonStart s) =
      .raised .capacity (encodeTtlState inp (commonStart s)) := by
    rw [commandBody_encodeTtl]
    exact emit_of_over (by simpa [frameText_length, ttlBlock] using hover)
  obtain ⟨hrun, hfail, hframe⟩ := exec_of_raised h rfl hbody
  have hsum := encodeTtlState_checksums inp (commonStart s)
  have hkept := encodeTtlState_other inp (commonStart s)
  refine ⟨_, hrun, hfail, ?_, takeError_shown (encodeTtlState_shown inp s), ?_, ?_, ?_, hframe⟩
  · simp [CrcIs, hsum]
  · simp [hsum]
  · simp [hkept]
  · simp [hkept]

theorem decode_output_over {s : State} {inp : List Byte} {nt : Bool} {f : Frame} {orig : Half}
    {o : List Byte} (h : HasInput s inp) (hc : Carries s.params inp f.envelope) (hf : f.Legal)
    (ho : f.Holds orig o) (hk : f.stored = crc16 o) (hx : nt = false → ¬ f.Expired s.nows)
    (hover : s.params.obufSize < o.length) :
    ∃ t, exec (.decode nt) s = .next t ∧ FailedWith .capacity t ∧ CrcIs (crc16 o) t ∧
      HeaderShown f s.nows t ∧ (t.get .crcComputed).toNat = (crc16 o).toNat ∧
      (t.get .origSize).toNat = orig.toNat ∧ t.get .result = 0 ∧ CommandFrame s t := by
  have hbody : commandBody (.decode nt) inp (commonStart s) =
      .raised .capacity (recoveredState f orig o (commonStart s)) :=
    (commandBody_decode_of_frame (s := commonStart s) hc hf ho hk hx).trans
      (emit_of_over (by simpa using hover))
  obtain ⟨hrun, hfail, hframe⟩ := exec_of_raised h rfl hbody
  have hsum := recoveredState_checksums f orig o (commonStart s)
  refine ⟨_, hrun, hfail, ?_, takeError_shown (recoveredState_shown hf orig o s), ?_, ?_, ?_, hframe⟩
  · simp [CrcIs, hsum]
  · simp [hsum]
  · simp [recoveredState_origSize ho]
  · rw [takeError_other _ _ _ (by decide) (by decide) (by decide),
      recoveredState_other f orig o _ (by decide), headerState_other f _ _ (by decide),
      commonStart_resultReg]

/-- Settles O34: the output does not fit, command by command. -/
theorem outputOverCapacityRaises : Obligations.OutputOverCapacityRaises := by
  intro s inp h
  refine ⟨fun hover => ?sxtEnc, fun bs hbs hover => ?sxtDec, fun hlen hover => ?dflStore,
    fun bs hbs hover => ?dflUnstore,
    fun nc hover => encode_output_over nc h hover, fun nc hover => encodeTtl_output_over nc h hover,
    fun nt f orig o hc hf ho hk hx hover => decode_output_over h hc hf ho hk hx hover⟩
  case sxtEnc => exact exec_of_output_over h rfl rfl (by simpa using hover)
  case sxtDec => exact exec_of_output_over h rfl (by simp [commandBody, hbs]) hover
  case dflStore =>
    obtain ⟨z, hz, hzlen⟩ := dflStore_of_le hlen
    exact exec_of_output_over h rfl (by simp [commandBody, hz]) (hzlen ▸ hover)
  case dflUnstore => exact exec_of_output_over h rfl (by simp [commandBody, hbs]) hover

end Sys2Proof.Machine
end

section
/-!
PROOFS. The state of the block (10_state.md). In this order: what a finished command leaves in the registers, CRC among
them; the host's register accesses; what one step can change; the invariant of the machine, split into the part that
every procedure of a command keeps and the part that phase 5 of 45_system.md rule R220 sets.
-/

namespace Sys2Proof.Machine

/-! ### What a finished command leaves (45_system.md rule R220) -/

/-- A property of states that both parts of a sequence keep holds where the sequence stops. -/
theorem Proc.bind_final {α β : Type} {P : State → Prop} {p : Proc α} {f : α → State → Proc β}
    (hp : P p.final) (hf : ∀ a t, P t → P (f a t).final) : P (p.bind f).final := by
  cases p with
  | ok a t => exact hf a t hp
  | raised e t => exact hp

/-- Phase 5 writes STATUS, ERRCODE and OLEN only. -/
theorem complete_other (p : Proc Unit) {r : Reg} (h : r ∉ [Reg.status, .errcode, .olen]) :
    (complete p).get r = p.final.get r := by
  simp only [List.mem_cons, List.not_mem_nil, or_false, not_or] at h
  obtain ⟨hstatus, hcode, holen⟩ := h
  cases p with
  | ok _ t => exact finish_other t r hstatus
  | raised e t => exact takeError_other e t r hstatus hcode holen

/-- The common start, the body and either ending of phase 5 each keep the host's operands. -/
theorem exec_frame {i : Instr} {s t : State} (hi : i ≠ .sreset) (h : exec i s = .next t) :
    CommandFrame s t := by
  rcases exec_cases h with ⟨hs, -⟩ | ⟨-, -, rfl⟩ | ⟨-, inp, -, rfl⟩
  · exact absurd hs hi
  · exact (commonStart_frame s).trans (takeError_frame _ _)
  · exact complete_frame _ ((commonStart_frame s).trans (commandBody_frame i inp _))

/-- Settles O42: `exec_frame`. -/
theorem commandsKeepOperands : Obligations.CommandsKeepOperands :=
  fun _ _ _ hi h => exec_frame hi h

theorem exec_params {i : Instr} {s t : State} (h : exec i s = .next t) : t.params = s.params := by
  by_cases hi : i = .sreset
  · subst hi
    cases h
    rfl
  · exact (exec_frame hi h).params

/-- SRESET keeps the bytes of IBUF too (45_system.md rule R224). -/
theorem exec_ibuf {i : Instr} {s t : State} (h : exec i s = .next t) (a : Nat) :
    t.ibuf.read a = s.ibuf.read a := by
  by_cases hi : i = .sreset
  · subst hi
    cases h
    rfl
  · exact (exec_frame hi h).ibuf a

/-- A result register a body does not write is zero at the end: the common start cleared it, and phase 5 writes only
ERRCODE and OLEN = 0. -/
theorem complete_resultsZeroBut {p : Proc Unit} {rs : List Reg} {s : State}
    (h : p.Writes (.crc :: rs) (commonStart s)) : ResultsZeroBut (.errcode :: rs) (complete p) := by
  have hfinal : ResultsZeroBut (.errcode :: rs) p.final := by
    intro r hr hrs
    have hcrc : r ≠ .crc := fun hh => absurd hr (by rw [hh]; decide)
    have hrs' : r ∉ rs := fun hm => hrs (List.mem_cons_of_mem _ hm)
    rw [h r (by simp [hcrc, hrs']), commonStart_result s r hr]
  cases p with
  | ok _ t =>
    intro r hr hrs
    have hstatus : r ≠ .status := fun hh => absurd hr (by rw [hh]; decide)
    exact (finish_other t r hstatus).trans (hfinal r hr hrs)
  | raised e t => exact takeError_resultsZeroBut hfinal List.mem_cons_self

/-- Settles O44: SRESET zeroes every register; any other command ends as `complete`, E_CAPACITY for its input
included. -/
theorem resultsZeroUnlessWritten : Obligations.ResultsZeroUnlessWritten := by
  intro i s t h
  rcases exec_cases h with ⟨-, rfl⟩ | ⟨-, -, rfl⟩ | ⟨-, inp, -, rfl⟩
  · intro r hr _
    cases r <;> first | rfl | exact absurd hr (by decide)
  · exact complete_resultsZeroBut (Proc.writes_raised _ .capacity _)
  · exact complete_resultsZeroBut (commandBody_writes i inp _)

/-! ### The CRC register (10_state.md rule R30) -/

/-- These commands write the header registers, OLEN or RESULT, none of which is CRC. -/
theorem commandBody_crc_kept {i : Instr}
    (hi : i ∈ [Instr.nop, .sxtEnc, .sxtDec, .dflStore, .dflUnstore, .validate, .info])
    (inp : List Byte) (s : State) : (commandBody i inp s).final.get .crc = s.get .crc := by
  have units : ∀ r : Except ErrKind (List Byte), ((orRaise r s).bind emit).final.get .crc = s.get .crc :=
    fun r => (orRaise_writes [.olen] r s).bind (fun v u _ => emit_writes v u) .crc (by decide)
  cases i with
  | nop => rfl
  | sxtEnc => exact emit_writes _ s .crc (by decide)
  | sxtDec | dflStore | dflUnstore => exact units _
  | validate => simp [commandBody, Proc.final]
  | info =>
    exact (parseHeader_writes inp false s).bind (fun _ u _ => Proc.writes_ok _ _ u) .crc (by decide)
  | _ => simp at hi

/-- CRC and CRC_COMPUTED are both as they were, or CRC holds what CRC_COMPUTED shows. -/
def CrcKeptOrShown (s t : State) : Prop :=
  (t.get .crc = s.get .crc ∧ t.get .crcComputed = s.get .crcComputed) ∨ t.get .crc = t.get .crcComputed

theorem CrcKeptOrShown.refl (s : State) : CrcKeptOrShown s s := .inl ⟨rfl, rfl⟩

theorem CrcKeptOrShown.of_get {s t u : State} (h : CrcKeptOrShown s t) (hcrc : u.get .crc = t.get .crc)
    (hcomp : u.get .crcComputed = t.get .crcComputed) : CrcKeptOrShown s u := by
  rwa [CrcKeptOrShown, hcrc, hcomp]

theorem CrcKeptOrShown.of_writes {α : Type} {rs : List Reg} {s t : State} {p : Proc α}
    (h : CrcKeptOrShown s t) (hp : p.Writes rs t) (hrs : .crc ∉ rs ∧ .crcComputed ∉ rs) :
    CrcKeptOrShown s p.final :=
  h.of_get (hp _ hrs.1) (hp _ hrs.2)

/-- Step S8 writes ORIG_SIZE only. -/
theorem recoverBytes_writes (h : Header) (s : State) : (recoverBytes h s).Writes [.origSize] s := by
  unfold recoverBytes
  split
  · split
    · intro r hr
      rw [orRaise_final, State.get_set_ne _ _ _ _ (by simpa using hr)]
    · exact Proc.writes_raised _ _ s
  · exact Proc.writes_ok _ _ s

/-- Steps S8 and S9 write the checksum to both registers or to none (43_frame_decode.md rule R174). -/
theorem recover_crcKeptOrShown {s t : State} (h : CrcKeptOrShown s t) (hd : Header) :
    CrcKeptOrShown s (recover hd t).final := by
  refine Proc.bind_final (h.of_writes (recoverBytes_writes hd t) (by decide)) fun o u _ => .inr ?_
  simp [Proc.final]

theorem parseHeader_crcKeptOrShown (t : List Byte) (chk : Bool) (s : State) :
    CrcKeptOrShown s (parseHeader t chk s).final :=
  (CrcKeptOrShown.refl s).of_writes (parseHeader_writes t chk s) (by decide)

/-- `emit` of what an encoder has put together: the checksum is in both registers. -/
theorem emit_crcShown {u : State} {c : Word} (hu : ∀ r ∈ [Reg.crc, .crcComputed], u.get r = c)
    (s : State) (v : List Byte) : CrcKeptOrShown s (emit v u).final :=
  CrcKeptOrShown.of_writes (.inr ((hu .crc (by decide)).trans (hu .crcComputed (by decide)).symm))
    (emit_writes v u) (by decide)

theorem commandBody_crcKeptOrShown {i : Instr} {nc nt : Bool}
    (hi : i ∈ [Instr.encode nc, .encodeTtl nc, .decode nt, .inspect, .verify, .crcCalc])
    (inp : List Byte) (s : State) : CrcKeptOrShown s (commandBody i inp s).final := by
  have answers : ∀ chk, CrcKeptOrShown s ((parseHeader inp chk s).bind fun h u =>
      (recover h u).bind fun o u => .ok () (u.set .result (resultWord (crc16 o == h.stored)))).final :=
    fun chk => Proc.bind_final (parseHeader_crcKeptOrShown inp chk s) fun h u hu =>
      Proc.bind_final (recover_crcKeptOrShown hu h) fun o v hv => hv.of_get (by simp [Proc.final])
        (by simp [Proc.final])
  simp only [List.mem_cons, List.not_mem_nil, or_false] at hi
  rcases hi with rfl | rfl | rfl | rfl | rfl | rfl
  · rw [commandBody_encode]
    have hsum := encodeState_checksums inp s
    exact emit_crcShown (fun r hr => hsum r (by revert r; decide)) s _
  · rw [commandBody_encodeTtl]
    exact emit_crcShown (encodeTtlState_checksums inp s) s _
  · refine Proc.bind_final (parseHeader_crcKeptOrShown ..) fun h u hu =>
      Proc.bind_final (recover_crcKeptOrShown hu h) fun o v hv => ?_
    split
    · exact hv
    · exact hv.of_writes (emit_writes o v) (by decide)
  · exact answers false
  · exact answers true
  · exact .inr (by simp [commandBody, Proc.final])

/-- Settles O43: the common start leaves CRC alone and clears CRC_COMPUTED, and phase 5 writes neither. -/
theorem crcRegisterKept : Obligations.CrcRegisterKept := by
  constructor
  · intro i hi s t h
    rcases exec_cases h with ⟨rfl, -⟩ | ⟨-, -, rfl⟩ | ⟨-, inp, -, rfl⟩
    · exact absurd hi (by decide)
    · rw [takeError_other _ _ _ (by decide) (by decide) (by decide), commonStart_crc]
    · rw [complete_other _ (by decide), commandBody_crc_kept hi, commonStart_crc]
  · intro nc nt i hi s t h
    suffices hkept : CrcKeptOrShown (commonStart s) t by simpa [CrcKeptOrShown] using hkept
    rcases exec_cases h with ⟨rfl, -⟩ | ⟨-, -, rfl⟩ | ⟨-, inp, -, rfl⟩
    · simp at hi
    · exact (CrcKeptOrShown.refl _).of_get (takeError_other _ _ _ (by decide) (by decide) (by decide))
        (takeError_other _ _ _ (by decide) (by decide) (by decide))
    · exact (commandBody_crcKeptOrShown hi inp _).of_get (complete_other _ (by decide))
        (complete_other _ (by decide))

/-! ### The host's register accesses (20_memory.md rules R62 and R63) -/

/-- Register names and indices agree (10_state.md rule R22). -/
@[simp] theorem Reg.ofIndex_toIndex (r : Reg) : Reg.ofIndex r.toIndex = some r := by cases r <;> rfl

theorem Reg.toIndex_of_ofIndex {i : Nat} {r : Reg} (h : Reg.ofIndex i = some r) : i = r.toIndex := by
  unfold Reg.ofIndex at h
  split at h <;> cases h <;> rfl

/-- Indices 17 and above are not implemented (10_state.md rule R23). -/
theorem Reg.ofIndex_eq_none {i : Nat} (h : 17 ≤ i) : Reg.ofIndex i = none := by
  cases hr : Reg.ofIndex i with
  | none => rfl
  | some r =>
    have hi := Reg.toIndex_of_ofIndex hr
    have hlt : r.toIndex < 17 := by cases r <;> decide
    omega

/-- With BUSY = 0 a host turn is one access. -/
theorem step_host_idle {s : State} (h : s.busy = false) (a : HostAccess) (rest : List Event) :
    step { s with events := .host a :: rest } = accessIdle a { s with events := rest } :=
  if_neg (ne_true_of_eq_false h)

/-- Settles O53: `regReadValue` at a register's own index, and at an index that names none. -/
theorem hostReadsRegisters : Obligations.HostReadsRegisters := by
  intro s rest hb
  refine ⟨fun r => ?_, rfl, fun i hi => ?_⟩
  · simp [step_host_idle hb, accessIdle, regReadValue]
  · simp [step_host_idle hb, accessIdle, regReadValue, Reg.ofIndex_eq_none hi]

/-- A write to a register that is not the host's to write is ignored (10_state.md rules R22 and R23). -/
theorem regWriteEffect_ignored {i : Nat} (h : i ∉ [0, 3, 5, 9]) (v : Word) (s : State) :
    regWriteEffect i v s = s := by
  unfold regWriteEffect
  split
  case h_5 => rfl
  all_goals
    rename_i hr
    exact absurd (Reg.toIndex_of_ofIndex hr ▸ h) (by decide)

/-- Bits 15:0 of a word, as the host's write to CRC keeps them. -/
theorem and_lowHalf (v : Word) : v &&& 0x0000FFFF = BitVec.ofNat 32 (v.toNat % 2 ^ 16) := by
  apply BitVec.eq_of_toNat_eq
  have hmask : v.toNat &&& 0xFFFF = v.toNat % 2 ^ 16 := Nat.and_two_pow_sub_one_eq_mod _ 16
  rw [BitVec.toNat_and, BitVec.toNat_ofNat]
  change v.toNat &&& 0xFFFF = _
  omega

/-- Settles O54: the four indices the host may write, one by one, and the ignored rest. -/
theorem hostWritesRegisters : Obligations.HostWritesRegisters := by
  intro s rest v hb
  simp only [step_host_idle hb, accessIdle]
  refine ⟨rfl, rfl, rfl, ?_, fun i hi => ?_⟩
  · rw [← and_lowHalf]
    rfl
  · rw [regWriteEffect_ignored hi]

/-! ### The STATUS bits (10_state.md rule R26) -/

@[simp] theorem finish_err (s : State) : (finish s).err = false :=
  (by decide : (statusWord false true false).getLsbD 2 = false)

@[simp] theorem takeError_err (e : ErrKind) (s : State) : (takeError e s).err = true :=
  (by decide : (statusWord false true true).getLsbD 2 = true)

@[simp] theorem acceptCommand_busy (w : Word) (s : State) : (acceptCommand w s).busy = true :=
  (by decide : (statusWord true false false).getLsbD 0 = true)

@[simp] theorem acceptCommand_err (w : Word) (s : State) : (acceptCommand w s).err = false :=
  (by decide : (statusWord true false false).getLsbD 2 = false)

@[simp] theorem hardwareReset_busy (s : State) : (hardwareReset s).busy = false :=
  (by decide : (0 : Word).getLsbD 0 = false)

/-! ### What one step can change -/

theorem hostAccess_params {a : HostAccess} {s t : State} (h : hostAccess a s = .next t) :
    t.params = s.params := by
  rcases hostAccess_cases h with ⟨x, rfl⟩ | ⟨-, w, -, rfl⟩ | ⟨-, v, -, rfl⟩ | ⟨-, v, -, rfl⟩ |
    ⟨-, v, -, rfl⟩ | ⟨-, i, v, -, -, rfl⟩ <;> rfl

/-- The one access that changes IBUF. -/
theorem hostAccess_ibuf {a : HostAccess} {s t : State} (h : hostAccess a s = .next t) :
    t.ibuf = s.ibuf ∨ ∃ i v, a = .bufWrite .ibuf i v := by
  rcases hostAccess_cases h with ⟨x, rfl⟩ | ⟨-, w, -, rfl⟩ | ⟨-, v, -, rfl⟩ | ⟨-, v, -, rfl⟩ |
    ⟨-, v, -, rfl⟩ | ⟨-, i, v, ha, -, -⟩
  exacts [.inl rfl, .inl rfl, .inl rfl, .inl rfl, .inl rfl, .inr ⟨i, v, ha⟩]

/-- The one access that changes STATUS (10_state.md rule R25). -/
theorem hostAccess_status {a : HostAccess} {s t : State} (h : hostAccess a s = .next t) :
    t.status = s.status ∨ ∃ w, a = .regWrite 0 w ∧ t = { acceptCommand w s with response := none } := by
  rcases hostAccess_cases h with ⟨x, rfl⟩ | ⟨-, w, ha, ht⟩ | ⟨-, v, -, rfl⟩ | ⟨-, v, -, rfl⟩ |
    ⟨-, v, -, rfl⟩ | ⟨-, i, v, -, -, rfl⟩
  exacts [.inl rfl, .inr ⟨w, ha, ht⟩, .inl rfl, .inl rfl, .inl rfl, .inl rfl]

theorem engineTurn_params {s t : State} (h : engineTurn s = .next t) : t.params = s.params := by
  rcases engineTurn_cases h with ⟨-, rfl⟩ | ⟨-, i, -, hx⟩ | ⟨-, r, -, rfl⟩
  · rfl
  · exact exec_params hx
  · rfl

theorem engineTurn_ibuf {s t : State} (h : engineTurn s = .next t) (a : Nat) :
    t.ibuf.read a = s.ibuf.read a := by
  rcases engineTurn_cases h with ⟨-, rfl⟩ | ⟨-, i, -, hx⟩ | ⟨-, r, -, rfl⟩
  · rfl
  · exact exec_ibuf hx a
  · rfl

/-- With no command pending the engine does nothing (45_system.md rule R222). -/
theorem engineTurn_idle {s t : State} (hb : s.busy = false) (h : engineTurn s = .next t) : t = s := by
  rcases engineTurn_cases h with ⟨-, ht⟩ | ⟨hb', -⟩ | ⟨hb', -⟩
  · exact ht
  all_goals simp [hb] at hb'

/-- Settles O49, by the kinds of turn. -/
theorem stepKeepsParameters : Obligations.StepKeepsParameters := by
  intro s t h
  rcases step_cases h with ⟨-, he⟩ | ⟨rest, -, he⟩ | ⟨a, rest, -, ha⟩ | ⟨v, rest, -, rfl⟩ | ⟨rest, -, rfl⟩
  · exact engineTurn_params he
  · exact (engineTurn_params he).trans rfl
  · exact (hostAccess_params ha).trans rfl
  · rfl
  · rfl

/-- Settles O51, by the kinds of turn: the engine never changes a byte of IBUF. -/
theorem onlyHostAndResetChangeIbuf : Obligations.OnlyHostAndResetChangeIbuf := by
  rintro s t h ⟨k, hne⟩
  rcases step_cases h with ⟨-, he⟩ | ⟨rest, -, he⟩ | ⟨a, rest, hev, ha⟩ | ⟨v, rest, -, rfl⟩ |
    ⟨rest, hev, -⟩
  · exact absurd (engineTurn_ibuf he k) hne
  · exact absurd (engineTurn_ibuf he k) hne
  · rcases hostAccess_ibuf ha with hsame | ⟨i, v, rfl⟩
    · exact absurd (congrArg (Memory.read · k) hsame) hne
    · exact .inl ⟨i, v, rest, hev⟩
  · exact absurd rfl hne
  · exact .inr ⟨rest, hev⟩

/-- Settles O52, by the kinds of turn: BUSY rises only where STATUS changes, and an idle engine changes nothing. -/
theorem onlyCmdWriteStartsCommand : Obligations.OnlyCmdWriteStartsCommand := by
  intro s t hidle h hbusy
  have changed : t.status ≠ s.status := by
    intro hst
    rw [State.busy, hst, ← State.busy, hidle] at hbusy
    contradiction
  rcases step_cases h with ⟨-, he⟩ | ⟨rest, -, he⟩ | ⟨a, rest, hev, ha⟩ | ⟨v, rest, -, rfl⟩ | ⟨rest, -, rfl⟩
  · exact absurd (congrArg State.status (engineTurn_idle hidle he)) changed
  · exact absurd (congrArg State.status (engineTurn_idle (s := { s with events := rest }) hidle he)) changed
  · rcases hostAccess_status ha with hsame | ⟨w, rfl, rfl⟩
    · exact absurd hsame changed
    · exact ⟨w, rest, hev, rfl, rfl, rfl⟩
  · exact absurd rfl changed
  · rw [hardwareReset_busy] at hbusy
    contradiction

/-! ### The invariant, in two parts -/

/-- One more than the largest value of a register's field (10_state.md rule R22). -/
def Reg.bound : Reg → Nat
  | .crc | .crcStored | .crcComputed | .origSize => 2 ^ 16
  | .flags => 2 ^ 8
  | .info => 2 ^ 6
  | .result => 2
  | _ => 2 ^ 32

/-- The part of `State.Inv` that holds in the middle of a command too. -/
structure State.DataInv (s : State) : Prop where
  params : s.params.wf = true
  fits : ∀ r, (s.get r).toNat < r.bound
  ibuf : s.ibuf.wf = true
  ibufBelow : s.ibuf.below s.params.ibufSize = true
  obuf : s.obuf.wf = true
  obufBelow : s.obuf.below s.params.obufSize = true

/-- The part of `State.Inv` that phase 5 of a command sets (45_system.md rule R220). -/
structure State.StatusInv (s : State) : Prop where
  status : s.status = 0 ∨ s.status = 1 ∨ s.status = 2 ∨ s.status = 6
  errOnCode : s.busy = false → (s.err = true ↔ s.errcode ≠ 0)
  errcode : s.errcode.toNat ≤ 10 ∧ s.errcode ≠ 1
  errOlen : s.err = true → s.olen = 0

/-- The seven narrow fields of `State.Inv` are the bounds that a 32-bit register does not meet by itself. -/
theorem State.inv_iff (s : State) : s.Inv ↔ s.DataInv ∧ s.StatusInv := by
  constructor
  · intro h
    refine ⟨⟨h.params, fun r => ?_, h.ibuf, h.ibufBelow, h.obuf, h.obufBelow⟩,
      ⟨h.status, h.errOnCode, h.errcode, h.errOlen⟩⟩
    cases r with
    | crc => exact h.crc
    | crcStored => exact h.crcStored
    | crcComputed => exact h.crcComputed
    | origSize => exact h.origSize
    | flags => exact h.flags
    | info => exact h.info
    | result => exact h.result
    | _ => exact BitVec.isLt _
  · rintro ⟨hd, hs⟩
    exact
      { hs with
        params := hd.params
        crc := hd.fits .crc
        crcStored := hd.fits .crcStored
        crcComputed := hd.fits .crcComputed
        flags := hd.fits .flags
        info := hd.fits .info
        origSize := hd.fits .origSize
        result := hd.fits .result
        ibuf := hd.ibuf
        ibufBelow := hd.ibufBelow
        obuf := hd.obuf
        obufBelow := hd.obufBelow }

theorem Reg.bound_pos (r : Reg) : 0 < r.bound := by cases r <;> decide

/-! ### The procedures keep the data part -/

theorem State.DataInv.set {s : State} (h : s.DataInv) (r : Reg) {v : Word} (hv : v.toNat < r.bound) :
    (s.set r v).DataInv where
  params := by simpa using h.params
  fits q := by
    by_cases hq : q = r
    · subst hq
      by_cases hn : q = .now
      · subst hn
        exact h.fits .now
      · rwa [State.get_set_same _ _ _ hn]
    · rw [State.get_set_ne _ _ _ _ hq]
      exact h.fits q
  ibuf := by simpa using h.ibuf
  ibufBelow := by simpa using h.ibufBelow
  obuf := by simpa using h.obuf
  obufBelow := by simpa using h.obufBelow

theorem State.DataInv.setObuf {s : State} (h : s.DataInv) {m : Memory} (hm : m.wf = true)
    (hbelow : m.below s.params.obufSize = true) : ({ s with obuf := m } : State).DataInv :=
  { h with obuf := hm, obufBelow := hbelow, fits := fun r => by simpa using h.fits r }

theorem halfWord_lt (x : Half) : (halfWord x).toNat < 2 ^ 16 := by
  rw [halfWord_toNat]
  exact x.isLt

theorem byteWord_lt (b : Byte) : (byteWord b).toNat < 2 ^ 8 := by
  rw [byteWord_toNat]
  exact b.isLt

theorem infoWord_lt (f : Byte) (c n w : Word) : (infoWord f c n w).toNat < 2 ^ 6 := by
  obtain ⟨-, -, -, -, -, -, hlt⟩ := infoWord_fields f c n w
  exact hlt

theorem resultWord_lt (b : Bool) : (resultWord b).toNat < 2 := by cases b <;> decide

theorem commonStart_dataInv {s : State} (h : s.DataInv) : (commonStart s).DataInv :=
  { h with
    obuf := rfl
    obufBelow := rfl
    fits := fun r => by
      by_cases hr : r ∈ resultRegs
      · rw [commonStart_result s r hr]
        exact r.bound_pos
      · rw [commonStart_other s r hr]
        exact h.fits r }

theorem finish_dataInv {s : State} (h : s.DataInv) : (finish s).DataInv :=
  h.set .status (BitVec.isLt _)

theorem takeError_dataInv {s : State} (h : s.DataInv) (e : ErrKind) : (takeError e s).DataInv :=
  (((h.setObuf (m := []) rfl rfl).set .errcode (BitVec.isLt _)).set .olen (BitVec.isLt _)).set .status
    (BitVec.isLt _)

/-- What `emit` writes lies inside OBUF, as it raises otherwise (00_scope.md rule R12). -/
theorem emit_dataInv {s : State} (h : s.DataInv) (v : List Byte) : (emit v s).final.DataInv := by
  rcases emit_cases v s with ⟨-, he⟩ | ⟨hlen, he⟩ <;> rw [he]
  · exact h
  · have hwf := Memory.wf_writeRange [] 0 v rfl
    have hbelow := Memory.below_writeRange s.params.obufSize [] 0 v (by omega) rfl
    exact (h.setObuf hwf hbelow).set .olen (BitVec.isLt _)

theorem orRaise_dataInv {α : Type} {s : State} (h : s.DataInv) (r : Except ErrKind α) :
    (orRaise r s).final.DataInv := by
  rwa [orRaise_final]

theorem writeInfo_dataInv {s : State} (h : s.DataInv) (f : Byte) (c n : Word) :
    (writeInfo f c n s).DataInv :=
  h.set .info (infoWord_lt f c n s.nows)

theorem writeTtlRegs_dataInv {s : State} (h : s.DataInv) (c n : Word) : (writeTtlRegs c n s).DataInv :=
  ((h.set .ttlCreated (BitVec.isLt _)).set .ttlSeconds (BitVec.isLt _)).set .expiresLo (BitVec.isLt _)

/-- The encoders never choose the compressed form, so they never copy ILEN to ORIG_SIZE. -/
theorem writeEncodeRegs_dataInv {s : State} (h : s.DataInv) {f : Byte} (hf : isCompressed f = false)
    (o : List Byte) : (writeEncodeRegs o f s).DataInv := by
  rw [writeEncodeRegs_of_plain hf]
  exact (((h.set .crc (halfWord_lt _)).set .crcComputed (halfWord_lt _)).set .crcStored
    (halfWord_lt _)).set .flags (byteWord_lt f)

theorem parseTtl_dataInv {s : State} (h : s.DataInv) (f : Byte) (k : Half) (rest : List Byte) (chk : Bool) :
    (parseTtl f k rest chk s).final.DataInv := by
  unfold parseTtl
  split
  · split
    · have hshown := fun c n => writeInfo_dataInv (writeTtlRegs_dataInv h c n) f c n
      dsimp only
      split <;> exact hshown _ _
    · exact h
  · exact writeInfo_dataInv h f 0 0

theorem parseEnvelope_dataInv {s : State} (h : s.DataInv) (e : List Byte) (chk : Bool) :
    (parseEnvelope e chk s).final.DataInv := by
  unfold parseEnvelope
  split
  · rename_i f k1 k0 rest
    have hflags : (s.set .flags (byteWord f)).DataInv := h.set .flags (byteWord_lt f)
    dsimp only
    split
    · exact hflags
    · exact parseTtl_dataInv (hflags.set .crcStored (halfWord_lt _)) f _ rest chk
  · exact h

theorem parseHeader_dataInv {s : State} (h : s.DataInv) (t : List Byte) (chk : Bool) :
    (parseHeader t chk s).final.DataInv :=
  Proc.bind_final (orRaise_dataInv h _) fun e _ hu => parseEnvelope_dataInv hu e chk

theorem recoverBytes_dataInv {s : State} (h : s.DataInv) (hd : Header) :
    (recoverBytes hd s).final.DataInv := by
  unfold recoverBytes
  split
  · split
    · exact orRaise_dataInv (h.set .origSize (halfWord_lt _)) _
    · exact h
  · exact h

theorem recover_dataInv {s : State} (h : s.DataInv) (hd : Header) : (recover hd s).final.DataInv :=
  Proc.bind_final (recoverBytes_dataInv h hd) fun o _ hu =>
    (hu.set .crc (halfWord_lt (crc16 o))).set .crcComputed (halfWord_lt (crc16 o))

theorem commandBody_dataInv {s : State} (h : s.DataInv) (i : Instr) (inp : List Byte) :
    (commandBody i inp s).final.DataInv := by
  have units : ∀ r : Except ErrKind (List Byte), ((orRaise r s).bind emit).final.DataInv := fun r =>
    Proc.bind_final (orRaise_dataInv h r) fun v _ hu => emit_dataInv hu v
  cases i with
  | nop | sreset => exact h
  | crcInit | crcUpdate => exact h.set .crc (halfWord_lt _)
  | crcCalc => exact (h.set .crc (halfWord_lt _)).set .crcComputed (halfWord_lt _)
  | sxtEnc => exact emit_dataInv h _
  | sxtDec | dflStore | dflUnstore => exact units _
  | encode nc =>
    rw [commandBody_encode]
    exact emit_dataInv ((writeEncodeRegs_dataInv h (by decide) inp).set .info (by decide)) _
  | encodeTtl nc =>
    rw [commandBody_encodeTtl]
    have hregs := writeEncodeRegs_dataInv h (f := 0x04) (by decide) inp
    exact emit_dataInv (writeInfo_dataInv (writeTtlRegs_dataInv hregs _ _) _ _ _) _
  | decode nt =>
    refine Proc.bind_final (parseHeader_dataInv h inp _) fun hd u hu =>
      Proc.bind_final (recover_dataInv hu hd) fun o v hv => ?_
    split
    · exact hv
    · exact emit_dataInv hv o
  | inspect | verify =>
    exact Proc.bind_final (parseHeader_dataInv h inp _) fun hd u hu =>
      Proc.bind_final (recover_dataInv hu hd) fun o v hv => hv.set .result (resultWord_lt _)
  | validate => exact h.set .result (resultWord_lt _)
  | info => exact Proc.bind_final (parseHeader_dataInv h inp false) fun _ _ hu => hu

/-! ### The end of a command sets the status part -/

theorem finish_statusInv {s : State} (h : s.get .errcode = 0) : (finish s).StatusInv := by
  have hcode : (finish s).errcode = 0 := h
  exact
    { status := .inr (.inr (.inl rfl))
      errOnCode := fun _ => by simp [hcode]
      errcode := by simp [hcode]
      errOlen := fun he => by simp at he }

/-- Code 1 is reserved (60_exceptions.md rule R231); the others lie in 2 to 10. -/
theorem ErrKind.code_range {e : ErrKind} (h : e ≠ .inputType) :
    e.code.toNat ≤ 10 ∧ e.code ≠ 1 ∧ e.code ≠ 0 := by
  cases e with
  | inputType => exact absurd rfl h
  | _ => decide

theorem takeError_statusInv {e : ErrKind} (h : e ≠ .inputType) (s : State) : (takeError e s).StatusInv := by
  obtain ⟨hle, hone, hzero⟩ := ErrKind.code_range h
  exact
    { status := .inr (.inr (.inr rfl))
      errOnCode := fun _ => ⟨fun _ => hzero, fun _ => takeError_err e s⟩
      errcode := ⟨hle, hone⟩
      errOlen := fun _ => rfl }

theorem finish_inv {s : State} (h : s.DataInv) (hcode : s.get .errcode = 0) : (finish s).Inv :=
  (State.inv_iff _).2 ⟨finish_dataInv h, finish_statusInv hcode⟩

theorem takeError_inv {s : State} (h : s.DataInv) {e : ErrKind} (he : e ≠ .inputType) :
    (takeError e s).Inv :=
  (State.inv_iff _).2 ⟨takeError_dataInv h e, takeError_statusInv he s⟩

/-- "never raised by this block" (60_exceptions.md rule R231). -/
theorem inputType_not_possible (i : Instr) : .inputType ∉ possibleErrors i := by
  cases i with
  | decode nt => cases nt <;> decide
  | _ => simp [possibleErrors]

theorem complete_commandBody_inv {s : State} (h : s.DataInv) (i : Instr) (inp : List Byte) :
    (complete (commandBody i inp (commonStart s))).Inv := by
  have hdata := commandBody_dataInv (commonStart_dataInv h) i inp
  have hraises := commandBody_raises i inp (commonStart s)
  have hcode : (commandBody i inp (commonStart s)).final.get .errcode = 0 :=
    commandBody_writes i inp (commonStart s) .errcode (by cases i <;> simp [writtenResults])
  cases hp : commandBody i inp (commonStart s) with
  | ok _ t =>
    rw [hp] at hdata hcode
    exact finish_inv hdata hcode
  | raised e t =>
    rw [hp] at hdata hraises
    exact takeError_inv hdata fun he => inputType_not_possible i (he ▸ hraises)

/-! ### Reset, host and step -/

theorem resetWith_inv {p : Config.Params} (h : p.wf = true) : (State.resetWith p).Inv where
  params := h
  status := .inl rfl
  errOnCode _ := by simp [State.err, State.resetWith]
  errcode := by simp [State.resetWith]
  errOlen _ := rfl
  crc := by simp [State.resetWith]
  crcStored := by simp [State.resetWith]
  crcComputed := by simp [State.resetWith]
  flags := by simp [State.resetWith]
  info := by simp [State.resetWith]
  origSize := by simp [State.resetWith]
  result := by simp [State.resetWith]
  ibuf := rfl
  ibufBelow := rfl
  obuf := rfl
  obufBelow := rfl

/-- Settles O47: `resetWith_inv`, for any parameters and for the test parameters. -/
theorem resetMeetsInvariant : Obligations.ResetMeetsInvariant :=
  ⟨fun _ h => resetWith_inv h, resetWith_inv (by decide)⟩

theorem resetRegisters_inv {s : State} (h : s.DataInv) : (resetRegisters s).Inv :=
  { resetWith_inv h.params with
    ibuf := h.ibuf, ibufBelow := h.ibufBelow, obuf := h.obuf, obufBelow := h.obufBelow }

theorem hardwareReset_inv {s : State} (h : s.DataInv) : (hardwareReset s).Inv :=
  { resetRegisters_inv h with ibuf := rfl, ibufBelow := rfl, obuf := rfl, obufBelow := rfl }

theorem exec_inv {i : Instr} {s t : State} (h : s.DataInv) (hx : exec i s = .next t) : t.Inv := by
  rcases exec_cases hx with ⟨-, rfl⟩ | ⟨-, -, rfl⟩ | ⟨-, inp, -, rfl⟩
  · exact resetRegisters_inv (commonStart_dataInv h)
  · exact takeError_inv (commonStart_dataInv h) (by decide)
  · exact complete_commandBody_inv h i inp

theorem engineTurn_inv {s t : State} (h : s.Inv) (he : engineTurn s = .next t) : t.Inv := by
  obtain ⟨hdata, -⟩ := (State.inv_iff s).1 h
  rcases engineTurn_cases he with ⟨-, rfl⟩ | ⟨-, i, -, hx⟩ | ⟨-, r, -, rfl⟩
  · exact h
  · exact exec_inv hdata hx
  · exact takeError_inv (commonStart_dataInv hdata) (by decide)

/-- An accepted CMD write leaves ERRCODE and OLEN of the command before, but clears ERR (10_state.md rule R25). -/
theorem acceptCommand_inv {s : State} (h : s.Inv) (w : Word) : (acceptCommand w s).Inv :=
  { h with
    status := .inr (.inl rfl)
    errOnCode := fun hb => by simp at hb
    errOlen := fun he => by simp at he }

theorem and_lowHalf_lt (v : Word) : (v &&& 0x0000FFFF).toNat < 2 ^ 16 := by
  rw [and_lowHalf, BitVec.toNat_ofNat]
  omega

theorem hostAccess_inv {a : HostAccess} {s t : State} (h : s.Inv) (ha : hostAccess a s = .next t) :
    t.Inv := by
  rcases hostAccess_cases ha with ⟨x, rfl⟩ | ⟨-, w, -, rfl⟩ | ⟨-, v, -, rfl⟩ | ⟨-, v, -, rfl⟩ |
    ⟨-, v, -, rfl⟩ | ⟨-, i, v, -, hi, rfl⟩
  · exact { h with }
  · exact { acceptCommand_inv h w with }
  · exact { h with }
  · exact { h with }
  · exact { h with crc := and_lowHalf_lt v }
  · exact
      { h with
        ibuf := Memory.wf_write _ i v h.ibuf
        ibufBelow := Memory.below_write _ _ i v hi h.ibufBelow }

/-- Settles O46, by the kinds of turn; using up a turn touches nothing the invariant speaks of. -/
theorem stepKeepsInvariant : Obligations.StepKeepsInvariant := by
  intro s t h hstep
  have hturn : ∀ rest, ({ s with events := rest } : State).Inv := fun rest => { h with }
  rcases step_cases hstep with ⟨-, he⟩ | ⟨rest, -, he⟩ | ⟨a, rest, -, ha⟩ | ⟨v, rest, -, rfl⟩ |
    ⟨rest, -, rfl⟩
  · exact engineTurn_inv h he
  · exact engineTurn_inv (hturn rest) he
  · exact hostAccess_inv (hturn rest) ha
  · exact { h with }
  · exact hardwareReset_inv ((State.inv_iff _).1 (hturn rest)).1

end Sys2Proof.Machine
end

section
/-!
PROOFS. The address spaces (20_memory.md): the fault of a command on an input byte never written, the host's accesses
to the buffers while BUSY = 0, and what is left of the host's accesses while BUSY = 1.
-/

namespace Sys2Proof.Machine

/-! ### An input byte never written (20_memory.md rule R65) -/

theorem inputTooLong_eq_false_iff (s : State) :
    inputTooLong s = false ↔ (s.get .ilen).toNat ≤ s.params.ibufSize := by
  rw [inputTooLong, decide_eq_false_iff_not, Nat.not_lt]

/-- The input operand is missing exactly when IBUF lacks one of the ILEN bytes it is read from. -/
theorem inputOf_eq_none_iff (s : State) :
    inputOf s = none ↔ ∃ k, k < (s.get .ilen).toNat ∧ s.ibuf.read k = none := by
  simp only [inputOf, Memory.readRange_eq_none, Nat.zero_add]

/-- The capacity check comes first, so an input longer than IBUF does not fault (45_system.md rule R220 phase 3). -/
theorem runOnInput_fault_iff (s : State) (body : List Byte → State → Proc Unit) :
    runOnInput s body = .fault .unwrittenInput ↔ inputTooLong s = false ∧ inputOf s = none := by
  constructor
  · intro h
    obtain ⟨-, hfits, hnone⟩ := runOnInput_fault h
    exact ⟨hfits, hnone⟩
  · rintro ⟨hfits, hnone⟩
    simp [runOnInput, hfits, hnone]

theorem exec_fault_iff (i : Instr) (s : State) :
    exec i s = .fault .unwrittenInput ↔
      readsInput i = true ∧ inputTooLong s = false ∧ inputOf s = none := by
  constructor
  · intro h
    rcases exec_total i s with ⟨t, ht⟩ | ⟨hreads, hfits, hnone, -⟩
    · rw [ht] at h
      cases h
    · exact ⟨hreads, hfits, hnone⟩
  · rintro ⟨hreads, hmissing⟩
    rw [exec_input i s hreads]
    exact (runOnInput_fault_iff s _).2 hmissing

/-- Settles O33: `exec_fault_iff`, with both conditions on the input in terms of ILEN and IBUF. -/
theorem unwrittenInputFaults : Obligations.UnwrittenInputFaults := by
  intro i s
  rw [exec_fault_iff, inputTooLong_eq_false_iff, inputOf_eq_none_iff]

/-! ### The host's buffer accesses while BUSY = 0 (20_memory.md rules R60 to R62) -/

/-- The state after the host's write of one byte inside a buffer's size. -/
def wroteBuffer (b : Buffer) (a : Nat) (v : Byte) (rest : List Event) (s : State) : State :=
  { bufWriteEffect b a v s with events := rest, response := none }

theorem wroteBuffer_get (b : Buffer) (a : Nat) (v : Byte) (rest : List Event) (s : State) (r : Reg) :
    (wroteBuffer b a v rest s).get r = s.get r := by
  cases b <;> cases r <;> rfl

/-- A write to OBUF is ignored (10_state.md rule R42). -/
theorem wroteBuffer_obuf (a : Nat) (v : Byte) (rest : List Event) (s : State) :
    wroteBuffer .obuf a v rest s = { s with events := rest, response := none } := rfl

theorem bufReadValue_ibuf {s : State} {a : Nat} {v : Byte} (h : s.ibuf.read a = some v) :
    bufReadValue .ibuf a s = v := by
  simp [bufReadValue, h]

theorem bufReadValue_obuf {s : State} {a : Nat} {v : Byte} (h : s.obuf.read a = some v) :
    bufReadValue .obuf a s = v := by
  simp [bufReadValue, h]

theorem step_bufWrite {s : State} (hidle : s.busy = false) {b : Buffer} {a : Nat}
    (h : a < bufferSize b s) (v : Byte) (rest : List Event) :
    step { s with events := .host (.bufWrite b a v) :: rest } = .next (wroteBuffer b a v rest s) := by
  rw [step_host_idle hidle]
  cases b <;> exact if_pos h

theorem step_bufRead {s : State} (hidle : s.busy = false) {b : Buffer} {a : Nat}
    (h : a < bufferSize b s) {v : Byte} (hv : bufReadValue b a s = v) (rest : List Event) :
    step { s with events := .host (.bufRead b a) :: rest } =
      .next { s with events := rest, response := some (.byte v) } := by
  rw [step_host_idle hidle, ← hv]
  cases b <;> exact if_pos h

/-- At or above its size a buffer can be neither written nor read (20_memory.md rule R61). -/
theorem step_buffer_outside {s : State} (hidle : s.busy = false) {b : Buffer} {a : Nat}
    (h : bufferSize b s ≤ a) (v : Byte) (rest : List Event) :
    step { s with events := .host (.bufWrite b a v) :: rest } = .refused .bufferIndexOutside ∧
      step { s with events := .host (.bufRead b a) :: rest } = .refused .bufferIndexOutside := by
  rw [step_host_idle hidle, step_host_idle hidle]
  cases b <;> exact ⟨if_neg (Nat.not_lt.2 h), if_neg (Nat.not_lt.2 h)⟩

/-- Settles O55: the step of each access; the byte read back is the one `Memory.write` put at its index. -/
theorem hostAccessesBuffers : Obligations.HostAccessesBuffers := by
  intro s rest a v hidle
  refine ⟨fun hin => ?ibuf, fun hin => ?obuf, fun hout => ?ibufOutside, fun hout => ?obufOutside⟩
  case ibuf =>
    let t := wroteBuffer .ibuf a v (.host (.bufRead .ibuf a) :: rest) s
    have hread : t.ibuf.read a = some v := Memory.read_write_same s.ibuf a v
    have hothers : ∀ b, b ≠ a → t.ibuf.read b = s.ibuf.read b :=
      fun b hb => Memory.read_write_ne s.ibuf a b v hb
    have hreadBack := step_bufRead (s := t) (b := .ibuf) hidle hin (bufReadValue_ibuf hread) rest
    exact ⟨t, step_bufWrite hidle hin v _, hread, hothers, wroteBuffer_get .ibuf a v _ s, rfl, rfl, rfl,
      _, hreadBack, rfl⟩
  case obuf =>
    refine ⟨?_, fun hv => step_bufRead (b := .obuf) hidle hin (bufReadValue_obuf hv) rest⟩
    rw [step_bufWrite (b := .obuf) hidle hin, wroteBuffer_obuf]
  case ibufOutside => exact step_buffer_outside (b := .ibuf) hidle hout v rest
  case obufOutside => exact step_buffer_outside (b := .obuf) hidle hout v rest

/-! ### The host's accesses while BUSY = 1 (20_memory.md rule R73) -/

/-- With BUSY = 1 a host turn is one access of the BUSY window. -/
theorem step_host_busy {s : State} (h : s.busy = true) (a : HostAccess) (rest : List Event) :
    step { s with events := .host a :: rest } = accessBusy a { s with events := rest } :=
  if_pos h

theorem accessBusy_refused {a : HostAccess} (hread : a ≠ .regRead 1) (hwrite : ∀ w, a ≠ .regWrite 0 w)
    (s : State) : accessBusy a s = .refused .accessWhileBusy := by
  unfold accessBusy
  split
  case h_1 => exact absurd rfl hread
  case h_2 w => exact absurd rfl (hwrite w)
  case h_3 => rfl

/-- Settles O56: the two accesses the window lets through, and `accessBusy_refused` for the rest. -/
theorem busyWindowAccesses : Obligations.BusyWindowAccesses := by
  intro s rest hbusy
  simp only [step_host_busy hbusy]
  exact ⟨rfl, fun _ => rfl, fun a hread hwrite => accessBusy_refused hread hwrite _⟩

end Sys2Proof.Machine
end

section
/-!
Command words: the opcode table read as a relation between words and commands, and `decode` and `encode`
as the two directions of it (30_encoding.md rules R81 to R85).
-/

namespace Sys2Proof

/-! ### The rows are disjoint -/

theorem OpcodeRow.accepts_iff (r : OpcodeRow) (w : Word) : r.accepts w = true ↔ w &&& r.mask = r.pattern :=
  beq_iff_eq

/-- Two rows that accept one word agree on the bits both of them fix. -/
theorem OpcodeRow.pattern_and_mask_eq {r q : OpcodeRow} {w : Word} (hr : w &&& r.mask = r.pattern)
    (hq : w &&& q.mask = q.pattern) : r.pattern &&& q.mask = q.pattern &&& r.mask := by
  rw [← hr, ← hq, BitVec.and_assoc, BitVec.and_assoc, BitVec.and_comm r.mask]

theorem opcodeTable_patterns_differ :
    opcodeTable.Pairwise fun r q => r.pattern &&& q.mask ≠ q.pattern &&& r.mask := by
  decide

theorem opcodeTable_pairwise_disjoint :
    opcodeTable.Pairwise fun r q => ∀ w : Word, ¬ (w &&& r.mask = r.pattern ∧ w &&& q.mask = q.pattern) :=
  opcodeTable_patterns_differ.imp fun hne _ ⟨hr, hq⟩ => hne (OpcodeRow.pattern_and_mask_eq hr hq)

/-- A word lies in at most one row. -/
theorem opcodeTable_row_unique {r q : OpcodeRow} (hr : r ∈ opcodeTable) (hq : q ∈ opcodeTable) {w : Word}
    (hrw : r.accepts w = true) (hqw : q.accepts w = true) : r = q := by
  rw [OpcodeRow.accepts_iff] at hrw hqw
  have hsymm : Std.Symm fun r q : OpcodeRow => r.pattern &&& q.mask ≠ q.pattern &&& r.mask := ⟨fun _ _ => Ne.symm⟩
  by_contra hne
  exact opcodeTable_patterns_differ.forall hr hq hne (OpcodeRow.pattern_and_mask_eq hrw hqw)

/-! ### The decoder -/

/-- The decoder is the table: the order of the rows plays no part, since they are disjoint. -/
theorem decode_eq_ok_iff_row (w : Word) (i : Instr) :
    decode w = .ok i ↔ ∃ r ∈ opcodeTable, r.accepts w = true ∧ r.build w = i := by
  unfold decode
  cases hfind : opcodeTable.find? (fun r => r.accepts w) with
  | none =>
    have hnone := List.find?_eq_none.mp hfind
    constructor
    · intro h
      cases h
    · rintro ⟨r, hr, hrw, -⟩
      exact absurd hrw (hnone r hr)
  | some q =>
    have hq := List.mem_of_find?_eq_some hfind
    have hqw : q.accepts w = true := List.find?_some (p := fun r : OpcodeRow => r.accepts w) hfind
    constructor
    · intro h
      exact ⟨q, hq, hqw, Except.ok.inj h⟩
    · rintro ⟨r, hr, hrw, rfl⟩
      rw [opcodeTable_row_unique hr hq hrw hqw]

/-! ### Words with one free bit -/

/-- The command word with bit `k` as its option: `p` with the bit set or clear. -/
def optionWord (p : Word) (k : Nat) (b : Bool) : Word := if b then p ||| BitVec.twoPow 32 k else p

theorem getLsbD_and_not_twoPow (w : Word) (k j : Nat) :
    (w &&& ~~~ BitVec.twoPow 32 k).getLsbD j = if k = j then false else w.getLsbD j := by
  rw [BitVec.getLsbD_and, BitVec.getLsbD_not, BitVec.getLsbD_twoPow]
  by_cases hj : j < 32
  · by_cases hkj : k = j <;> simp [hj, hkj]
  · simp [BitVec.getLsbD_of_ge w j (Nat.not_lt.mp hj)]

theorem getLsbD_optionWord {p : Word} {k : Nat} (hk : k < 32) (hp : p.getLsbD k = false) (b : Bool) (j : Nat) :
    (optionWord p k b).getLsbD j = if k = j then b else p.getLsbD j := by
  cases b with
  | false =>
    rw [show optionWord p k false = p from rfl]
    split
    case isTrue hkj => rw [← hkj, hp]
    case isFalse => rfl
  | true =>
    rw [show optionWord p k true = p ||| BitVec.twoPow 32 k from rfl, BitVec.getLsbD_or, BitVec.getLsbD_twoPow]
    split
    case isTrue hkj => simp [← hkj, hk]
    case isFalse hkj => simp [hkj]

/-- A word matches `p` outside bit `k` exactly when it is `p` with its own bit `k` put in. -/
theorem optionWord_eq_iff {p : Word} {k : Nat} (hk : k < 32) (hp : p.getLsbD k = false) (b : Bool) (w : Word) :
    optionWord p k b = w ↔ w &&& ~~~ BitVec.twoPow 32 k = p ∧ w.getLsbD k = b := by
  constructor
  · rintro rfl
    refine ⟨BitVec.eq_of_getLsbD_eq fun j _ => ?_, by rw [getLsbD_optionWord hk hp, if_pos rfl]⟩
    rw [getLsbD_and_not_twoPow, getLsbD_optionWord hk hp]
    split
    case isTrue hkj => rw [← hkj, hp]
    case isFalse => rfl
  · rintro ⟨rfl, rfl⟩
    refine BitVec.eq_of_getLsbD_eq fun j _ => ?_
    rw [getLsbD_optionWord hk hp, getLsbD_and_not_twoPow]
    split
    case isTrue hkj => rw [hkj]
    case isFalse => rfl

/-! ### The words of the commands -/

theorem eq_iff_and_allOnes (p w : Word) : p = w ↔ w &&& 0xFFFFFFFF = p := by
  rw [show (0xFFFFFFFF : Word) = BitVec.allOnes 32 from rfl, BitVec.and_allOnes, eq_comm]

theorem encode_encode_eq_iff (nc : Bool) (w : Word) :
    encode (.encode nc) = w ↔ w &&& 0xFFFFFEFF = 0x00000040 ∧ w.getLsbD 8 = nc :=
  optionWord_eq_iff (p := 0x00000040) (k := 8) (by decide) (by decide) nc w

theorem encode_encodeTtl_eq_iff (nc : Bool) (w : Word) :
    encode (.encodeTtl nc) = w ↔ w &&& 0xFFFFFEFF = 0x00000041 ∧ w.getLsbD 8 = nc :=
  optionWord_eq_iff (p := 0x00000041) (k := 8) (by decide) (by decide) nc w

theorem encode_decode_eq_iff (nt : Bool) (w : Word) :
    encode (.decode nt) = w ↔ w &&& 0xFFFFFDFF = 0x00000042 ∧ w.getLsbD 9 = nt :=
  optionWord_eq_iff (p := 0x00000042) (k := 9) (by decide) (by decide) nt w

/-- A row builds, from a word it accepts, the command whose word that is. -/
theorem encode_build : ∀ r ∈ opcodeTable, ∀ w : Word, w &&& r.mask = r.pattern → encode (r.build w) = w := by
  have plain {p : Word} (w : Word) : w &&& 0xFFFFFFFF = p → p = w := (eq_iff_and_allOnes p w).mpr
  have withNc (w : Word) (h : w &&& 0xFFFFFEFF = 0x00000040) : encode (.encode (ncField w)) = w :=
    (encode_encode_eq_iff _ w).mpr ⟨h, rfl⟩
  have withNcTtl (w : Word) (h : w &&& 0xFFFFFEFF = 0x00000041) : encode (.encodeTtl (ncField w)) = w :=
    (encode_encodeTtl_eq_iff _ w).mpr ⟨h, rfl⟩
  have withNt (w : Word) (h : w &&& 0xFFFFFDFF = 0x00000042) : encode (.decode (ntField w)) = w :=
    (encode_decode_eq_iff _ w).mpr ⟨h, rfl⟩
  simp only [opcodeTable, List.forall_mem_cons]
  exact ⟨plain, plain, plain, plain, plain, plain, plain, plain, plain, withNc, withNcTtl, withNt,
    plain, plain, plain, plain, List.forall_mem_nil _⟩

theorem encodedInRow (i : Instr) : Laws.EncodedInRow.Statement i := by
  cases i with
  | nop => exact Laws.EncodedInRow.nop
  | sreset => exact Laws.EncodedInRow.sreset
  | crcInit => exact Laws.EncodedInRow.crcInit
  | crcUpdate => exact Laws.EncodedInRow.crcUpdate
  | crcCalc => exact Laws.EncodedInRow.crcCalc
  | sxtEnc => exact Laws.EncodedInRow.sxtEnc
  | sxtDec => exact Laws.EncodedInRow.sxtDec
  | dflStore => exact Laws.EncodedInRow.dflStore
  | dflUnstore => exact Laws.EncodedInRow.dflUnstore
  | encode nc => exact Laws.EncodedInRow.encode nc
  | encodeTtl nc => exact Laws.EncodedInRow.encodeTtl nc
  | decode nt => exact Laws.EncodedInRow.decode nt
  | inspect => exact Laws.EncodedInRow.inspect
  | verify => exact Laws.EncodedInRow.verify
  | validate => exact Laws.EncodedInRow.validate
  | info => exact Laws.EncodedInRow.info

theorem decode_encode (i : Instr) : decode (encode i) = .ok i :=
  (decode_eq_ok_iff_row _ i).mpr (encodedInRow i).1

theorem encode_of_decode {w : Word} {i : Instr} (h : decode w = .ok i) : encode i = w := by
  obtain ⟨r, hr, hrw, rfl⟩ := (decode_eq_ok_iff_row w i).mp h
  exact encode_build r hr w ((r.accepts_iff w).mp hrw)

/-- The decoder and the encoder are one relation between words and commands. -/
theorem decode_eq_ok_iff (w : Word) (i : Instr) : decode w = .ok i ↔ encode i = w :=
  ⟨encode_of_decode, by rintro rfl; exact decode_encode i⟩

/-- Settles O4: `decode_encode` and `encode_of_decode`. -/
theorem decodeEncodeAgree : Obligations.DecodeEncodeAgree :=
  ⟨fun i _ => decode_encode i, fun _ _ => encode_of_decode⟩

/-! ### The legal words (30_encoding.md rule R83) -/

/-- A word below 2^10 is its OP field and its two option bits. -/
theorem toNat_eq_op_add_options {w : Word} (h : w.toNat < 2 ^ 10) :
    w.toNat = w.toNat % 256 + 256 * (w.getLsbD 8).toNat + 512 * (w.getLsbD 9).toNat := by
  simp only [BitVec.getLsbD, Nat.toNat_testBit]
  omega

/-- Every OP value of the opcode map is a command's word, all its options clear. -/
theorem exists_encode_toNat_eq : ∀ op ∈ [0x00, 0x01, 0x10, 0x11, 0x12, 0x20, 0x21, 0x30, 0x31, 0x40, 0x41, 0x42,
    0x43, 0x44, 0x45, 0x46], ∃ i, (encode i).toNat = op := by
  simp only [List.forall_mem_cons]
  exact ⟨⟨.nop, rfl⟩, ⟨.sreset, rfl⟩, ⟨.crcInit, rfl⟩, ⟨.crcUpdate, rfl⟩, ⟨.crcCalc, rfl⟩, ⟨.sxtEnc, rfl⟩,
    ⟨.sxtDec, rfl⟩, ⟨.dflStore, rfl⟩, ⟨.dflUnstore, rfl⟩, ⟨.encode false, rfl⟩, ⟨.encodeTtl false, rfl⟩,
    ⟨.decode false, rfl⟩, ⟨.inspect, rfl⟩, ⟨.verify, rfl⟩, ⟨.validate, rfl⟩, ⟨.info, rfl⟩,
    List.forall_mem_nil _⟩

/-- Settles O5: by `decode_eq_ok_iff` the legal words are the commands' words. A word that meets the conditions
is told apart by its option bits: none set leaves the OP value alone, and each set bit leaves its own commands. -/
theorem legalWordsExactly : Obligations.LegalWordsExactly := by
  intro w
  simp only [decode_eq_ok_iff]
  constructor
  · rintro ⟨i, rfl⟩
    cases i with
    | encode nc => cases nc <;> decide
    | encodeTtl nc => cases nc <;> decide
    | decode nt => cases nt <;> decide
    | _ => decide
  · rintro ⟨hzero, hop, hnc, hnt⟩
    have hw := toNat_eq_op_add_options hzero
    cases hncw : w.getLsbD 8 <;> cases hntw : w.getLsbD 9 <;> rw [hncw, hntw] at hw
    case false.false =>
      obtain ⟨i, hi⟩ := exists_encode_toNat_eq _ hop
      exact ⟨i, BitVec.eq_of_toNat_eq (hi.trans hw.symm)⟩
    case true.false =>
      obtain hop | hop := hnc hncw <;> rw [hop] at hw
      · exact ⟨.encode true, BitVec.eq_of_toNat_eq hw.symm⟩
      · exact ⟨.encodeTtl true, BitVec.eq_of_toNat_eq hw.symm⟩
    case false.true =>
      rw [hnt hntw] at hw
      exact ⟨.decode true, BitVec.eq_of_toNat_eq hw.symm⟩
    case true.true =>
      have hopNc := hnc hncw
      have hopNt := hnt hntw
      omega

/-! ### The opcode map (30_encoding.md rules R81, R82 and R85) -/

/-- Settles O6: by `decode_eq_ok_iff` each row asks when `w` is the row's word, with its option bit if it has one. -/
theorem opcodeMap : Obligations.OpcodeMap := by
  refine ⟨fun w => ?_, rfl, opcodeTable_pairwise_disjoint⟩
  simp only [decode_eq_ok_iff]
  have plain (p : Word) : p = w ↔ w &&& 0xFFFFFFFF = p := eq_iff_and_allOnes p w
  exact ⟨plain _, plain _, plain _, plain _, plain _, plain _, plain _, plain _, plain _,
    fun nc => encode_encode_eq_iff nc w, fun nc => encode_encodeTtl_eq_iff nc w,
    fun nt => encode_decode_eq_iff nt w, plain _, plain _, plain _, plain _⟩

theorem decodeTableWord_encode (i : Instr) : decodeTableWord 32 (encode i).toNat = some i := by
  unfold decodeTableWord
  rw [Nat.mod_eq_of_lt (encode i).isLt, BitVec.ofNat_toNat, BitVec.setWidth_eq, decode_encode]

/-- Settles O3: seven of the words are `encode` of a command; the eighth sets NC beside the OP of DECODE. -/
theorem sampleWordsDecode : Obligations.SampleWordsDecode :=
  ⟨decodeTableWord_encode .nop, decodeTableWord_encode .crcUpdate, decodeTableWord_encode .sxtDec,
    decodeTableWord_encode .dflStore, decodeTableWord_encode (.encode true), decodeTableWord_encode (.decode true),
    decodeTableWord_encode .info, by decide⟩

end Sys2Proof
end

section
/-!
PROOFS. The sextet transform and its two commands (40_sextet.md). Three layers: one group, and texts of whole groups,
where encoding and decoding are inverse; a text as whole groups and a last group, the only one that may be padded;
a command whose output fits OBUF.
-/

namespace Sys2Proof.Machine

open Sys2Proof.Config (Params)

/-! ### One group (40_sextet.md rules R111, R112, R115 and R116) -/

/-- Removing the magic constant undoes adding it. -/
@[simp] theorem sextetValue_symbolByte {p : Params} (hp : p.wf = true) (v : Sextet) :
    sextetValue p (symbolByte p (maskedSymbol v)) = v := by
  simp [sextetValue, maskedSymbol, symbolByte, amap_alphaAt hp]

theorem symbolByte_mem_alpha (p : Params) (v : Sextet) :
    symbolByte p (maskedSymbol v) ∈ p.alpha.toList :=
  List.getElem_mem ..

/-- A character of the alphabet stands for exactly one sextet. -/
theorem symbolByte_eq_iff {p : Params} (hp : p.wf = true) {c : Byte} (hc : c ∈ p.alpha.toList) (v : Sextet) :
    symbolByte p (maskedSymbol v) = c ↔ v = sextetValue p c := by
  constructor
  · rintro rfl
    rw [sextetValue_symbolByte hp]
  · rintro rfl
    obtain ⟨k, hk⟩ := Option.isSome_iff_exists.mp ((amap_isSome_iff p c).mpr hc)
    simp [sextetValue, hk, maskedSymbol, symbolByte, alphaAt_of_amap hk]

@[simp] theorem symbolByte_sextetValue {p : Params} (hp : p.wf = true) {c : Byte} (hc : c ∈ p.alpha.toList) :
    symbolByte p (maskedSymbol (sextetValue p c)) = c :=
  (symbolByte_eq_iff hp hc _).mpr rfl

@[simp] theorem sextet0_groupByte0 (v0 v1 : Sextet) : sextet0 (groupByte0 v0 v1) = v0 := by
  unfold sextet0 groupByte0
  ext i hi
  interval_cases i <;> simp

@[simp] theorem sextet1_groupBytes (v0 v1 v2 : Sextet) :
    sextet1 (groupByte0 v0 v1) (groupByte1 v1 v2) = v1 := by
  unfold sextet1 groupByte0 groupByte1
  ext i hi
  interval_cases i <;> simp

@[simp] theorem sextet2_groupBytes (v1 v2 v3 : Sextet) :
    sextet2 (groupByte1 v1 v2) (groupByte2 v2 v3) = v2 := by
  unfold sextet2 groupByte1 groupByte2
  ext i hi
  interval_cases i <;> simp

@[simp] theorem sextet3_groupByte2 (v2 v3 : Sextet) : sextet3 (groupByte2 v2 v3) = v3 := by
  unfold sextet3 groupByte2
  ext i hi
  interval_cases i <;> simp

/-- Without a second byte, only the high two bits of the second sextet come back. -/
theorem sextet1_groupByte0_zero (v0 v1 : Sextet) : sextet1 (groupByte0 v0 v1) 0 = v1 &&& 0x30 := by
  unfold sextet1 groupByte0
  ext i hi
  interval_cases i <;> simp

/-- Without a third byte, only the high four bits of the third sextet come back. -/
theorem sextet2_groupByte1_zero (v1 v2 : Sextet) : sextet2 (groupByte1 v1 v2) 0 = v2 &&& 0x3C := by
  unfold sextet2 groupByte1
  ext i hi
  interval_cases i <;> simp

/-- The second sextet comes back from one byte exactly when its low four bits are zero. -/
theorem sextet1_groupByte0_zero_eq_iff (v0 v1 : Sextet) :
    sextet1 (groupByte0 v0 v1) 0 = v1 ↔ v1 &&& 0x0F = 0 := by
  rw [sextet1_groupByte0_zero]
  revert v1
  decide

/-- The third sextet comes back from two bytes exactly when its low two bits are zero. -/
theorem sextet2_groupByte1_zero_eq_iff (v1 v2 : Sextet) :
    sextet2 (groupByte1 v1 v2) 0 = v2 ↔ v2 &&& 0x03 = 0 := by
  rw [sextet2_groupByte1_zero]
  revert v2
  decide

/-- The first byte of a group does not depend on the low four bits of the second sextet. -/
theorem groupByte0_congr (v0 : Sextet) {v v' : Sextet} (h : v >>> 4 = v' >>> 4) :
    groupByte0 v0 v = groupByte0 v0 v' := by
  have hbyte (v : Sextet) : v.setWidth 8 >>> 4 = (v >>> 4).setWidth 8 := by revert v; decide
  rw [groupByte0, groupByte0, hbyte, hbyte, h]

/-- The second byte of a group does not depend on the low two bits of the third sextet. -/
theorem groupByte1_congr (v1 : Sextet) {v v' : Sextet} (h : v >>> 2 = v' >>> 2) :
    groupByte1 v1 v = groupByte1 v1 v' := by
  have hbyte (v : Sextet) : v.setWidth 8 >>> 2 = (v >>> 2).setWidth 8 := by revert v; decide
  rw [groupByte1, groupByte1, hbyte, hbyte, h]

/-! ### Whole groups -/

@[simp] theorem textOf_nil (p : Params) : textOf p [] = [] := rfl

@[simp] theorem textOf_cons (p : Params) (x : Symbol) (xs : List Symbol) :
    textOf p (x :: xs) = symbolByte p x :: textOf p xs := rfl

@[simp] theorem textOf_append (p : Params) (xs ys : List Symbol) :
    textOf p (xs ++ ys) = textOf p xs ++ textOf p ys :=
  List.map_append ..

@[simp] theorem symbolByte_padSym (p : Params) : symbolByte p .padSym = p.pad := rfl

/-- Whole groups of three bytes are encoded on their own. -/
theorem sxtEnc_append {as : List Byte} (h : as.length % 3 = 0) (bs : List Byte) :
    sxtEnc (as ++ bs) = sxtEnc as ++ sxtEnc bs := by
  induction as using sxtEnc.induct with
  | case1 => rfl
  | case2 b0 => simp at h
  | case3 b0 b1 => simp at h
  | case4 b0 b1 b2 rest ih =>
    have hrest : rest.length % 3 = 0 := by simp at h; omega
    simp [sxtEnc, ih hrest]

/-- Whole groups of bytes become characters of the alphabet, without padding. -/
theorem textOf_sxtEnc_mem_alpha (p : Params) {bs : List Byte} (h : bs.length % 3 = 0) :
    ∀ c ∈ textOf p (sxtEnc bs), c ∈ p.alpha.toList := by
  induction bs using sxtEnc.induct with
  | case1 => simp [sxtEnc]
  | case2 b0 => simp at h
  | case3 b0 b1 => simp at h
  | case4 b0 b1 b2 rest ih =>
    have hrest : rest.length % 3 = 0 := by simp at h; omega
    simpa only [sxtEnc, textOf_cons, List.forall_mem_cons, symbolByte_mem_alpha, true_and] using ih hrest

/-- Decoding undoes encoding on whole groups. -/
theorem groupBytes_textOf_sxtEnc {p : Params} (hp : p.wf = true) {bs : List Byte} (h : bs.length % 3 = 0) :
    groupBytes p (textOf p (sxtEnc bs)) = bs := by
  induction bs using sxtEnc.induct with
  | case1 => rfl
  | case2 b0 => simp at h
  | case3 b0 b1 => simp at h
  | case4 b0 b1 b2 rest ih =>
    have hrest : rest.length % 3 = 0 := by simp at h; omega
    simp [sxtEnc, groupBytes, hp, ih hrest]

/-- Whole groups of four characters are decoded on their own. -/
theorem groupBytes_append (p : Params) {t : List Byte} (h : t.length % 4 = 0) (u : List Byte) :
    groupBytes p (t ++ u) = groupBytes p t ++ groupBytes p u := by
  match t, h with
  | [], _ => rfl
  | t0 :: t1 :: t2 :: t3 :: rest, h =>
    have hrest : rest.length % 4 = 0 := by simp at h; omega
    simp [groupBytes, groupBytes_append p hrest u]

/-- Encoding undoes decoding on whole groups of characters of the alphabet. -/
theorem textOf_sxtEnc_groupBytes {p : Params} (hp : p.wf = true) {t : List Byte} (h : t.length % 4 = 0)
    (hchars : ∀ c ∈ t, c ∈ p.alpha.toList) : textOf p (sxtEnc (groupBytes p t)) = t := by
  match t, h with
  | [], _ => rfl
  | t0 :: t1 :: t2 :: t3 :: rest, h =>
    have hrest : rest.length % 4 = 0 := by simp at h; omega
    obtain ⟨h0, h1, h2, h3, hchars⟩ := by simpa only [List.forall_mem_cons] using hchars
    simp only [groupBytes, sxtEnc, sextet0_groupByte0, sextet1_groupBytes, sextet2_groupBytes, sextet3_groupByte2,
      textOf_cons, symbolByte_sextetValue hp, h0, h1, h2, h3, textOf_sxtEnc_groupBytes hp hrest hchars]

/-! ### The last group (40_sextet.md rule R114)

A non-empty text is whole groups and a last group. Only the last group may be padded, so legality, the padding count
and the decoded bytes all show in it. -/

/-- A non-empty list is whole groups of `n` and a last group of 1 to `n`. -/
theorem exists_append_lastGroup {α : Type} (n : Nat) (hn : 0 < n) {l : List α} (hl : l ≠ []) :
    ∃ as g, l = as ++ g ∧ as.length % n = 0 ∧ 0 < g.length ∧ g.length ≤ n := by
  have hlen : 0 < l.length := List.length_pos_iff.mpr hl
  have hdiv := Nat.div_add_mod (l.length - 1) n
  have hmod := Nat.mod_lt (l.length - 1) hn
  refine ⟨l.take (n * ((l.length - 1) / n)), l.drop (n * ((l.length - 1) / n)), (List.take_append_drop ..).symm,
    ?_, ?_, ?_⟩
  · rw [List.length_take_of_le (by omega), Nat.mul_mod_right]
  · rw [List.length_drop]; omega
  · rw [List.length_drop]; omega

theorem exists_append_group {t : List Byte} (ht : t ≠ []) (h : t.length % 4 = 0) :
    ∃ u w x y z, t = u ++ [w, x, y, z] := by
  obtain ⟨u, g, rfl, hu, hpos, hle⟩ := exists_append_lastGroup 4 (by decide) ht
  have hg : g.length = 4 := by rw [List.length_append] at h; omega
  match g, hg with
  | [w, x, y, z], _ => exact ⟨u, w, x, y, z, rfl⟩

/-- PAD is outside the alphabet, so a character of the alphabet is a legal character that is not PAD. -/
theorem mem_alpha_iff {p : Params} (hp : p.wf = true) (c : Byte) :
    c ∈ p.alpha.toList ↔ c ≠ p.pad ∧ (c = p.pad ∨ c ∈ p.alpha.toList) := by
  have hpad : c = p.pad → c ∉ p.alpha.toList := by
    rintro rfl
    exact (Params.wf_alphabet hp).2
  tauto

/-- Checks 3 and 4 of 40_sextet.md rule R114 on a text with its last group in sight. -/
theorem padPlaced_append_group_iff (p : Params) (u : List Byte) (w x y z : Byte) :
    padPlaced p (u ++ [w, x, y, z]) = true ↔
      (∀ c ∈ u ++ [w, x], c ≠ p.pad) ∧ ¬ (y = p.pad ∧ z ≠ p.pad) := by
  have htake : (u ++ [w, x, y, z]).take ((u ++ [w, x, y, z]).length - 2) = u ++ [w, x] := by
    simp [List.take_append]
  have hdrop : (u ++ [w, x, y, z]).drop ((u ++ [w, x, y, z]).length - 2) = [y, z] := by simp
  rw [padPlaced, htake, hdrop]
  generalize u ++ [w, x] = v
  simp [imp_iff_not_or]

/-- The last two characters of a legal text: no padding, one, or two. -/
def LegalEnd (p : Params) (y z : Byte) : Prop :=
  y ∈ p.alpha.toList ∧ z ∈ p.alpha.toList ∨ y ∈ p.alpha.toList ∧ z = p.pad ∨ y = p.pad ∧ z = p.pad

/-- `LegalEnd` is what checks 4 and 5 of 40_sextet.md rule R114 ask of the last two characters. -/
theorem legalEnd_iff {p : Params} (hp : p.wf = true) (y z : Byte) :
    LegalEnd p y z ↔
      ¬ (y = p.pad ∧ z ≠ p.pad) ∧ (y = p.pad ∨ y ∈ p.alpha.toList) ∧ (z = p.pad ∨ z ∈ p.alpha.toList) := by
  have hy := mem_alpha_iff hp y
  have hz := mem_alpha_iff hp z
  unfold LegalEnd
  by_cases hypad : y = p.pad <;> grind

/-- The checks of 40_sextet.md rule R114: padding is found nowhere but at the end. -/
theorem legalText_append_group_iff {p : Params} (hp : p.wf = true) (u : List Byte) (w x y z : Byte) :
    LegalText p (u ++ [w, x, y, z]) ↔
      u.length % 4 = 0 ∧ (∀ c ∈ u ++ [w, x], c ∈ p.alpha.toList) ∧ LegalEnd p y z := by
  have hlength : (u ++ [w, x, y, z]).length % 4 = 0 ↔ u.length % 4 = 0 := by simp
  have hchars : (∀ c ∈ u ++ [w, x, y, z], c = p.pad ∨ c ∈ p.alpha.toList) ↔
      (∀ c ∈ u ++ [w, x], c = p.pad ∨ c ∈ p.alpha.toList) ∧
        (y = p.pad ∨ y ∈ p.alpha.toList) ∧ (z = p.pad ∨ z ∈ p.alpha.toList) := by
    rw [show u ++ [w, x, y, z] = (u ++ [w, x]) ++ [y, z] by simp, List.forall_mem_append]
    simp
  have hearly : (∀ c ∈ u ++ [w, x], c ∈ p.alpha.toList) ↔
      (∀ c ∈ u ++ [w, x], c ≠ p.pad) ∧ ∀ c ∈ u ++ [w, x], c = p.pad ∨ c ∈ p.alpha.toList := by
    rw [← forall₂_and]
    exact forall₂_congr fun c _ => mem_alpha_iff hp c
  rw [← textLegal_iff, textLegal, Bool.and_eq_true, Bool.and_eq_true, beq_iff_eq, hlength,
    padPlaced_append_group_iff, charsLegal_iff, hchars, hearly, legalEnd_iff hp]
  exact ⟨fun ⟨⟨hlen, hnoPad, hsuffix⟩, hfirst, hpair⟩ => ⟨hlen, ⟨hnoPad, hfirst⟩, hsuffix, hpair⟩,
    fun ⟨hlen, ⟨hnoPad, hfirst⟩, hsuffix, hpair⟩ => ⟨⟨hlen, hnoPad, hsuffix⟩, hfirst, hpair⟩⟩

@[simp] theorem padCount_append_group (p : Params) (u : List Byte) (w x y z : Byte) :
    padCount p (u ++ [w, x, y, z]) = if z = p.pad then (if y = p.pad then 2 else 1) else 0 := by
  simp [padCount]

/-- The bytes of a legal text: those of its whole groups, and those of the last group without the discarded ones. -/
theorem sxtDec_append_group {p : Params} {u : List Byte} {w x y z : Byte} (h : LegalText p (u ++ [w, x, y, z])) :
    sxtDec p (u ++ [w, x, y, z]) =
      .ok (groupBytes p u ++ (groupBytes p [w, x, y, z]).take (3 - padCount p (u ++ [w, x, y, z]))) := by
  have hu : u.length % 4 = 0 := by simpa using h.length
  have hpads := padCount_le p (u ++ [w, x, y, z])
  have hlength : decodedLength p (u ++ [w, x, y, z]) =
      (groupBytes p u).length + (3 - padCount p (u ++ [w, x, y, z])) := by
    rw [decodedLength, groupBytes_length, List.length_append, List.length_cons]
    simp only [List.length_cons, List.length_nil]
    omega
  rw [sxtDec, if_pos ((textLegal_iff p _).mpr h), groupBytes_append p hu, hlength, List.take_length_add_append]

@[simp] theorem sxtDec_nil (p : Params) : sxtDec p [] = .ok [] := by
  simp [sxtDec, textLegal, padPlaced, charsLegal, groupBytes]

theorem legalText_of_sxtDec {p : Params} {t bs : List Byte} (h : sxtDec p t = .ok bs) : LegalText p t := by
  obtain ⟨hlegal, -⟩ | ⟨-, herror⟩ := sxtDec_cases p t
  · exact hlegal
  · rw [herror] at h
    cases h

/-! ### The round trip (40_sextet.md rule R117) -/

theorem symbolByte_ne_pad {p : Params} (hp : p.wf = true) (v : Sextet) : symbolByte p (maskedSymbol v) ≠ p.pad :=
  fun h => (Params.wf_alphabet hp).2 (h ▸ symbolByte_mem_alpha p v)

/-- Decoding undoes encoding, by the length of the last group of bytes. -/
theorem sxtDec_textOf_sxtEnc {p : Params} (hp : p.wf = true) (bs : List Byte) :
    sxtDec p (textOf p (sxtEnc bs)) = .ok bs := by
  by_cases hbs : bs = []
  · rw [hbs, sxtEnc, textOf_nil, sxtDec_nil]
  obtain ⟨as, g, rfl, has, hpos, hle⟩ := exists_append_lastGroup 3 (by decide) hbs
  have hbytes := groupBytes_textOf_sxtEnc hp has
  have hmem := symbolByte_mem_alpha p
  have hchars (v0 v1 : Sextet) : ∀ c ∈ textOf p (sxtEnc as) ++
      [symbolByte p (maskedSymbol v0), symbolByte p (maskedSymbol v1)], c ∈ p.alpha.toList := by
    rw [List.forall_mem_append]
    exact ⟨textOf_sxtEnc_mem_alpha p has, by simp [hmem, -Vector.mem_toList_iff]⟩
  have hlegal (v0 v1 : Sextet) {y z : Byte} (hend : LegalEnd p y z) :=
    (legalText_append_group_iff hp (textOf p (sxtEnc as)) _ _ y z).mpr ⟨by simp, hchars v0 v1, hend⟩
  rw [sxtEnc_append has, textOf_append]
  match g, hpos, hle with
  | [b0], _, _ =>
    refine (sxtDec_append_group (hlegal _ _ (.inr (.inr ⟨rfl, rfl⟩)))).trans ?_
    simp [groupBytes, hp, hbytes]
  | [b0, b1], _, _ =>
    refine (sxtDec_append_group (hlegal _ _ (.inr (.inl ⟨hmem _, rfl⟩)))).trans ?_
    simp [groupBytes, hp, hbytes, symbolByte_ne_pad hp]
  | [b0, b1, b2], _, _ =>
    refine (sxtDec_append_group (hlegal _ _ (.inl ⟨hmem _, hmem _⟩))).trans ?_
    simp [groupBytes, hp, hbytes, symbolByte_ne_pad hp]

/-- Encoding undoes decoding exactly on the texts whose discarded bits are zero. The whole groups always come back;
of the last group, so do the characters whose sextet was not cut. -/
theorem textOf_sxtEnc_eq_iff {p : Params} (hp : p.wf = true) {t bs : List Byte} (h : sxtDec p t = .ok bs) :
    textOf p (sxtEnc bs) = t ↔ discardedBitsZero p t := by
  have hlegal := legalText_of_sxtDec h
  by_cases ht : t = []
  · subst ht
    obtain rfl : [] = bs := by simpa using h
    simp [sxtEnc, discardedBitsZero, padCount]
  obtain ⟨u, w, x, y, z, rfl⟩ := exists_append_group ht hlegal.length
  rw [sxtDec_append_group hlegal, Except.ok.injEq] at h
  obtain ⟨hu, hchars, hend⟩ := (legalText_append_group_iff hp u w x y z).mp hlegal
  obtain ⟨halpha, hlastGroup⟩ := List.forall_mem_append.mp hchars
  obtain ⟨hw, hx, -⟩ := by simpa only [List.forall_mem_cons] using hlastGroup
  have hwhole : (groupBytes p u).length % 3 = 0 := by simp [groupBytes_length]
  have hpad {c : Byte} (hc : c ∈ p.alpha.toList) : c ≠ p.pad := ((mem_alpha_iff hp c).mp hc).1
  rw [← h, sxtEnc_append hwhole, textOf_append, textOf_sxtEnc_groupBytes hp hu halpha, List.append_cancel_left_eq]
  obtain ⟨hy, hz⟩ | ⟨hy, rfl⟩ | ⟨rfl, rfl⟩ := hend
  · simp [groupBytes, sxtEnc, discardedBitsZero, hp, hw, hx, hy, hz, hpad hz, -Vector.mem_toList_iff]
  · simpa [groupBytes, sxtEnc, discardedBitsZero, hp, hw, hx, hpad hy, symbolByte_eq_iff hp hy,
      -Vector.mem_toList_iff] using sextet2_groupByte1_zero_eq_iff (sextetValue p x) (sextetValue p y)
  · simpa [groupBytes, sxtEnc, discardedBitsZero, hp, hw, symbolByte_eq_iff hp hx,
      -Vector.mem_toList_iff] using sextet1_groupByte0_zero_eq_iff (sextetValue p w) (sextetValue p x)

/-- Settles O10: `sxtDec_textOf_sxtEnc` and `textOf_sxtEnc_eq_iff`. -/
theorem sextetRoundTrip : Obligations.SextetRoundTrip :=
  fun _ hp => ⟨sxtDec_textOf_sxtEnc hp, fun _ _ => textOf_sxtEnc_eq_iff hp⟩

/-! ### What the decoder accepts and ignores (40_sextet.md rules R114 to R116) -/

theorem sxtDec_of_legalText {p : Params} {t : List Byte} (h : LegalText p t) :
    ∃ bs, sxtDec p t = .ok bs ∧ bs.length = t.length / 4 * 3 - trailingPads p t := by
  refine ⟨_, if_pos ((textLegal_iff p t).mpr h), ?_⟩
  rw [List.length_take, groupBytes_length, decodedLength, padCount_eq p t h.length]
  omega

theorem sxtDec_of_not_legalText {p : Params} {t : List Byte} (h : ¬ LegalText p t) : sxtDec p t = .error .format :=
  if_neg fun hlegal => h ((textLegal_iff p t).mp hlegal)

/-- Two last groups are decoded alike when both are legal or neither is, and the bytes kept of them are the same. -/
theorem sxtDec_lastGroup_congr {p : Params} {u : List Byte} {w x y z w' x' y' z' : Byte}
    (hlegal : LegalText p (u ++ [w, x, y, z]) ↔ LegalText p (u ++ [w', x', y', z']))
    (hkept : (groupBytes p [w, x, y, z]).take (3 - padCount p (u ++ [w, x, y, z])) =
      (groupBytes p [w', x', y', z']).take (3 - padCount p (u ++ [w', x', y', z']))) :
    sxtDec p (u ++ [w, x, y, z]) = sxtDec p (u ++ [w', x', y', z']) := by
  by_cases h : LegalText p (u ++ [w, x, y, z])
  · rw [sxtDec_append_group h, sxtDec_append_group (hlegal.mp h), hkept]
  · rw [sxtDec_of_not_legalText h, sxtDec_of_not_legalText (mt hlegal.mpr h)]

/-- With two paddings the low four bits of the second sextet are not examined. -/
theorem sxtDec_ignores_second {p : Params} (hp : p.wf = true) (u : List Byte) (a : Byte) {b b' : Byte}
    (hb : b ∈ p.alpha.toList) (hb' : b' ∈ p.alpha.toList) (h : sextetValue p b >>> 4 = sextetValue p b' >>> 4) :
    sxtDec p (u ++ [a, b, p.pad, p.pad]) = sxtDec p (u ++ [a, b', p.pad, p.pad]) := by
  refine sxtDec_lastGroup_congr ?legal ?kept
  case legal =>
    simp only [legalText_append_group_iff hp, List.forall_mem_append, List.forall_mem_cons, hb, hb']
  case kept => simp [groupBytes, groupByte0_congr _ h]

/-- With one padding the low two bits of the third sextet are not examined. -/
theorem sxtDec_ignores_third {p : Params} (hp : p.wf = true) (u : List Byte) (a b : Byte) {c c' : Byte}
    (hc : c ∈ p.alpha.toList) (hc' : c' ∈ p.alpha.toList) (h : sextetValue p c >>> 2 = sextetValue p c' >>> 2) :
    sxtDec p (u ++ [a, b, c, p.pad]) = sxtDec p (u ++ [a, b, c', p.pad]) := by
  have hne : c ≠ p.pad := ((mem_alpha_iff hp c).mp hc).1
  have hne' : c' ≠ p.pad := ((mem_alpha_iff hp c').mp hc').1
  refine sxtDec_lastGroup_congr ?legal ?kept
  case legal => simp only [legalText_append_group_iff hp, LegalEnd, hc, hc', hne, hne']
  case kept => simp [groupBytes, hne, hne', groupByte1_congr _ h]

/-- Settles O11: the legal texts, the others, and the two kinds of discarded bits. -/
theorem sextetDecodeDomain : Obligations.SextetDecodeDomain := by
  intro p hp
  simp only [amap_isSome_iff]
  exact ⟨fun _ => sxtDec_of_legalText, fun _ => sxtDec_of_not_legalText,
    fun u a _ _ => sxtDec_ignores_second hp u a, fun u a b _ _ => sxtDec_ignores_third hp u a b⟩

/-! ### A command whose output fits OBUF (45_system.md rule R220 phases 4 and 5) -/

/-- The state `emit` leaves when the output fits. -/
def emittedState (v : List Byte) (s : State) : State :=
  { s with obuf := Memory.writeRange [] 0 v }.set .olen (lengthWord v.length)

theorem emit_of_fits {v : List Byte} {s : State} (h : v.length ≤ s.params.obufSize) :
    emit v s = .ok () (emittedState v s) :=
  if_neg (Nat.not_lt.mpr h)

@[simp] theorem emittedState_other (v : List Byte) (s : State) {r : Reg} (h : r ≠ .olen) :
    (emittedState v s).get r = s.get r := by
  rw [emittedState, State.get_set_ne _ _ _ _ h, State.get_obuf_update]

theorem emittedState_emitted (v : List Byte) (s : State) : Emitted v (finish (emittedState v s)) where
  olen hlen := by simp [emittedState, lengthWord_toNat v.length hlen]
  obuf a := by simp [emittedState]

/-- A unit command whose whole body is `emit` of an output that fits ends with that output, OLEN the only result
register written. -/
theorem exec_of_output_fits {i : Instr} {s : State} {inp out : List Byte} (h : HasInput s inp)
    (hi : readsInput i = true) (hb : commandBody i inp (commonStart s) = emit out (commonStart s))
    (hfits : out.length ≤ s.params.obufSize) :
    ∃ t, exec i s = .next t ∧ Succeeded t ∧ ResultsZeroBut [.olen] t ∧ t.get .crc = s.get .crc ∧
      Emitted out t ∧ CommandFrame s t := by
  have hbody : commandBody i inp (commonStart s) = .ok () (emittedState out (commonStart s)) :=
    hb.trans (emit_of_fits hfits)
  have hrun : exec i s = .next (finish (emittedState out (commonStart s))) := by
    rw [exec_input i s hi, runOnInput_of_hasInput h, hbody, complete_ok]
  have hframe : CommandFrame (commonStart s) (emittedState out (commonStart s)) := by
    have := commandBody_frame i inp (commonStart s)
    rwa [hbody] at this
  refine ⟨_, hrun, ⟨finish_status _, by simp⟩, fun r hr holen => ?_, by simp, emittedState_emitted out _,
    ((commonStart_frame s).trans hframe).trans (finish_frame _)⟩
  have hne : r ≠ .olen := fun hh => holen (List.mem_singleton.mpr hh)
  have hstatus : r ≠ .status := by rintro rfl; exact absurd hr (by decide)
  rw [finish_other _ r hstatus, emittedState_other _ _ hne, commonStart_result s r hr]

/-- Settles O21: SXT_ENC's body is `emit` of the text, whose length is that of `sxtEnc`. -/
theorem sxtEncEmitsText : Obligations.SxtEncEmitsText := by
  intro s inp h hfits
  have hlength : (textOf s.params (sxtEnc inp)).length = 4 * ((inp.length + 2) / 3) := by
    rw [textOf_length, sxtEnc_length]
  obtain ⟨t, hrun, hdone, hzero, hcrc, hout, hframe⟩ :=
    exec_of_output_fits (i := .sxtEnc) h rfl rfl (hlength.trans_le hfits)
  exact ⟨t, hrun, hdone, hzero, hcrc, hout, hlength, hframe⟩

/-- Settles O22: on a text `sxt_dec` accepts, SXT_DEC's body is `emit` of its bytes. -/
theorem sxtDecEmitsBytes : Obligations.SxtDecEmitsBytes := by
  intro s inp bs h hbs hfits
  have hbody : commandBody .sxtDec inp (commonStart s) = emit bs (commonStart s) := by simp [commandBody, hbs]
  exact exec_of_output_fits h rfl hbody hfits

end Sys2Proof.Machine
end

section
/-!
PROOFS. The Checksum Engine and its three commands (41_crc.md). Two layers: the step in its two forms, and the fold over
a buffer; a command whose body ends without a raise and without output.
-/

namespace Sys2Proof.Machine

/-! ### The step in its two forms (41_crc.md rules R131, R133 and R134) -/

/-- The test of the polynomial's shift, as a mask and as a bit. -/
theorem and_highBit_ne_zero_iff (c : Half) : c &&& 0x8000 ≠ 0 ↔ c.getLsbD 15 = true := by
  rw [show (0x8000 : Half) = BitVec.twoPow 16 15 by decide, BitVec.and_twoPow]
  cases c.getLsbD 15 <;> decide

/-- The shift in the words of the specification. -/
theorem crcShift_eq_ite (c : Half) :
    crcShift c = if c &&& 0x8000 ≠ 0 then (c <<< 1) ^^^ 0x1021 else c <<< 1 :=
  if_congr (and_highBit_ne_zero_iff c).symm rfl rfl

theorem crcShifts_eq_iterate (n : Nat) (c : Half) : crcShifts n c = crcShift^[n] c := by
  induction n generalizing c with
  | zero => rfl
  | succ n ih => rw [crcShifts, ih, Function.iterate_succ_apply]

/-- While only zero bits leave at the top, the polynomial is not applied. -/
theorem crcShifts_of_small {n : Nat} {c : Half} (h : c.toNat * 2 ^ n < 2 ^ 16) : crcShifts n c = c <<< n := by
  induction n generalizing c with
  | zero => rw [crcShifts, BitVec.shiftLeft_zero]
  | succ n ih =>
    have hdouble : c.toNat * 2 * 2 ^ n < 2 ^ 16 := by rwa [Nat.pow_succ', ← Nat.mul_assoc] at h
    have hlt : c.toNat * 2 < 2 ^ 16 := (Nat.le_mul_of_pos_right _ (Nat.two_pow_pos n)).trans_lt hdouble
    have htop : c.getLsbD 15 = false := Nat.testBit_lt_two_pow (by omega)
    have hshift : crcShift c = c <<< 1 := if_neg (by rw [htop]; decide)
    have hnat : (c <<< 1).toNat = c.toNat * 2 := by
      rw [BitVec.toNat_shiftLeft, Nat.shiftLeft_eq, Nat.pow_one, Nat.mod_eq_of_lt hlt]
    rw [crcShifts, hshift, ih (hnat ▸ hdouble), ← BitVec.shiftLeft_add, Nat.add_comm]

/-- The low byte of a CRC value, which eight shifts move up without the polynomial. -/
def lowByte (c : Half) : Half := (c.setWidth 8).setWidth 16

theorem crcShifts_lowByte (c : Half) : crcShifts 8 (lowByte c) = c <<< 8 := by
  have hsmall : (lowByte c).toNat < 2 ^ 8 := by
    simp only [lowByte, BitVec.toNat_setWidth]
    omega
  rw [crcShifts_of_small (by omega)]
  apply BitVec.eq_of_getLsbD_eq
  intro i hi
  by_cases h : i < 8
  · simp [h]
  · simp [lowByte, h, hi, show i - 8 < 8 by omega, BitVec.getLsbD_eq_getElem (show i - 8 < 16 by omega)]

/-- The register with the byte XORed in, as the table's index above the low byte. -/
theorem xor_byte_eq (c : Half) (b : Byte) :
    c ^^^ (b.setWidth 16 <<< 8) = (((c >>> 8).setWidth 8 ^^^ b).setWidth 16 <<< 8) ^^^ lowByte c := by
  apply BitVec.eq_of_getLsbD_eq
  intro i hi
  by_cases h : i < 8
  · simp [lowByte, h, hi]
  · simp [lowByte, h, hi, show i - 8 < 8 by omega, show 8 + (i - 8) = i by omega]

/-- Shifting is linear, so the table's entry and the low byte can be shifted apart. -/
theorem crcStepSerial_eq_crcStep (c : Half) (b : Byte) : crcStepSerial c b = crcStep c b := by
  calc crcStepSerial c b
      = crcShifts 8 ((((c >>> 8).setWidth 8 ^^^ b).setWidth 16 <<< 8) ^^^ lowByte c) := by
        rw [crcStepSerial, xor_byte_eq]
    _ = crcTab ((c >>> 8).setWidth 8 ^^^ b) ^^^ (c <<< 8) := by
        rw [crcShifts_xor, crcShifts_lowByte, crcTab]
    _ = crcStep c b := BitVec.xor_comm _ _

/-- Settles O7: the loop is the shift iterated eight times. -/
theorem crcSerialEqualsTable : Obligations.CrcSerialEqualsTable := by
  intro c b
  refine ⟨?_, crcStepSerial_eq_crcStep c b⟩
  simp only [← crcShift_eq_ite]
  rw [List.foldl_const, List.length_range, crcStepSerial, crcShifts_eq_iterate]

/-! ### A buffer, whole and in pieces (41_crc.md rule R135) -/

/-- A buffer may be fed in pieces. -/
theorem crcUpdate_append (c : Half) (as bs : List Byte) :
    crcUpdate c (as ++ bs) = crcUpdate (crcUpdate c as) bs :=
  List.foldl_append

/-- Settles O8: the equations of a fold from the left. -/
theorem crcUpdatePiecewise : Obligations.CrcUpdatePiecewise :=
  ⟨fun _ => rfl, fun _ _ _ => rfl, fun _ => rfl, rfl, by decide, fun c as bs => (crcUpdate_append c as bs).symm⟩

/-! ### A command that ends without a raise and without output (45_system.md rule R220 phases 4 and 5) -/

/-- ERRCODE is phase 5's to write (30_encoding.md rule R84). -/
theorem errcode_not_written (i : Instr) : .errcode ∉ .crc :: writtenResults i := by
  cases i <;> simp [writtenResults]

/-- A command on the input IBUF holds runs its body on it. -/
theorem exec_of_hasInput {i : Instr} {s : State} {inp : List Byte} (h : HasInput s inp) (hi : readsInput i = true) :
    exec i s = .next (complete (commandBody i inp (commonStart s))) := by
  rw [exec_input i s hi, runOnInput_of_hasInput h]

/-- A body that ends in `u` and emits nothing: only the registers of its row in 30_encoding.md rule R84 may differ
from zero, and OBUF holds no specified byte. -/
theorem exec_of_no_output {i : Instr} {s u : State} {inp : List Byte} (hi : i ≠ .sreset)
    (hrun : exec i s = .next (complete (commandBody i inp (commonStart s))))
    (hu : commandBody i inp (commonStart s) = .ok () u) (holen : .olen ∉ writtenResults i) (hobuf : u.obuf = []) :
    exec i s = .next (finish u) ∧ Succeeded (finish u) ∧ ResultsZeroBut (writtenResults i) (finish u) ∧
      Emitted [] (finish u) ∧ CommandFrame s (finish u) := by
  rw [hu, complete_ok] at hrun
  have hcode : (finish u).get .errcode = 0 := by
    have hkept := commandBody_writes i inp (commonStart s) .errcode (errcode_not_written i)
    rw [hu] at hkept
    exact (finish_other u _ (by decide)).trans hkept
  have hzero : ResultsZeroBut (writtenResults i) (finish u) := fun r hr hrs => by
    by_cases hc : r = .errcode
    · rw [hc, hcode]
    · exact resultsZeroUnlessWritten i s _ hrun r hr (by simp [hc, hrs])
  have hempty : Emitted [] (finish u) :=
    { olen := fun _ => by rw [hzero .olen (by decide) holen]; rfl
      obuf := fun a => by rw [finish_obuf, hobuf, Memory.read_nil]; rfl }
  exact ⟨hrun, ⟨finish_status u, hcode⟩, hzero, hempty, exec_frame hi hrun⟩

/-- The operand of CRC_UPDATE is the low half of CRC. -/
theorem crcOperand_eq (s : State) : crcOperand s = (s.get .crc).setWidth 16 :=
  (BitVec.setWidth_eq_extractLsb' (by decide)).symm

/-- Settles O18: CRC_INIT's body writes CRC alone. -/
theorem crcInitLoadsInitialValue : Obligations.CrcInitLoadsInitialValue := by
  intro s
  obtain ⟨hrun, hdone, hzero, hout, hframe⟩ :=
    exec_of_no_output (inp := []) (by decide) (exec_plain .crcInit s rfl (by decide)) rfl (by decide) (by simp)
  exact ⟨_, hrun, hdone, hzero, by simp [CrcIs, Config.crcInitValue], hout, hframe⟩

/-- Settles O19: CRC_UPDATE's body writes CRC alone. -/
theorem crcUpdateFoldsInput : Obligations.CrcUpdateFoldsInput := by
  intro s inp h
  obtain ⟨hrun, hdone, hzero, hout, hframe⟩ :=
    exec_of_no_output (by decide) (exec_of_hasInput (i := .crcUpdate) h rfl) rfl (by decide) (by simp)
  refine ⟨_, hrun, hdone, hzero, ?_, hout, hframe⟩
  simp [CrcIs, crcOperand_eq]

/-- Settles O20: CRC_CALC's body writes the checksum to CRC and CRC_COMPUTED. -/
theorem crcCalcComputesChecksum : Obligations.CrcCalcComputesChecksum := by
  intro s inp h
  obtain ⟨hrun, hdone, hzero, hout, hframe⟩ :=
    exec_of_no_output (by decide) (exec_of_hasInput (i := .crcCalc) h rfl) rfl (by decide) (by simp)
  exact ⟨_, hrun, hdone, hzero, by simp [CrcIs], by simp, hout, hframe⟩

end Sys2Proof.Machine
end

section
/-!
PROOFS. The encode side of the Framing Codec (42_frame_encode.md). Three layers: the text as the sextet text of a
frame's envelope, in which NC has no part; a command whose body ends in an output that fits; the two encoders.
-/

namespace Sys2Proof.Machine

open Sys2Proof.Config (Params)

/-! ### The text of `frame_encode` (42_frame_encode.md rules R153 to R155) -/

/-- The frame `frame_encode` builds: the plain form, with a TTL block where there is a TTL argument. -/
def encodedFrame (o : List Byte) : TtlArg → Frame
  | none => ⟨0x00, crc16 o, 0, 0, o⟩
  | some (created, seconds) => ⟨0x04, crc16 o, created, seconds, o⟩

theorem envelope_eq (o : List Byte) (nc : Bool) (ttl : TtlArg) :
    envelope o nc ttl = (encodedFrame o ttl).envelope := by
  cases ttl with
  | none => simp [envelope, Frame.envelope, encodedFrame, compressChoice_eq, ttlBlock]
  | some block => simp [envelope, Frame.envelope, encodedFrame, compressChoice_eq, ttlBlock]

theorem frameText_eq (p : Params) (o : List Byte) (nc : Bool) (ttl : TtlArg) :
    frameText p o nc ttl = 0x64 :: 0x78 :: textOf p (sxtEnc (encodedFrame o ttl).envelope) := by
  rw [frameText, envelope_eq]
  rfl

/-- The NC bit changes no text. -/
theorem frameText_nc (p : Params) (o : List Byte) (nc : Bool) (ttl : TtlArg) :
    frameText p o nc ttl = frameText p o false ttl := by
  rw [frameText_eq, frameText_eq]

theorem frameText_length_none (p : Params) (o : List Byte) (nc : Bool) :
    (frameText p o nc none).length = 2 + 4 * ((3 + o.length + 2) / 3) :=
  frameText_length p o nc none

theorem frameText_length_some (p : Params) (o : List Byte) (nc : Bool) (created seconds : Word) :
    (frameText p o nc (some (created, seconds))).length = 2 + 4 * ((11 + o.length + 2) / 3) := by
  simp [frameText_length, ttlBlock]

/-- Settles O15: `frameText_eq`, with and without a TTL argument. -/
theorem frameTextShape : Obligations.FrameTextShape := fun p o nc =>
  ⟨⟨frameText_eq p o nc none, frameText_length_none p o nc⟩,
    fun c n => ⟨frameText_eq p o nc (some (c, n)), frameText_length_some p o nc c n⟩⟩

/-! ### A command whose body ends in `emit` (45_system.md rule R220 phases 4 and 5) -/

/-- `emit` and phase 5 write STATUS, ERRCODE and OLEN only. -/
theorem complete_emit_other (v : List Byte) (u : State) {r : Reg} (h : r ∉ [Reg.status, .errcode, .olen]) :
    (complete (emit v u)).get r = u.get r :=
  (complete_other _ h).trans (emit_writes v u r fun holen => h (by simp_all))

/-- A command whose body comes to `emit` in the state `u`, with an output that fits. -/
theorem exec_of_emit_fits {i : Instr} {s u : State} {inp out : List Byte} (h : HasInput s inp)
    (hi : readsInput i = true) (hb : commandBody i inp (commonStart s) = emit out u)
    (hfits : out.length ≤ u.params.obufSize) :
    ∃ t, exec i s = .next t ∧ Succeeded t ∧
      (∀ r, r ∉ [Reg.status, .errcode, .olen] → t.get r = u.get r) ∧ Emitted out t ∧ CommandFrame s t := by
  have hemit : emit out u = .ok () (emittedState out u) := emit_of_fits hfits
  have hrun : exec i s = .next (complete (emit out u)) := by rw [exec_of_hasInput h hi, hb]
  have hsreset : i ≠ .sreset := by rintro rfl; cases hi
  have hcode : (emittedState out u).get .errcode = 0 := by
    have hkept := commandBody_writes i inp (commonStart s) .errcode (errcode_not_written i)
    rwa [hb, hemit] at hkept
  have hdone : Succeeded (complete (emit out u)) := by
    rw [hemit, complete_ok]
    exact ⟨finish_status _, (finish_other _ _ (by decide)).trans hcode⟩
  have hout : Emitted out (complete (emit out u)) := by
    rw [hemit, complete_ok]
    exact emittedState_emitted out u
  exact ⟨_, hrun, hdone, fun r => complete_emit_other out u, hout, exec_frame hsreset hrun⟩

/-! ### ENCODE and ENCODE_TTL (42_frame_encode.md rules R154, R156 and R157) -/

/-- Settles O25: ENCODE comes to `emit` in `encodeState`. -/
theorem encodeEmitsFrame : Obligations.EncodeEmitsFrame := by
  intro s inp nc h hfits
  have hlength : (frameText s.params inp nc none).length ≤ (encodeState inp (commonStart s)).params.obufSize := by
    simpa [frameText_length_none] using hfits
  obtain ⟨t, hrun, hdone, hkept, hout, hframe⟩ :=
    exec_of_emit_fits h rfl (commandBody_encode nc inp (commonStart s)) hlength
  have hsum : ∀ r ∈ [Reg.crc, .crcStored, .crcComputed], t.get r = halfWord (crc16 inp) := fun r hr => by
    rw [hkept r (by revert hr; cases r <;> decide), encodeState_checksums inp _ r hr]
  have hzero : ResultsZeroBut [.olen, .crcStored, .crcComputed] t := by
    intro r hr hrs
    by_cases hcode : r = .errcode
    · rw [hcode, hdone.errcode]
    · have hstatus : r ≠ .status := by rintro rfl; exact absurd hr (by decide)
      rw [hkept r (by simp_all), encodeState_resultsZeroBut inp s r hr (by simp_all)]
  refine ⟨t, hrun, hdone, hzero, ?_, ?_, ?_, hout, hframe⟩
  · simp [CrcIs, hsum]
  · simp [hsum]
  · simp [hsum]

/-- A text is not expired at the time it was made (43_frame_decode.md rule R175). -/
theorem ttlFrame_not_expired (o : List Byte) (s : State) : ¬ (ttlFrame o s).Expired s.nows :=
  fun ⟨_, hlate⟩ => absurd hlate (Nat.not_lt.mpr (Nat.le_add_right _ _))

/-- Settles O26: ENCODE_TTL comes to `emit` in `encodeTtlState`. -/
theorem encodeTtlEmitsFrame : Obligations.EncodeTtlEmitsFrame := by
  intro s inp nc h hfits
  have hlength : (frameText s.params inp nc (some (s.nows, s.get .ttlArg))).length ≤
      (encodeTtlState inp (commonStart s)).params.obufSize := by
    simpa [frameText_length_some] using hfits
  obtain ⟨t, hrun, hdone, hkept, hout, hframe⟩ :=
    exec_of_emit_fits h rfl (commandBody_encodeTtl nc inp (commonStart s)) hlength
  have hshown : HeaderShown (ttlFrame inp s) s.nows t :=
    (encodeTtlState_shown inp s).of_get fun r hr => hkept r (by revert hr; cases r <;> decide)
  have hexpired : (t.get .info).getLsbD 4 = false :=
    hshown.infoExpired.trans (decide_eq_false (ttlFrame_not_expired inp s))
  have hsum := encodeTtlState_checksums inp (commonStart s)
  have hother := encodeTtlState_other inp (commonStart s)
  refine ⟨t, hrun, hdone, hshown, hexpired, ?_, ?_, ?_, ?_, hout, hframe⟩
  · simp [CrcIs, hkept, hsum]
  · simp [hkept, hsum]
  · simp [hkept, hother]
  · simp [hkept, hother]

/-- Of a command that reads IBUF only the body depends on which command it is. -/
theorem exec_eq_of_body_eq {i j : Instr} (hi : readsInput i = true) (hj : readsInput j = true)
    (hbody : ∀ inp u, commandBody i inp u = commandBody j inp u) (s : State) : exec i s = exec j s := by
  rw [exec_input i s hi, exec_input j s hj, funext fun inp => funext (hbody inp)]

theorem exec_encode_nc (nc : Bool) (s : State) : exec (.encode nc) s = exec (.encode false) s :=
  exec_eq_of_body_eq rfl rfl
    (fun inp u => by rw [commandBody_encode, commandBody_encode, frameText_nc]) s

theorem exec_encodeTtl_nc (nc : Bool) (s : State) : exec (.encodeTtl nc) s = exec (.encodeTtl false) s :=
  exec_eq_of_body_eq rfl rfl
    (fun inp u => by rw [commandBody_encodeTtl, commandBody_encodeTtl, frameText_nc]) s

/-- FLAGS and ORIG_SIZE after ENCODE, an error included: the common start clears them, and the body writes FLAGS as
0. -/
theorem exec_encode_flags {nc : Bool} {s t : State} (h : exec (.encode nc) s = .next t) :
    t.get .flags = 0 ∧ t.get .origSize = 0 := by
  rcases exec_cases h with ⟨hs, -⟩ | ⟨-, -, rfl⟩ | ⟨-, inp, -, rfl⟩
  · cases hs
  · simp
  · have hzero := encodeState_resultsZeroBut inp s
    rw [commandBody_encode, complete_emit_other _ _ (by decide), complete_emit_other _ _ (by decide)]
    exact ⟨hzero .flags (by decide) (by decide), hzero .origSize (by decide) (by decide)⟩

/-- FLAGS and ORIG_SIZE after an ENCODE_TTL without error: an input above IBUF_SIZE never reaches the body, which writes
FLAGS. -/
theorem exec_encodeTtl_flags {nc : Bool} {s t : State} (h : exec (.encodeTtl nc) s = .next t)
    (hdone : t.get .status = 2) : t.get .flags = 4 ∧ t.get .origSize = 0 := by
  rcases exec_cases h with ⟨hs, -⟩ | ⟨-, -, rfl⟩ | ⟨-, inp, -, rfl⟩
  · cases hs
  · rw [takeError_status] at hdone
    exact absurd hdone (by decide)
  · have hflags : ((encodeTtlState inp (commonStart s)).get .flags).toNat = 4 := (encodeTtlState_shown inp s).flags
    have horig := encodeTtlState_other inp (commonStart s) .origSize (by decide)
    rw [commandBody_encodeTtl, complete_emit_other _ _ (by decide), complete_emit_other _ _ (by decide)]
    exact ⟨BitVec.eq_of_toNat_eq hflags, horig.trans (commonStart_origSize s)⟩

/-- Settles O14: the choice is always the plain form, so NC has no part in a text or a command. -/
theorem compressedFormNeverEmitted : Obligations.CompressedFormNeverEmitted :=
  ⟨compressChoice_eq,
    fun o nc => congrArg some (envelopeFlags_none o nc),
    fun o nc c n => congrArg some (envelopeFlags_some o nc (c, n)),
    exec_encode_nc, exec_encodeTtl_nc, fun _ _ _ => exec_encode_flags, fun _ _ _ => exec_encodeTtl_flags⟩

end Sys2Proof.Machine
end

section
/-!
PROOFS. What a change of the original bytes does to the checksum (43_frame_decode.md rule R183). A step of the CRC is
injective in the register, so only the changed bytes matter. Up to two bytes enter the register as they are; a burst of
16 bits in three bytes enters it as if it stood in the register and were shifted to its place.
-/

namespace Sys2Proof.Machine

/-! ### The same bytes from two registers -/

/-- Shifting is linear and loses nothing, so it is injective. -/
theorem crcShifts_inj (n : Nat) (c d : Half) : crcShifts n c = crcShifts n d ↔ c = d := by
  rw [← BitVec.xor_eq_zero_iff, ← crcShifts_xor, ← BitVec.xor_eq_zero_iff (x := c)]
  exact crcShifts_eq_zero_iff n _

/-- The step in its bit-serial form (41_crc.md rule R134). -/
theorem crcStep_eq_crcShifts (c : Half) (b : Byte) : crcStep c b = crcShifts 8 (c ^^^ (b.setWidth 16 <<< 8)) :=
  (crcStepSerial_eq_crcStep c b).symm

theorem crcStep_inj (b : Byte) (c d : Half) : crcStep c b = crcStep d b ↔ c = d := by
  rw [crcStep_eq_crcShifts, crcStep_eq_crcShifts, crcShifts_inj, BitVec.xor_left_inj]

theorem crcUpdate_inj (bs : List Byte) (c d : Half) : crcUpdate c bs = crcUpdate d bs ↔ c = d := by
  induction bs generalizing c d with
  | nil => rfl
  | cons b bs ih => exact (ih _ _).trans (crcStep_inj b c d)

/-- What stands before and after the changed bytes has no part in whether the checksum changes. -/
theorem crc16_surround_eq_iff (as xs ys bs : List Byte) :
    crc16 (as ++ xs ++ bs) = crc16 (as ++ ys ++ bs) ↔ crcUpdate (crc16 as) xs = crcUpdate (crc16 as) ys := by
  simp only [crc16, crcUpdate_append, crcUpdate_inj]

/-! ### One or two changed bytes -/

/-- A byte at the top of the register and the next one below it: eight shifts bring the second to the top. -/
theorem crcUpdate_pair (c : Half) (x0 x1 : Byte) : crcUpdate c [x0, x1] = crcShifts 16 (c ^^^ (x0 ++ x1)) := by
  have hsplit : c ^^^ (x0 ++ x1) = (c ^^^ (x0.setWidth 16 <<< 8)) ^^^ lowByte (x1.setWidth 16) := by
    apply BitVec.eq_of_getLsbD_eq
    intro i hi
    rw [BitVec.getLsbD_xor, BitVec.getLsbD_append]
    by_cases h : i < 8
    · simp [lowByte, h, hi]
    · simp [lowByte, h, hi, BitVec.getLsbD_of_ge x1 i (by omega)]
  calc crcUpdate c [x0, x1]
      = crcShifts 8 (crcShifts 8 (c ^^^ (x0.setWidth 16 <<< 8)) ^^^ (x1.setWidth 16 <<< 8)) := by
        rw [← crcStep_eq_crcShifts, ← crcStep_eq_crcShifts]
        rfl
    _ = crcShifts 8 (crcShifts 8 (c ^^^ (x0 ++ x1))) := by
        rw [hsplit, crcShifts_xor 8 _ (lowByte _), crcShifts_lowByte]
    _ = crcShifts 16 (c ^^^ (x0 ++ x1)) := (crcShifts_add 8 8 _).symm

theorem byte_append_inj {x0 x1 y0 y1 : Byte} (h : (x0 ++ x1 : Half) = y0 ++ y1) : x0 = y0 ∧ x1 = y1 := by
  constructor
  · rw [← BitVec.extractLsb'_append_eq_left (a := x0) (b := x1), h, BitVec.extractLsb'_append_eq_left]
  · rw [← BitVec.setWidth_append_eq_right (a := x0) (b := x1), h, BitVec.setWidth_append_eq_right]

theorem crcUpdate_pair_inj {c : Half} {x0 x1 y0 y1 : Byte} (h : crcUpdate c [x0, x1] = crcUpdate c [y0, y1]) :
    x0 = y0 ∧ x1 = y1 := by
  rw [crcUpdate_pair, crcUpdate_pair, crcShifts_inj, BitVec.xor_right_inj] at h
  exact byte_append_inj h

/-- Up to two bytes can be told from the checksum. A single byte is a pair once a zero byte follows it. -/
theorem crcUpdate_short_inj {c : Half} {xs ys : List Byte} (hlen : xs.length = ys.length) (hshort : xs.length ≤ 2)
    (h : crcUpdate c xs = crcUpdate c ys) : xs = ys := by
  match xs, ys, hlen with
  | [], [], _ => rfl
  | [x], [y], _ =>
    have hpair : crcUpdate c [x, 0] = crcUpdate c [y, 0] := congrArg (crcStep · 0) h
    rw [(crcUpdate_pair_inj hpair).1]
  | [x0, x1], [y0, y1], _ =>
    obtain ⟨rfl, rfl⟩ := crcUpdate_pair_inj h
    rfl
  | _ :: _ :: _ :: _, _, _ => exact absurd hshort (by simp)

/-! ### A burst in three bytes -/

/-- What three bytes add to the register, sixteen shifts before the end. -/
def foldWord (d : BitVec 24) : Half := crcShifts 8 (d.extractLsb' 8 16) ^^^ lowByte (d.setWidth 16)

theorem foldWord_xor (a b : BitVec 24) : foldWord (a ^^^ b) = foldWord a ^^^ foldWord b := by
  have hlow : lowByte ((a ^^^ b).setWidth 16) = lowByte (a.setWidth 16) ^^^ lowByte (b.setWidth 16) := by
    simp only [lowByte, BitVec.setWidth_xor]
  have hhigh : (a ^^^ b).extractLsb' 8 16 = a.extractLsb' 8 16 ^^^ b.extractLsb' 8 16 :=
    BitVec.extractLsb'_xor
  rw [foldWord, hlow, hhigh, crcShifts_xor, foldWord, foldWord]
  ac_rfl

/-- The register before three bytes and the bytes themselves, shifted apart. -/
theorem crcUpdate_triple (c : Half) (x0 x1 x2 : Byte) :
    crcUpdate c [x0, x1, x2] = crcShifts 24 c ^^^ crcShifts 16 (foldWord (x0 ++ x1 ++ x2)) := by
  have hhigh : (x0 ++ x1 ++ x2 : BitVec 24).extractLsb' 8 16 = x0 ++ x1 := BitVec.extractLsb'_append_eq_left
  have hlow : lowByte ((x0 ++ x1 ++ x2 : BitVec 24).setWidth 16) = lowByte (x2.setWidth 16) := by
    rw [lowByte, lowByte, BitVec.setWidth_setWidth_of_le (k := 8) (l := 16) _ (by decide),
      BitVec.setWidth_setWidth_of_le (k := 8) (l := 16) _ (by decide), BitVec.setWidth_append_eq_right,
      BitVec.setWidth_eq]
  calc crcUpdate c [x0, x1, x2]
      = crcShifts 8 (crcShifts 16 (c ^^^ (x0 ++ x1)) ^^^ (x2.setWidth 16 <<< 8)) := by
        rw [← crcUpdate_pair, ← crcStep_eq_crcShifts]
        rfl
    _ = crcShifts 8 (crcShifts 16 (c ^^^ (x0 ++ x1)) ^^^ crcShifts 8 (lowByte (x2.setWidth 16))) := by
        rw [crcShifts_lowByte]
    _ = crcShifts 24 c ^^^ crcShifts 16 (foldWord (x0 ++ x1 ++ x2)) := by
        rw [foldWord, hhigh, hlow]
        simp only [crcShifts_xor, ← crcShifts_add, Nat.reduceAdd, BitVec.xor_assoc]

/-- A value shifted down comes up again without the polynomial. -/
theorem crcShifts_ushiftRight (n : Nat) (c : Half) : crcShifts n (c >>> n) = (c >>> n) <<< n := by
  refine crcShifts_of_small ?_
  rw [BitVec.toNat_ushiftRight, Nat.shiftRight_eq_div_pow]
  exact (Nat.div_mul_le_self _ _).trans_lt c.isLt

/-- The part of a burst above the last byte and the part in it each come to where the whole burst comes in `k`
shifts, because neither has reached the polynomial on its way. -/
theorem foldWord_burst {k : Nat} (hk : k ≤ 8) (e : BitVec 16) : foldWord (e.setWidth 24 <<< k) = crcShifts k e := by
  have hhigh : (e.setWidth 24 <<< k).extractLsb' 8 16 = e >>> (8 - k) := by
    apply BitVec.eq_of_getLsbD_eq
    intro i hi
    simp [hi, show ¬ 8 + i < k by omega, show 8 + i < 24 by omega, show 8 + i - k = 8 - k + i by omega]
  generalize hlow : lowByte ((e.setWidth 24 <<< k).setWidth 16) = low
  have hback : (low >>> k) <<< k = low := by
    apply BitVec.eq_of_getLsbD_eq
    intro i hi
    by_cases h : i < k
    · simp [← hlow, lowByte, h]
    · simp [h, hi, show k + (i - k) = i by omega]
  have hsplit : e = ((e >>> (8 - k)) <<< (8 - k)) ^^^ (low >>> k) := by
    apply BitVec.eq_of_getLsbD_eq
    intro i hi
    by_cases h : i < 8 - k
    · simp [← hlow, lowByte, h, hi, show k + i < 8 by omega, show k + i < 16 by omega]
    · simp [← hlow, lowByte, h, hi, show ¬ k + i < 8 by omega, show 8 - k + (i - (8 - k)) = i by omega]
  calc foldWord (e.setWidth 24 <<< k)
      = crcShifts (8 - k + k) (e >>> (8 - k)) ^^^ (low >>> k) <<< k := by
        rw [foldWord, hhigh, hlow, hback, Nat.sub_add_cancel hk]
    _ = crcShifts k (((e >>> (8 - k)) <<< (8 - k)) ^^^ (low >>> k)) := by
        rw [crcShifts_add, crcShifts_ushiftRight, crcShifts_xor, crcShifts_ushiftRight]
    _ = crcShifts k e := by rw [← hsplit]

/-- Settles O9: a burst that left the checksum as it is would be zero in its place, and so zero; up to two bytes are told
apart by `crcUpdate_short_inj`. -/
theorem checksumDetectsBursts : Obligations.ChecksumDetectsBursts := by
  constructor
  · intro as bs x0 x1 x2 y0 y1 y2 e k hk he hburst heq
    rw [crc16_surround_eq_iff, crcUpdate_triple, crcUpdate_triple, BitVec.xor_right_inj, crcShifts_inj,
      ← BitVec.xor_eq_zero_iff, ← foldWord_xor, hburst, foldWord_burst hk] at heq
    exact he ((crcShifts_eq_zero_iff k e).mp heq)
  · intro as bs xs ys hlen hshort hne heq
    exact hne (crcUpdate_short_inj hlen hshort ((crc16_surround_eq_iff as xs ys bs).mp heq))

end Sys2Proof.Machine
end

section
/-!
PROOFS. The decode side of the Framing Codec (43_frame_decode.md). Three layers: `parse_header` and `recover` where
expiry and decompression decide how they end; a command whose body has come to the original bytes; the five commands
and the round trip.
-/

namespace Sys2Proof.Machine

open Sys2Proof.Config (Params)

/-! ### `parse_header` by expiry, and `recover` on a stream that is rejected (43_frame_decode.md rules R172, R174) -/

theorem isExpired_eq_decide (f : Frame) (nows : Word) :
    isExpired f.created f.seconds nows = decide (f.Expired nows) := by
  rw [Bool.eq_iff_iff, isExpired_iff, decide_eq_true_eq]

/-- `parse_header` passes unless it looks at an expiry that is past. -/
theorem parseHeader_of_unexpired {s : State} {t : List Byte} {f : Frame} {chk : Bool}
    (hc : Carries s.params t f.envelope) (hf : f.Legal) (hx : chk = true → ¬ f.Expired s.nows) :
    parseHeader t chk s = .ok ⟨f.flags, f.stored, f.payload⟩ (headerState f s) := by
  have hpass : ¬ (chk && isExpired f.created f.seconds s.nows) = true := by
    simpa [isExpired_eq_decide] using hx
  rw [parseHeader_of_frame hc hf, if_neg hpass]

theorem parseHeader_of_expired {s : State} {t : List Byte} {f : Frame}
    (hc : Carries s.params t f.envelope) (hf : f.Legal) (hx : f.Expired s.nows) :
    parseHeader t true s = .raised .expired (headerState f s) := by
  rw [parseHeader_of_frame hc hf, isExpired_eq_decide, decide_eq_true hx]
  rfl

/-- DECODE looks at the expiry when NT = 0 (30_encoding.md rule R82). -/
theorem checkTtlOption_eq_true_iff (nt : Bool) : checkTtlOption nt = true ↔ nt = false := by
  cases nt <;> decide

/-- Step S8 raises what the decompressor answers, with ORIG_SIZE written. -/
theorem recover_of_rejected {f : Frame} {orig : Half} {z : List Byte} {e : ErrKind}
    (hcomp : f.flags.getLsbD 0 = true) (hp : f.payload = be16 orig ++ z) (hz : dflUnstore z = .error e) (s : State) :
    recover ⟨f.flags, f.stored, f.payload⟩ s = .raised e (s.set .origSize (halfWord orig)) := by
  simp [recover, recoverBytes, isCompressed_eq, hcomp, hp, be16, hz]

/-! ### A command whose body has come to the original bytes -/

/-- What a state shows of a frame and of the original bytes recovered from it. -/
structure RecoveryShown (f : Frame) (orig : Half) (o : List Byte) (nows : Word) (t : State) : Prop where
  header : HeaderShown f nows t
  origSize : (t.get .origSize).toNat = orig.toNat
  crc : CrcIs (crc16 o) t
  crcComputed : (t.get .crcComputed).toNat = (crc16 o).toNat

/-- The registers steps S4 to S9 write. -/
def recoveryRegs : List Reg := [.origSize, .crc, .crcComputed] ++ headerRegs

/-- Steps S4 to S9 show the frame, and so does any later state with the same values in their registers. -/
theorem recoveryShown_of_get {f : Frame} {orig : Half} {o : List Byte} (hf : f.Legal) (ho : f.Holds orig o)
    {s t : State} (hkept : ∀ r ∈ recoveryRegs, t.get r = (recoveredState f orig o (commonStart s)).get r) :
    RecoveryShown f orig o s.nows t := by
  have hsum := recoveredState_checksums f orig o (commonStart s)
  refine ⟨(recoveredState_shown hf orig o s).of_get fun r hr => hkept r (List.mem_append_right _ hr), ?_, ?_, ?_⟩
  · rw [hkept _ (by decide), recoveredState_origSize ho, halfWord_toNat]
  · rw [CrcIs, hkept _ (by decide), hsum _ (by decide), halfWord_toNat]
  · rw [hkept _ (by decide), hsum _ (by decide), halfWord_toNat]

/-- Steps S4 to S9 leave RESULT cleared. -/
theorem recoveredState_result (f : Frame) (orig : Half) (o : List Byte) (s : State) :
    (recoveredState f orig o (commonStart s)).get .result = 0 := by
  rw [recoveredState_other f orig o _ (by decide), headerState_other f _ _ (by decide), commonStart_resultReg]

/-- Settles O27: DECODE comes to `emit` in `recoveredState`. -/
theorem decodeReturnsOriginal : Obligations.DecodeReturnsOriginal := by
  intro s inp nt f orig o h hc hf ho hk hx hfits
  have hbody := commandBody_decode_of_frame (s := commonStart s) hc hf ho hk hx
  obtain ⟨t, hrun, hdone, hkept, hout, hframe⟩ := exec_of_emit_fits h rfl hbody (by simpa using hfits)
  have hshown : RecoveryShown f orig o s.nows t :=
    recoveryShown_of_get hf ho fun r hr => hkept r (by revert hr; cases r <;> decide)
  have hresult : t.get .result = 0 := by rw [hkept _ (by decide), recoveredState_result]
  exact ⟨t, hrun, hdone, hshown.header, hshown.origSize, hshown.crc, hshown.crcComputed, hresult, hout, hframe⟩

/-! ### INSPECT and VERIFY (43_frame_decode.md rules R177 and R178) -/

/-- The state INSPECT and VERIFY end in: the comparison of the checksums in RESULT. -/
def answeredState (f : Frame) (orig : Half) (o : List Byte) (s : State) : State :=
  (recoveredState f orig o s).set .result (resultWord (crc16 o == f.stored))

/-- A command that goes on with the recovered original bytes gets them in `recoveredState`. -/
theorem bind_recover_of_frame {s : State} {inp : List Byte} {f : Frame} {orig : Half} {o : List Byte} {chk : Bool}
    (hc : Carries s.params inp f.envelope) (hf : f.Legal) (hx : chk = true → ¬ f.Expired s.nows)
    (ho : f.Holds orig o) (g : Header → List Byte → State → Proc Unit) :
    ((parseHeader inp chk s).bind fun h u => (recover h u).bind (g h)) =
      g ⟨f.flags, f.stored, f.payload⟩ o (recoveredState f orig o s) := by
  rw [parseHeader_of_unexpired hc hf hx, Proc.bind_ok, recover_of_holds ho, Proc.bind_ok]
  rfl

theorem commandBody_inspect_of_frame {s : State} {inp : List Byte} {f : Frame} {orig : Half} {o : List Byte}
    (hc : Carries s.params inp f.envelope) (hf : f.Legal) (ho : f.Holds orig o) :
    commandBody .inspect inp s = .ok () (answeredState f orig o s) :=
  bind_recover_of_frame (chk := false) hc hf nofun ho _

theorem commandBody_verify_of_frame {s : State} {inp : List Byte} {f : Frame} {orig : Half} {o : List Byte}
    (hc : Carries s.params inp f.envelope) (hf : f.Legal) (ho : f.Holds orig o) (hx : ¬ f.Expired s.nows) :
    commandBody .verify inp s = .ok () (answeredState f orig o s) :=
  bind_recover_of_frame hc hf (fun _ => hx) ho _

theorem answeredState_obuf (f : Frame) (orig : Half) (o : List Byte) (s : State) :
    (answeredState f orig o s).obuf = s.obuf := by
  simp only [answeredState, recoveredState, recoverState, headerState, writeInfo, writeTtlRegs]
  split <;> split <;> simp

/-- A command that comes to `answeredState` shows the frame and whether the checksums agree. -/
theorem exec_of_answered {i : Instr} {s : State} {inp : List Byte} {f : Frame} {orig : Half} {o : List Byte}
    (hi : readsInput i = true) (holen : .olen ∉ writtenResults i) (h : HasInput s inp) (hf : f.Legal)
    (ho : f.Holds orig o) (hbody : commandBody i inp (commonStart s) = .ok () (answeredState f orig o (commonStart s))) :
    ∃ t, exec i s = .next t ∧ Succeeded t ∧ HeaderShown f s.nows t ∧ (t.get .origSize).toNat = orig.toNat ∧
      CrcIs (crc16 o) t ∧ (t.get .crcComputed).toNat = (crc16 o).toNat ∧
      t.get .result = (if f.stored = crc16 o then 1 else 0) ∧ Emitted [] t ∧ CommandFrame s t := by
  have hsreset : i ≠ .sreset := by rintro rfl; cases hi
  obtain ⟨hrun, hdone, -, hout, hframe⟩ :=
    exec_of_no_output hsreset (exec_of_hasInput h hi) hbody holen (by rw [answeredState_obuf, commonStart_obuf])
  have hshown : RecoveryShown f orig o s.nows (finish (answeredState f orig o (commonStart s))) := by
    refine recoveryShown_of_get hf ho fun r hr => ?_
    have hne : r ≠ .status ∧ r ≠ .result := by revert hr; cases r <;> decide
    rw [finish_other _ _ hne.1, answeredState, State.get_set_ne _ _ _ _ hne.2]
  have hresult : (finish (answeredState f orig o (commonStart s))).get .result =
      if f.stored = crc16 o then 1 else 0 := by
    rw [finish_other _ _ (by decide), answeredState, State.get_set_same _ _ _ (by decide), resultWord_eq]
    exact if_congr (beq_iff_eq.trans eq_comm) rfl rfl
  exact ⟨_, hrun, hdone, hshown.header, hshown.origSize, hshown.crc, hshown.crcComputed, hresult, hout, hframe⟩

/-- Settles O28: INSPECT does not look at the expiry. -/
theorem inspectShowsBothChecksums : Obligations.InspectShowsBothChecksums := by
  intro s inp f orig o h hc hf ho
  exact exec_of_answered rfl (by decide) h hf ho (commandBody_inspect_of_frame (s := commonStart s) hc hf ho)

/-- Settles O29: VERIFY passes the expiry test. -/
theorem verifyAnswersMatch : Obligations.VerifyAnswersMatch := by
  intro s inp f orig o h hc hf ho hx
  exact exec_of_answered rfl (by decide) h hf ho (commandBody_verify_of_frame (s := commonStart s) hc hf ho hx)

/-! ### VALIDATE (43_frame_decode.md rule R179) -/

/-- The structural check passes exactly on the texts that carry an envelope with its 3-byte header. -/
theorem textValid_iff_carries (p : Params) (t : List Byte) :
    textValid p t = true ↔ ∃ e, Carries p t e ∧ 3 ≤ e.length := by
  rw [textValid, Bool.and_eq_true, hasMark_iff]
  constructor
  · rintro ⟨⟨u, rfl⟩, hdec⟩
    rw [List.drop_succ_cons, List.drop_succ_cons, List.drop_zero] at hdec
    cases he : sxtDec p u with
    | ok e => exact ⟨e, ⟨u, rfl, he⟩, by simpa [he] using hdec⟩
    | error e => simp [he] at hdec
  · rintro ⟨e, ⟨u, rfl, he⟩, hlen⟩
    exact ⟨⟨u, rfl⟩, by simpa [he] using hlen⟩

/-- The conjunction written out is that of the envelope: `sxt_dec` answers on the legal texts, with the length it
counts. -/
theorem structurallyValid_iff_carries (p : Params) (t : List Byte) :
    StructurallyValid p t ↔ ∃ e, Carries p t e ∧ 3 ≤ e.length := by
  constructor
  · rintro ⟨u, rfl, hlegal, hlen⟩
    obtain ⟨e, he, helen⟩ := sxtDec_of_legalText hlegal
    exact ⟨e, ⟨u, rfl, he⟩, helen ▸ hlen⟩
  · rintro ⟨e, ⟨u, rfl, he⟩, hlen⟩
    have hlegal := legalText_of_sxtDec he
    obtain ⟨e', he', helen⟩ := sxtDec_of_legalText hlegal
    obtain rfl : e = e' := by simpa [he] using he'
    exact ⟨u, rfl, hlegal, helen ▸ hlen⟩

/-- Settles O30: VALIDATE's body writes `textValid` to RESULT alone. -/
theorem validateAnswersStructure : Obligations.ValidateAnswersStructure := by
  intro s inp h
  obtain ⟨hrun, hdone, hzero, hout, hframe⟩ :=
    exec_of_no_output (by decide) (exec_of_hasInput (i := .validate) h rfl) rfl (by decide) (by simp)
  refine ⟨_, hrun, hdone, hzero, by simp, hout, hframe, ?_⟩
  rw [finish_other _ _ (by decide), State.get_set_same _ _ _ (by decide), commonStart_params, resultWord_eq,
    structurallyValid_iff_carries, ← textValid_iff_carries]
  cases textValid s.params inp <;> decide

/-! ### INFO (43_frame_decode.md rule R180) -/

theorem headerState_obuf (f : Frame) (s : State) : (headerState f s).obuf = s.obuf := by
  simp only [headerState, writeInfo, writeTtlRegs]
  split <;> simp

/-- Settles O31: INFO's body ends in `headerState`, without looking at the expiry or the payload. -/
theorem infoShowsHeader : Obligations.InfoShowsHeader := by
  intro s inp f h hc hf
  have hbody : commandBody .info inp (commonStart s) = .ok () (headerState f (commonStart s)) := by
    rw [commandBody, parseHeader_of_unexpired (s := commonStart s) (chk := false) hc hf nofun, Proc.bind_ok]
  obtain ⟨hrun, hdone, hzero, hout, hframe⟩ :=
    exec_of_no_output (by decide) (exec_of_hasInput (i := .info) h rfl) hbody (by decide)
      (by rw [headerState_obuf, commonStart_obuf])
  have hshown : HeaderShown f s.nows (finish (headerState f (commonStart s))) :=
    (headerState_shown f hf (commonStart s) rfl rfl rfl).of_get fun r hr =>
      finish_other _ r (by rintro rfl; exact absurd hr (by decide))
  have hlisted : ∀ r ∈ writtenResults .info, r ∈ headerRegs := by decide
  refine ⟨_, hrun, hdone, hshown, fun r hr hrs => hzero r hr fun hm => hrs (hlisted r hm), ?_, hout, hframe⟩
  rw [finish_other _ _ (by decide), headerState_other f _ _ (by decide), commonStart_crc]

/-! ### The decompressor's errors (43_frame_decode.md rule R174 step S8) -/

/-- The state in which step S8 raises the decompressor's error. -/
def rejectedState (f : Frame) (orig : Half) (s : State) : State := (headerState f s).set .origSize (halfWord orig)

/-- Whatever a command does after `recover`, it does not come to it. -/
theorem bind_recover_of_rejected {s : State} {inp : List Byte} {f : Frame} {orig : Half} {z : List Byte}
    {e : ErrKind} {chk : Bool} (hc : Carries s.params inp f.envelope) (hf : f.Legal)
    (hx : chk = true → ¬ f.Expired s.nows) (hcomp : f.flags.getLsbD 0 = true) (hp : f.payload = be16 orig ++ z)
    (hz : dflUnstore z = .error e) (g : Header → List Byte → State → Proc Unit) :
    ((parseHeader inp chk s).bind fun h u => (recover h u).bind (g h)) = .raised e (rejectedState f orig s) := by
  rw [parseHeader_of_unexpired hc hf hx, Proc.bind_ok, recover_of_rejected hcomp hp hz, Proc.bind_raised]
  rfl

theorem rejectedState_other (f : Frame) (orig : Half) (s : State) {r : Reg} (h : r ∉ .origSize :: headerRegs) :
    (rejectedState f orig s).get r = s.get r := by
  rw [List.mem_cons, not_or] at h
  rw [rejectedState, State.get_set_ne _ _ _ _ h.1, headerState_other f s r h.2]

/-- A command whose body raises in `rejectedState` shows the header and ORIG_SIZE. -/
theorem exec_of_rejected {i : Instr} {s : State} {inp : List Byte} {f : Frame} {orig : Half} {e : ErrKind}
    (h : HasInput s inp) (hi : readsInput i = true) (hf : f.Legal)
    (hbody : commandBody i inp (commonStart s) = .raised e (rejectedState f orig (commonStart s))) :
    ∃ t, exec i s = .next t ∧ FailedWith e t ∧ HeaderShown f s.nows t ∧ (t.get .origSize).toNat = orig.toNat ∧
      ResultsZeroBut (.errcode :: .origSize :: headerRegs) t ∧ t.get .crc = s.get .crc ∧ CommandFrame s t := by
  obtain ⟨hrun, hfail, hframe⟩ := exec_of_raised h hi hbody
  have hshown : HeaderShown f s.nows (rejectedState f orig (commonStart s)) :=
    (headerState_shown f hf (commonStart s) rfl rfl rfl).of_get fun r hr =>
      State.get_set_ne _ _ _ _ (by rintro rfl; exact absurd hr (by decide))
  have hzero : ResultsZeroBut (.errcode :: .origSize :: headerRegs) (rejectedState f orig (commonStart s)) :=
    fun r hr hrs => by
      rw [rejectedState_other f orig _ fun hm => hrs (List.mem_cons_of_mem _ hm), commonStart_result s r hr]
  refine ⟨_, hrun, hfail, takeError_shown hshown, ?_, takeError_resultsZeroBut hzero List.mem_cons_self, ?_, hframe⟩
  · rw [takeError_other _ _ _ (by decide) (by decide) (by decide), rejectedState,
      State.get_set_same _ _ _ (by decide), halfWord_toNat]
  · rw [takeError_other _ _ _ (by decide) (by decide) (by decide), rejectedState_other f orig _ (by decide),
      commonStart_crc]

/-- Settles O40: the three commands raise in `recover`; the expiry test is the only difference. -/
theorem decompressionErrorsPropagate : Obligations.DecompressionErrorsPropagate := by
  intro s inp f orig z e h hc hf hcomp hp hz
  have hraise (chk : Bool) (hx : chk = true → ¬ f.Expired s.nows) (g : Header → List Byte → State → Proc Unit) :=
    bind_recover_of_rejected (s := commonStart s) hc hf hx hcomp hp hz g
  refine ⟨fun nt hx => ?decode, ?inspect, fun hx => ?verify⟩
  case decode =>
    exact exec_of_rejected h rfl hf (hraise _ (fun hchk => hx ((checkTtlOption_eq_true_iff nt).mp hchk)) _)
  case inspect => exact exec_of_rejected h rfl hf (hraise false nofun _)
  case verify => exact exec_of_rejected h rfl hf (hraise true (fun _ => hx) _)

/-! ### The round trip (43_frame_decode.md rules R181 and R182) -/

theorem carries_frameText {p : Params} (hp : p.wf = true) (o : List Byte) (nc : Bool) (ttl : TtlArg) :
    Carries p (frameText p o nc ttl) (encodedFrame o ttl).envelope :=
  ⟨_, frameText_eq p o nc ttl, sxtDec_textOf_sxtEnc hp _⟩

theorem encodedFrame_legal (o : List Byte) (ttl : TtlArg) : (encodedFrame o ttl).Legal := by
  cases ttl with
  | none => exact ⟨show (0x00 : Byte).toNat < 8 by decide, fun _ => ⟨rfl, rfl⟩⟩
  | some block =>
    have hflag : ¬ (0x04 : Byte).getLsbD 2 = false := by decide
    exact ⟨show (0x04 : Byte).toNat < 8 by decide, fun h => absurd h hflag⟩

theorem encodedFrame_holds (o : List Byte) (ttl : TtlArg) : (encodedFrame o ttl).Holds 0 o := by
  cases ttl with
  | none => exact (if_neg (show ¬ (0x00 : Byte).getLsbD 0 = true by decide)).mpr ⟨rfl, rfl⟩
  | some block => exact (if_neg (show ¬ (0x04 : Byte).getLsbD 0 = true by decide)).mpr ⟨rfl, rfl⟩

theorem encodedFrame_stored (o : List Byte) (ttl : TtlArg) : (encodedFrame o ttl).stored = crc16 o := by
  cases ttl <;> rfl

/-- DECODE of a text that `frame_encode` made gives the input back, unless it looks at an expiry that is past. -/
theorem decode_frameText {u : State} {bs : List Byte} {nc nt : Bool} {ttl : TtlArg} (hp : u.params.wf = true)
    (h : HasInput u (frameText u.params bs nc ttl)) (hfits : bs.length ≤ u.params.obufSize)
    (hx : nt = false → ¬ (encodedFrame bs ttl).Expired u.nows) :
    ∃ v, exec (.decode nt) u = .next v ∧ Succeeded v ∧ Emitted bs v := by
  obtain ⟨v, hrun, hdone, -, -, -, -, -, hout, -⟩ :=
    decodeReturnsOriginal u _ nt (encodedFrame bs ttl) 0 bs h (carries_frameText hp bs nc ttl)
      (encodedFrame_legal bs ttl) (encodedFrame_holds bs ttl) (encodedFrame_stored bs ttl) hx hfits
  exact ⟨v, hrun, hdone, hout⟩

/-- DECODE with NT = 0 of an expired text raises in step S7. -/
theorem decode_frameText_expired {u : State} {bs : List Byte} {nc : Bool} {ttl : TtlArg} (hp : u.params.wf = true)
    (h : HasInput u (frameText u.params bs nc ttl)) (hx : (encodedFrame bs ttl).Expired u.nows) :
    ∃ v, exec (.decode false) u = .next v ∧ FailedWith .expired v := by
  have hbody : commandBody (.decode false) (frameText u.params bs nc ttl) (commonStart u) =
      .raised .expired (headerState (encodedFrame bs ttl) (commonStart u)) := by
    have hraise := parseHeader_of_expired (s := commonStart u) (carries_frameText hp bs nc ttl)
      (encodedFrame_legal bs ttl) hx
    rw [commandBody, checkTtlOption, Bool.not_false, hraise, Proc.bind_raised]
  obtain ⟨hrun, hfail, -⟩ := exec_of_raised h rfl hbody
  exact ⟨_, hrun, hfail⟩

theorem not_expired_of_no_ttl (o : List Byte) (nows : Word) : ¬ (encodedFrame o none).Expired nows :=
  fun ⟨hpos, _⟩ => absurd hpos (by decide : ¬ 0 < (0 : Word).toNat)

/-- Expiry of a text with a TTL block, by its two values (43_frame_decode.md rule R175). -/
theorem expired_ttl_iff (o : List Byte) (created seconds nows : Word) :
    (encodedFrame o (some (created, seconds))).Expired nows ↔
      0 < seconds.toNat ∧ created.toNat + seconds.toNat < nows.toNat := Iff.rfl

/-- Settles O58: the texts of both encoders, with the expiry that decides. -/
theorem encodeDecodeRoundTrip : Obligations.EncodeDecodeRoundTrip := by
  intro s bs nc hp h
  refine ⟨fun hfits => ?plain, fun hfits => ?ttl⟩
  case plain =>
    obtain ⟨t, hrun, -, -, -, -, -, hout, -⟩ := encodeEmitsFrame s bs nc h hfits
    refine ⟨t, _, hrun, hout, fun u nt hu hin => ?_⟩
    rw [← hu] at hp hfits hin
    exact decode_frameText hp hin (by omega) fun _ => not_expired_of_no_ttl bs u.nows
  case ttl =>
    obtain ⟨t, hrun, -, -, -, -, -, -, -, hout, -⟩ := encodeTtlEmitsFrame s bs nc h hfits
    refine ⟨t, _, hrun, hout, fun u nt hu hin hlive => ?_⟩
    rw [← hu] at hp hfits hin
    refine decode_frameText hp hin (by omega) fun hnt => ?_
    rw [expired_ttl_iff]
    exact fun ⟨hpos, hlate⟩ => absurd hlate (Nat.not_lt.mpr (hlive hnt hpos))

/-- Settles O59: expiry with ttl-seconds 0 and 1. -/
theorem ttlTextExpiry : Obligations.TtlTextExpiry := by
  intro s bs nc hp h hfits
  obtain ⟨t, hrun, -, -, -, -, -, -, -, hout, -⟩ := encodeTtlEmitsFrame s bs nc h hfits
  refine ⟨t, _, hrun, hout, fun u hu hin => ?_⟩
  rw [← hu] at hp hfits hin
  have hback (nt : Bool) := decode_frameText (nt := nt) hp hin (by omega)
  have hraise := decode_frameText_expired hp hin
  simp only [expired_ttl_iff] at hback hraise
  refine ⟨fun hzero => ?zero, fun hone => ?one⟩
  case zero => exact hback false fun _ => by simp [hzero]
  case one =>
    have hseconds : (s.get .ttlArg).toNat = 1 := by rw [hone]; rfl
    rw [hseconds] at hback hraise
    exact ⟨fun hlive => hback false fun _ => by omega, fun hlate => hraise (by omega), hback true nofun⟩

end Sys2Proof.Machine
end

section
/-!
PROOFS. The Compression Sub-component (44_deflate.md). Three layers: `dfl_unstore` by the first block of its stream,
with an inversion of its answers; the stored block `dfl_store` builds; the two commands.
-/

namespace Sys2Proof.Machine

/-! ### `dfl_unstore` by its first block (44_deflate.md rule R204) -/

theorem blockType_of_stored {h : Byte} (htype : h.toNat / 2 % 4 = 0) : blockType h = 0 := by
  revert h
  decide

/-- BTYPE 1 and 2 are the Huffman-coded blocks, which this sub-component does not read. -/
theorem dflUnstore_of_huffman {h : Byte} (rest : List Byte) (htype : h.toNat / 2 % 4 = 1 ∨ h.toNat / 2 % 4 = 2) :
    dflUnstore (h :: rest) = .error .unsupported := by
  obtain ⟨hone, htwo, -, -⟩ := blockHeader_iff h
  exact if_pos (htype.imp hone.mpr htwo.mpr)

theorem dflUnstore_of_reservedType {h : Byte} (rest : List Byte) (htype : h.toNat / 2 % 4 = 3) :
    dflUnstore (h :: rest) = .error .compression := by
  obtain ⟨hone, htwo, hthree, -⟩ := blockHeader_iff h
  have hplain : ¬ (blockType h = 1 ∨ blockType h = 2) := by rw [hone, htwo]; omega
  exact (if_neg hplain).trans (if_pos (hthree.mpr htype))

/-- LEN or NLEN is cut. -/
theorem dflUnstore_of_cut {h : Byte} {rest : List Byte} (htype : h.toNat / 2 % 4 = 0) (hcut : rest.length < 4) :
    dflUnstore (h :: rest) = .error .compression := by
  match rest with
  | [] | [_] | [_, _] | [_, _, _] => simp [dflUnstore, dflUnstoreLoop, blockType_of_stored htype]
  | _ :: _ :: _ :: _ :: _ => simp only [List.length_cons] at hcut; omega

/-- A stored block with its LEN and NLEN. More turns are left than bytes, so after a block with BFINAL = 0 the loop
answers for the rest of the stream as `dfl_unstore` does. -/
theorem dflUnstore_of_stored {h : Byte} (l0 l1 n0 n1 : Byte) (data : List Byte) (htype : h.toNat / 2 % 4 = 0) :
    dflUnstore (h :: l0 :: l1 :: n0 :: n1 :: data) =
      if (fromLe16 l0 l1).toNat + (fromLe16 n0 n1).toNat ≠ 0xFFFF ∨ data.length < (fromLe16 l0 l1).toNat then
        .error .compression
      else if h.toNat % 2 = 1 then .ok (data.take (fromLe16 l0 l1).toNat)
      else (dflUnstore (data.drop (fromLe16 l0 l1).toNat)).map (data.take (fromLe16 l0 l1).toNat ++ ·) := by
  obtain ⟨-, -, -, hfinal⟩ := blockHeader_iff h
  have hcomplement : fromLe16 l0 l1 ^^^ fromLe16 n0 n1 = 65535#16 ↔ _ := xor_eq_ones_iff _ _
  have hturns : (data.drop (fromLe16 l0 l1).toNat).length < data.length + 5 := by
    rw [List.length_drop]; omega
  rw [dflUnstore]
  simp [dflUnstoreLoop, blockType_of_stored htype, hfinal, ite_or, hcomplement, dflUnstoreLoop_eq _ _ _ hturns]

/-- LEN and NLEN are not complements, or the data are cut short. -/
theorem dflUnstore_of_badBlock {h : Byte} (l0 l1 n0 n1 : Byte) (data : List Byte) (htype : h.toNat / 2 % 4 = 0)
    (hbad : (fromLe16 l0 l1).toNat + (fromLe16 n0 n1).toNat ≠ 0xFFFF ∨ data.length < (fromLe16 l0 l1).toNat) :
    dflUnstore (h :: l0 :: l1 :: n0 :: n1 :: data) = .error .compression := by
  rw [dflUnstore_of_stored l0 l1 n0 n1 data htype, if_pos hbad]

/-- A whole stored block: BFINAL decides whether the rest of the stream has a part in the answer. -/
theorem dflUnstore_of_block {h l0 l1 n0 n1 : Byte} {d : List Byte} (rest : List Byte) (htype : h.toNat / 2 % 4 = 0)
    (hlens : (fromLe16 l0 l1).toNat + (fromLe16 n0 n1).toNat = 0xFFFF) (hd : d.length = (fromLe16 l0 l1).toNat) :
    dflUnstore (h :: l0 :: l1 :: n0 :: n1 :: (d ++ rest)) =
      if h.toNat % 2 = 1 then .ok d else (dflUnstore rest).map (d ++ ·) := by
  have hgood : ¬ ((fromLe16 l0 l1).toNat + (fromLe16 n0 n1).toNat ≠ 0xFFFF ∨
      (d ++ rest).length < (fromLe16 l0 l1).toNat) := by
    rw [List.length_append]; omega
  rw [dflUnstore_of_stored l0 l1 n0 n1 _ htype, if_neg hgood, ← hd, List.take_left, List.drop_left]

/-- Settles O13: the header's BTYPE, then the block's lengths, then BFINAL. -/
theorem storedStreamByBlocks : Obligations.StoredStreamByBlocks := by
  refine ⟨rfl, fun _ => dflUnstore_of_huffman, fun _ => dflUnstore_of_reservedType, fun _ _ => dflUnstore_of_cut,
    fun h l0 l1 n0 n1 data htype hbad => ?bad, fun h l0 l1 n0 n1 d rest htype hlens hd => ?whole⟩
  all_goals simp only [← fromLe16_toNat] at *
  case bad => exact dflUnstore_of_badBlock l0 l1 n0 n1 data htype hbad
  case whole =>
    have hblock := dflUnstore_of_block rest htype hlens hd
    exact ⟨fun hfinal => hblock.trans (if_pos hfinal), fun hmore => hblock.trans (if_neg (by omega))⟩

/-! ### What `dfl_unstore` answers, and its length (44_deflate.md rule R205) -/

/-- An answer is the data of the first block, alone or with the answer on the rest of the stream behind it. -/
theorem dflUnstore_ok_cases {z out : List Byte} (hz : dflUnstore z = .ok out) :
    ∃ h l0 l1 n0 n1 d rest, z = h :: l0 :: l1 :: n0 :: n1 :: (d ++ rest) ∧
      (out = d ∨ ∃ more, dflUnstore rest = .ok more ∧ out = d ++ more) := by
  match z with
  | [] => cases hz
  | h :: rest =>
    have htype : h.toNat / 2 % 4 = 0 := by
      by_contra hother
      by_cases hthree : h.toNat / 2 % 4 = 3
      · rw [dflUnstore_of_reservedType rest hthree] at hz; cases hz
      · rw [dflUnstore_of_huffman rest (by omega)] at hz; cases hz
    match rest with
    | [] | [_] | [_, _] | [_, _, _] => rw [dflUnstore_of_cut htype (by simp)] at hz; cases hz
    | l0 :: l1 :: n0 :: n1 :: data =>
      refine ⟨h, l0, l1, n0, n1, _, _, by rw [List.take_append_drop (fromLe16 l0 l1).toNat data], ?_⟩
      rw [dflUnstore_of_stored l0 l1 n0 n1 data htype] at hz
      split at hz
      · cases hz
      · split at hz
        · cases hz; exact .inl rfl
        · cases hmore : dflUnstore (data.drop (fromLe16 l0 l1).toNat) with
          | error e => rw [hmore] at hz; cases hz
          | ok more => rw [hmore] at hz; cases hz; exact .inr ⟨more, rfl, rfl⟩

/-- Every block of the stream is five bytes longer than its data, and there is at least one. -/
theorem dflUnstore_length {z out : List Byte} (hz : dflUnstore z = .ok out) : out.length + 5 ≤ z.length := by
  induction hn : z.length using Nat.strongRecOn generalizing z out with
  | ind n ih =>
    obtain ⟨h, l0, l1, n0, n1, d, rest, rfl, hout⟩ := dflUnstore_ok_cases hz
    simp only [List.length_cons, List.length_append] at hn
    obtain rfl | ⟨more, hmore, rfl⟩ := hout
    · omega
    · have := ih rest.length (by omega) hmore rfl
      rw [List.length_append]
      omega

/-! ### The stored block (44_deflate.md rules R201 to R203) -/

/-- One block with BFINAL = 1: header, LEN, NLEN and the data. -/
def storedBlock (bs : List Byte) : List Byte :=
  0x01 :: BitVec.ofNat 8 (bs.length % 256) :: BitVec.ofNat 8 (bs.length / 256) ::
    BitVec.ofNat 8 ((65535 - bs.length) % 256) :: BitVec.ofNat 8 ((65535 - bs.length) / 256) :: bs

@[simp] theorem storedBlock_length (bs : List Byte) : (storedBlock bs).length = bs.length + 5 := rfl

/-- The low byte and then the high byte of a 16-bit number. -/
theorem le16_ofNat {n : Nat} (h : n ≤ 65535) :
    le16 (BitVec.ofNat 16 n) = [BitVec.ofNat 8 (n % 256), BitVec.ofNat 8 (n / 256)] := by
  simp only [le16, List.cons.injEq, BitVec.toNat_eq, BitVec.extractLsb'_toNat, BitVec.toNat_ofNat,
    Nat.shiftRight_eq_div_pow, and_true]
  omega

/-- The two bytes of a 16-bit number, read back. -/
theorem fromLe16_ofNat {n : Nat} (h : n ≤ 65535) :
    (fromLe16 (BitVec.ofNat 8 (n % 256)) (BitVec.ofNat 8 (n / 256))).toNat = n := by
  rw [fromLe16_toNat, BitVec.toNat_ofNat, BitVec.toNat_ofNat]
  omega

/-- The complement of LEN is what is missing to 0xFFFF. -/
theorem ofNat_xor_ones {n : Nat} (h : n ≤ 65535) : BitVec.ofNat 16 n ^^^ 0xFFFF = BitVec.ofNat 16 (65535 - n) := by
  have hsum : BitVec.ofNat 16 n ^^^ BitVec.ofNat 16 (65535 - n) = 0xFFFF := by
    rw [xor_eq_ones_iff, BitVec.toNat_ofNat, BitVec.toNat_ofNat]
    omega
  rw [← hsum, ← BitVec.xor_assoc, BitVec.xor_self, BitVec.zero_xor]

theorem dflStore_eq_storedBlock {bs : List Byte} (h : bs.length ≤ 65535) : dflStore bs = .ok (storedBlock bs) := by
  rw [dflStore, if_neg (Nat.not_lt.mpr h)]
  simp only [ofNat_xor_ones h, le16_ofNat h, le16_ofNat (Nat.sub_le 65535 bs.length)]
  rfl

theorem dflStore_of_long {bs : List Byte} (h : 65535 < bs.length) : dflStore bs = .error .compression :=
  if_pos h

theorem dflUnstore_storedBlock {bs : List Byte} (h : bs.length ≤ 65535) : dflUnstore (storedBlock bs) = .ok bs := by
  have hlen := fromLe16_ofNat h
  have hnlen := fromLe16_ofNat (Nat.sub_le 65535 bs.length)
  have hsum := (congrArg₂ (· + ·) hlen hnlen).trans (Nat.add_sub_of_le h)
  have hblock := dflUnstore_of_block (h := 0x01) [] (by decide) hsum hlen.symm
  rwa [List.append_nil, if_pos (by decide)] at hblock

/-- Settles O12: `dfl_unstore` of one stored block, and the length of what it answers. -/
theorem storedBlockRoundTrip : Obligations.StoredBlockRoundTrip := by
  refine ⟨fun bs h => ⟨_, dflStore_eq_storedBlock h, dflUnstore_storedBlock h⟩, fun z out hz => ?_⟩
  have := dflUnstore_length hz
  omega

/-! ### DFL_STORE and DFL_UNSTORE (44_deflate.md rules R206 and R207) -/

/-- Settles O23: DFL_STORE's body is `emit` of the stored block, or the raise of `dfl_store`. -/
theorem dflStoreEmitsStoredBlock : Obligations.DflStoreEmitsStoredBlock := by
  intro s inp h
  refine ⟨fun hshort hfits => ?block, fun hlong => ?long⟩
  case block =>
    have hbody : commandBody .dflStore inp (commonStart s) = emit (storedBlock inp) (commonStart s) := by
      rw [commandBody, dflStore_eq_storedBlock hshort, orRaise_ok, Proc.bind_ok]
    obtain ⟨t, hrun, hdone, hzero, hcrc, hout, hframe⟩ := exec_of_output_fits h rfl hbody hfits
    exact ⟨t, hrun, hdone, hzero, hcrc, hframe, hout⟩
  case long =>
    refine exec_of_raised_at_start h rfl ?_
    rw [commandBody, dflStore_of_long hlong, orRaise_error, Proc.bind_raised]

/-- Settles O24: DFL_UNSTORE's body is `emit` of what `dfl_unstore` answers, or the raise of its error. -/
theorem dflUnstoreEmitsData : Obligations.DflUnstoreEmitsData := by
  intro s inp h
  refine ⟨fun bs hbs hfits => ?data, fun e he => ⟨dflUnstore_error he, ?error⟩⟩
  case data =>
    refine exec_of_output_fits h rfl ?_ hfits
    rw [commandBody, hbs, orRaise_ok, Proc.bind_ok]
  case error =>
    refine exec_of_raised_at_start h rfl ?_
    rw [commandBody, he, orRaise_error, Proc.bind_raised]

end Sys2Proof.Machine
end

section
/-!
PROOFS. The engine and the system commands (45_system.md). Three layers: the engine's turn by the word in CMD; how a
command ends, at an error before its body and in general; NOP, SRESET and the bounded liveness of the engine.
-/

namespace Sys2Proof.Machine

/-! ### The engine's turn (45_system.md rules R220 to R222) -/

/-- With no turn left the engine's is next (log 2). -/
theorem step_of_no_turn {s : State} (h : s.events = []) : step s = engineTurn s := by
  rw [step, h]

theorem step_of_engine_turn {s : State} {rest : List Event} (h : s.events = .engine :: rest) :
    step s = engineTurn { s with events := rest } := by
  simp only [step, h, takeTurn]

theorem engineTurn_of_legal {s : State} {i : Instr} (hbusy : s.busy = true) (h : decode (s.get .cmd) = .ok i) :
    engineTurn s = exec i s := by
  rw [engineTurn, if_pos hbusy, engineStep, pendingWord, h]

theorem engineTurn_of_illegal {s : State} {r : IllegalWord} (hbusy : s.busy = true)
    (h : decode (s.get .cmd) = .error r) : engineTurn s = .next (takeError .illegalCmd (commonStart s)) := by
  rw [engineTurn, if_pos hbusy, engineStep, pendingWord, h, illegalCommand]

/-- Settles O1: using up a turn changes neither BUSY nor CMD. -/
theorem stepRunsPendingCommand : Obligations.StepRunsPendingCommand := by
  intro s i hbusy hdecode
  refine ⟨fun hnone => ?_, fun rest hengine => ?_⟩
  · rw [step_of_no_turn hnone, engineTurn_of_legal hbusy hdecode]
  · rw [step_of_engine_turn hengine]
    exact engineTurn_of_legal hbusy ((congrArg decode (State.get_events_update s rest .cmd)).trans hdecode)

/-! ### BUSY and DONE at the end of a command (10_state.md rule R26) -/

@[simp] theorem finish_busy (s : State) : (finish s).busy = false :=
  (by decide : (statusWord false true false).getLsbD 0 = false)

@[simp] theorem takeError_busy (e : ErrKind) (s : State) : (takeError e s).busy = false :=
  (by decide : (statusWord false true true).getLsbD 0 = false)

@[simp] theorem resetRegisters_busy (s : State) : (resetRegisters s).busy = false := hardwareReset_busy s

@[simp] theorem finish_done (s : State) : (finish s).done = true :=
  (by decide : (statusWord false true false).getLsbD 1 = true)

@[simp] theorem takeError_done (e : ErrKind) (s : State) : (takeError e s).done = true :=
  (by decide : (statusWord false true true).getLsbD 1 = true)

/-- Phase 5 clears BUSY and sets DONE, error or not. -/
theorem complete_busy_done (p : Proc Unit) : (complete p).busy = false ∧ (complete p).done = true := by
  cases p with
  | ok _ s => exact ⟨finish_busy s, finish_done s⟩
  | raised e s => exact ⟨takeError_busy e s, takeError_done e s⟩

/-! ### An error before the command's body (45_system.md rule R220 phases 2 and 3) -/

/-- An error of phase 2 or 3 leaves its code and otherwise only what the common start did. -/
theorem takeError_commonStart (e : ErrKind) (s : State) :
    FailedWith e (takeError e (commonStart s)) ∧ ResultsZeroBut [.errcode] (takeError e (commonStart s)) ∧
      (takeError e (commonStart s)).get .crc = s.get .crc ∧ CommandFrame s (takeError e (commonStart s)) := by
  have hzero : ResultsZeroBut [.errcode] (commonStart s) := fun r hr _ => commonStart_result s r hr
  exact ⟨takeError_failedWith e _, takeError_resultsZeroBut hzero List.mem_cons_self,
    takeError_other e _ _ (by decide) (by decide) (by decide), (commonStart_frame s).trans (takeError_frame e _)⟩

theorem exec_of_input_tooLong {i : Instr} {s : State} (hreads : readsInput i = true)
    (hlong : s.params.ibufSize < (s.get .ilen).toNat) :
    exec i s = .next (takeError .capacity (commonStart s)) := by
  have hcheck : inputTooLong s = true := decide_eq_true hlong
  rw [exec_input i s hreads, runOnInput, if_pos hcheck]

/-- Settles O32: the capacity check stands between the common start and the command's body. -/
theorem inputOverCapacityRaises : Obligations.InputOverCapacityRaises :=
  fun _ s hreads hlong => ⟨_, exec_of_input_tooLong hreads hlong, takeError_commonStart .capacity s⟩

/-- A word of no row is illegal (30_encoding.md rule R83). -/
theorem decode_of_no_row {w : Word} (h : ∀ r ∈ opcodeTable, w &&& r.mask ≠ r.pattern) :
    ∃ reason, decode w = .error reason := by
  cases hdecode : decode w with
  | error reason => exact ⟨reason, rfl⟩
  | ok i =>
    obtain ⟨r, hr, haccepts, -⟩ := (decode_eq_ok_iff_row w i).mp hdecode
    exact absurd ((r.accepts_iff w).mp haccepts) (h r hr)

/-- With BUSY = 0 a CMD write is accepted: a command is pending, and CMD holds its word (10_state.md rule R25). -/
theorem cmdWrite_accepted {s : State} (h : s.busy = false) (w : Word) :
    ∃ t, hostAccess (.regWrite 0 w) s = .next t ∧ t.busy = true ∧ t.get .cmd = w := by
  refine ⟨{ acceptCommand w s with response := none }, ?_, acceptCommand_busy w s, rfl⟩
  exact if_neg (ne_true_of_eq_false h)

/-- The example words of 45_system.md rule R225: two OP values of no row, NC beside SXT_ENC, a bit of ZERO, and NT
beside INSPECT. -/
theorem exampleWords_of_no_row : ∀ w ∈ ([0x00000002, 0x000000FF, 0x00000120, 0x00000400, 0x00000243] : List Word),
    ∀ r ∈ opcodeTable, w &&& r.mask ≠ r.pattern := by
  simp only [List.forall_mem_cons]
  exact ⟨by decide, by decide, by decide, by decide, by decide, List.forall_mem_nil _⟩

/-- Settles O2: the engine's turn takes E_ILLEGAL_CMD after the common start, and ends with BUSY = 0. -/
theorem illegalWordFinishesWithIllegalCmd : Obligations.IllegalWordFinishesWithIllegalCmd := by
  refine ⟨fun s hbusy hnone hrow => ?_, exampleWords_of_no_row⟩
  obtain ⟨reason, hdecode⟩ := decode_of_no_row hrow
  have hrun := (step_of_no_turn hnone).trans (engineTurn_of_illegal hbusy hdecode)
  obtain ⟨hfail, hzero, hcrc, hframe⟩ := takeError_commonStart .illegalCmd s
  exact ⟨_, hrun, hfail, hfail.errcode, hzero, hcrc, hframe,
    cmdWrite_accepted (takeError_busy _ _)⟩

/-! ### NOP and SRESET (45_system.md rules R223 and R224) -/

/-- Settles O16: NOP's body ends where the common start left the machine. -/
theorem nopClearsResults : Obligations.NopClearsResults := by
  refine ⟨rfl, fun s => ?_⟩
  obtain ⟨hrun, hdone, hzero, hout, hframe⟩ :=
    exec_of_no_output (inp := []) (by decide) (exec_plain .nop s rfl (by decide)) rfl (by decide) (commonStart_obuf s)
  exact ⟨_, hrun, hdone, hzero, by simp, hout, hframe⟩

/-- The reset value of every register but CRC and NOW is 0 (70_reset_and_hazards.md rule R261). -/
theorem resetRegisters_get (s : State) {r : Reg} (hcrc : r ≠ .crc) (hnow : r ≠ .now) :
    (resetRegisters s).get r = 0 := by
  cases r with
  | crc => exact absurd rfl hcrc
  | now => exact absurd rfl hnow
  | _ => rfl

/-- Settles O17: SRESET is the register reset after the common start, which made OBUF unspecified. -/
theorem sresetRestoresRegisters : Obligations.SresetRestoresRegisters :=
  ⟨rfl, fun s => ⟨resetRegisters (commonStart s), rfl, fun _ hcrc hnow => resetRegisters_get _ hcrc hnow,
    rfl, rfl, rfl, resetRegisters_busy _, fun _ => rfl, rfl, fun _ => rfl, rfl, rfl, rfl⟩⟩

/-! ### The engine completes every command (45_system.md rules R221 and R222) -/

/-- A command whose input is written does not fault (20_memory.md rule R65). -/
theorem exec_next_of_written (i : Instr) {s : State} (h : ∀ a, a < (s.get .ilen).toNat → s.ibuf.read a ≠ none) :
    ∃ t, exec i s = .next t := by
  obtain hnext | ⟨-, -, hmissing, -⟩ := exec_total i s
  · exact hnext
  · obtain ⟨a, ha, hnone⟩ := (inputOf_eq_none_iff s).mp hmissing
    exact absurd hnone (h a ha)

theorem exec_sreset_ends {s t : State} (h : exec .sreset s = .next t) : t.busy = false ∧ t.get .status = 0 := by
  cases h
  exact ⟨resetRegisters_busy _, resetRegisters_get _ (by decide) (by decide)⟩

theorem exec_ends {i : Instr} {s t : State} (hi : i ≠ .sreset) (h : exec i s = .next t) :
    t.busy = false ∧ t.done = true := by
  rcases exec_cases h with ⟨hs, -⟩ | ⟨-, -, rfl⟩ | ⟨-, inp, -, rfl⟩
  · exact absurd hs hi
  · exact ⟨takeError_busy _ _, takeError_done _ _⟩
  · exact complete_busy_done _

/-- Settles O50, by what the word in CMD decodes to; 0x00000001 is SRESET's word and no other command's. -/
theorem engineTurnCompletes : Obligations.EngineTurnCompletes := by
  intro s hbusy hnone hwritten
  rw [step_of_no_turn hnone]
  have sreset_iff : decode (s.get .cmd) = .ok .sreset ↔ s.get .cmd = 0x00000001 :=
    (decode_eq_ok_iff _ _).trans eq_comm
  cases hdecode : decode (s.get .cmd) with
  | error reason =>
    have hcmd : s.get .cmd ≠ 0x00000001 := fun h => by cases (sreset_iff.mpr h).symm.trans hdecode
    exact ⟨_, engineTurn_of_illegal hbusy hdecode, takeError_busy _ _, .inr ⟨hcmd, takeError_done _ _⟩⟩
  | ok i =>
    obtain ⟨t, hrun⟩ := exec_next_of_written i hwritten
    refine ⟨t, (engineTurn_of_legal hbusy hdecode).trans hrun, ?_⟩
    by_cases hi : i = .sreset
    · subst hi
      obtain ⟨hidle, hstatus⟩ := exec_sreset_ends hrun
      exact ⟨hidle, .inl ⟨sreset_iff.mp hdecode, hstatus⟩⟩
    · obtain ⟨hidle, hdone⟩ := exec_ends hi hrun
      have hcmd : s.get .cmd ≠ 0x00000001 := fun h =>
        hi (Except.ok.inj (hdecode.symm.trans (sreset_iff.mpr h)))
      exact ⟨hidle, .inr ⟨hcmd, hdone⟩⟩

end Sys2Proof.Machine
end

section
/-!
PROOFS. The errors of a command by its row (60_exceptions.md rules R231 to R241). Three layers: the code a command can
end with; a command whose body raises with some registers written; the places where steps S1 to S10 of the decoder
raise, and what each leaves.
-/

namespace Sys2Proof.Machine

open Sys2Proof.Config (Params)

/-! ### The codes (60_exceptions.md rules R231 and R241) -/

theorem ErrKind.code_inj {e e' : ErrKind} : e.code = e'.code ↔ e = e' := by
  cases e <;> cases e' <;> decide

theorem ErrKind.code_ne_zero (e : ErrKind) : e.code ≠ 0 := by cases e <;> decide

/-- Code 10 belongs to a word that is no command (45_system.md rule R225). -/
theorem illegalCmd_not_possible (i : Instr) : .illegalCmd ∉ possibleErrors i := by
  cases i with
  | decode nt => cases nt <;> decide
  | _ => simp [possibleErrors]

/-- Phase 3 of 45_system.md rule R220 can raise for every command that reads IBUF. -/
theorem capacity_possible {i : Instr} (h : readsInput i = true) : .capacity ∈ possibleErrors i := by
  cases i with
  | nop | sreset | crcInit => cases h
  | _ => simp [possibleErrors]

/-- Step S10 is DECODE's own (60_exceptions.md rule R235). -/
theorem eq_decode_of_checksum_possible {i : Instr} (h : .checksum ∈ possibleErrors i) : ∃ nt, i = .decode nt := by
  cases i with
  | decode nt => exact ⟨nt, rfl⟩
  | _ => simp [possibleErrors] at h

/-- Phase 5 stores no code after a body that ran to its end, and the code of what it raised otherwise. -/
theorem complete_commandBody_errcode (i : Instr) (inp : List Byte) (s : State) :
    (complete (commandBody i inp (commonStart s))).get .errcode = 0 ∨
      ∃ e ∈ possibleErrors i, (complete (commandBody i inp (commonStart s))).get .errcode = e.code := by
  have hraises := commandBody_raises i inp (commonStart s)
  have hkept := commandBody_writes i inp (commonStart s) .errcode (errcode_not_written i)
  cases hp : commandBody i inp (commonStart s) with
  | ok _ u =>
    rw [hp] at hkept
    exact .inl ((finish_other u _ (by decide)).trans hkept)
  | raised e u =>
    rw [hp] at hraises
    exact .inr ⟨e, hraises, takeError_errcode e u⟩

/-- ERRCODE at the end of a command is 0 or a code of its row. -/
theorem exec_errcode {i : Instr} {s t : State} (h : exec i s = .next t) :
    t.get .errcode = 0 ∨ ∃ e ∈ possibleErrors i, t.get .errcode = e.code := by
  rcases exec_cases h with ⟨-, rfl⟩ | ⟨hreads, -, rfl⟩ | ⟨-, inp, -, rfl⟩
  · exact .inl rfl
  · exact .inr ⟨.capacity, capacity_possible hreads, takeError_errcode _ _⟩
  · exact complete_commandBody_errcode i inp s

/-- The code of an error that is not in a command's row is not in ERRCODE when the command ends. -/
theorem exec_errcode_ne {i : Instr} {s t : State} {e : ErrKind} (h : exec i s = .next t) (he : e ∉ possibleErrors i) :
    t.get .errcode ≠ e.code := by
  intro hcode
  rcases exec_errcode h with hzero | ⟨e', he', hcode'⟩
  · exact e.code_ne_zero (hcode.symm.trans hzero)
  · exact he (ErrKind.code_inj.mp (hcode.symm.trans hcode') ▸ he')

/-- Settles O41: the codes of the row, of which inputType (1) and illegalCmd (10) never are. -/
theorem commandErrorCodes : Obligations.CommandErrorCodes := fun i _ _ h =>
  ⟨exec_errcode h, exec_errcode_ne h (inputType_not_possible i), exec_errcode_ne h (illegalCmd_not_possible i)⟩

/-! ### A command whose body raises with some registers written (60_exceptions.md rule R236) -/

/-- The registers `rs` that a body has written when it raises stand; every other result register is 0, and CRC is as
it was. -/
theorem exec_of_raised_writing {i : Instr} {s u : State} {inp : List Byte} {e : ErrKind} {rs : List Reg}
    (h : HasInput s inp) (hi : readsInput i = true) (hu : commandBody i inp (commonStart s) = .raised e u)
    (hkept : ∀ r, r ∉ rs → u.get r = (commonStart s).get r) (hcrc : .crc ∉ rs) :
    exec i s = .next (takeError e u) ∧ FailedWith e (takeError e u) ∧
      ResultsZeroBut (.errcode :: rs) (takeError e u) ∧ (takeError e u).get .crc = s.get .crc ∧
      CommandFrame s (takeError e u) := by
  obtain ⟨hrun, hfail, hframe⟩ := exec_of_raised h hi hu
  have hzero : ResultsZeroBut (.errcode :: rs) u := fun r hr hrs =>
    (hkept r fun hm => hrs (List.mem_cons_of_mem _ hm)).trans (commonStart_result s r hr)
  refine ⟨hrun, hfail, takeError_resultsZeroBut hzero List.mem_cons_self, ?_, hframe⟩
  rw [takeError_other _ _ _ (by decide) (by decide) (by decide), hkept _ hcrc, commonStart_crc]

/-- A body that raises with a frame's header in the registers and nothing else written. -/
theorem exec_of_raised_at_header {i : Instr} {s : State} {inp : List Byte} {e : ErrKind} {f : Frame}
    (h : HasInput s inp) (hi : readsInput i = true) (hf : f.Legal)
    (hu : commandBody i inp (commonStart s) = .raised e (headerState f (commonStart s))) :
    ∃ t, exec i s = .next t ∧ FailedWith e t ∧ HeaderShown f s.nows t ∧ ResultsZeroBut (.errcode :: headerRegs) t ∧
      t.get .crc = s.get .crc ∧ CommandFrame s t := by
  obtain ⟨hrun, hfail, hzero, hcrc, hframe⟩ :=
    exec_of_raised_writing h hi hu (headerState_other f _) (by decide)
  exact ⟨_, hrun, hfail, takeError_shown (headerState_shown f hf (commonStart s) rfl rfl rfl), hzero, hcrc, hframe⟩

/-! ### The commands that parse a header (43_frame_decode.md rule R172) -/

/-- DECODE, INSPECT, VERIFY and INFO. -/
def headerCommands (nt : Bool) : List Instr := [.decode nt, .inspect, .verify, .info]

theorem readsInput_of_headerCommand {nt : Bool} {i : Instr} (hi : i ∈ headerCommands nt) : readsInput i = true := by
  simp only [headerCommands, List.mem_cons, List.not_mem_nil, or_false] at hi
  obtain rfl | rfl | rfl | rfl := hi <;> rfl

/-- Where `parse_header` raises whether or not it looks at the expiry, the whole command does. -/
theorem commandBody_of_header_raised {nt : Bool} {i : Instr} (hi : i ∈ headerCommands nt) {inp : List Byte}
    {s u : State} {e : ErrKind} (h : ∀ chk, parseHeader inp chk s = .raised e u) :
    commandBody i inp s = .raised e u := by
  simp only [headerCommands, List.mem_cons, List.not_mem_nil, or_false] at hi
  obtain rfl | rfl | rfl | rfl := hi <;> simp only [commandBody, h, Proc.bind_raised]

/-- An error of `parse_header` before any register is written. -/
theorem exec_of_header_raised_at_start {nt : Bool} {i : Instr} (hi : i ∈ headerCommands nt) {s : State}
    {inp : List Byte} {e : ErrKind} (h : HasInput s inp)
    (hu : ∀ chk, parseHeader inp chk (commonStart s) = .raised e (commonStart s)) :
    ∃ t, exec i s = .next t ∧ FailedWith e t ∧ ResultsZeroBut [.errcode] t ∧ t.get .crc = s.get .crc ∧
      CommandFrame s t :=
  exec_of_raised_at_start h (readsInput_of_headerCommand hi) (commandBody_of_header_raised hi hu)

/-! ### Steps S1 to S3: the marker, the sextet text, the length of the envelope -/

theorem parseHeader_of_openText_error {s : State} {inp : List Byte} {e : ErrKind} (chk : Bool)
    (h : openText s.params inp = .error e) : parseHeader inp chk s = .raised e s := by
  rw [parseHeader, h, orRaise_error, Proc.bind_raised]

theorem parseHeader_of_carries {s : State} {inp e : List Byte} (chk : Bool) (hc : Carries s.params inp e)
    (hlen : 3 ≤ e.length) : parseHeader inp chk s = parseEnvelope e chk s := by
  rw [parseHeader, openText_ok hc hlen, orRaise_ok, Proc.bind_ok]

/-- Settles O35: step S1 raises before anything is written; VALIDATE's answer is that of its written-out
conjunction. -/
theorem missingMarkRaises : Obligations.MissingMarkRaises := by
  intro s inp h hmark
  refine ⟨fun nt i hi => ?header, ?validate⟩
  case header =>
    exact exec_of_header_raised_at_start hi h fun chk =>
      parseHeader_of_openText_error chk (openText_missing hmark)
  case validate =>
    obtain ⟨t, hrun, hdone, -, -, -, -, -, hno, -⟩ := validateAnswersStructure s inp h
    exact ⟨t, hrun, hdone, hno fun ⟨u, hu, _⟩ => hmark ⟨u, hu⟩⟩

/-- After the marker: a text `sxt_dec` rejects, or an envelope without its 3-byte header. -/
theorem openText_malformed {p : Params} {u : List Byte}
    (h : ¬ LegalText p u ∨ ∃ e, sxtDec p u = .ok e ∧ e.length < 3) :
    openText p (0x64 :: 0x78 :: u) = .error .format := by
  rw [openText, if_pos ((hasMark_iff _).mpr ⟨u, rfl⟩), List.drop_succ_cons, List.drop_succ_cons, List.drop_zero]
  obtain hillegal | ⟨e, he, hshort⟩ := h
  · rw [sxtDec_of_not_legalText hillegal]
  · simp only [he, if_pos hshort]

/-! ### Steps S4 and S6: the flags byte and the TTL block -/

/-- Step S4 raises with the flags byte in FLAGS, whatever follows the header. -/
theorem parseEnvelope_of_reserved {f : Byte} (hf : reservedFlagsSet f = true) (k1 k0 : Byte) (rest : List Byte)
    (chk : Bool) (s : State) :
    parseEnvelope (f :: k1 :: k0 :: rest) chk s = .raised .invalidFlags (s.set .flags (byteWord f)) :=
  if_pos hf

/-- The state after steps S4 and S5. -/
def storedState (f : Byte) (stored : Half) (s : State) : State :=
  (s.set .flags (byteWord f)).set .crcStored (halfWord stored)

/-- Step S6 raises when the TTL block is cut short. -/
theorem parseEnvelope_of_short_ttl {f : Byte} (hf : f.toNat < 8) (httl : f.getLsbD 2 = true) (stored : Half)
    {rest : List Byte} (hrest : rest.length < 8) (chk : Bool) (s : State) :
    parseEnvelope (f :: (be16 stored ++ rest)) chk s = .raised .format (storedState f stored s) := by
  have hreserved : reservedFlagsSet f = false := by simpa [reservedFlagsSet_eq] using hf
  have hshort (s : State) : parseTtl f stored rest chk s = .raised .format s := by
    unfold parseTtl
    rw [if_pos ((hasTtl_eq f).trans httl)]
    split
    · simp only [List.length_cons] at hrest
      omega
    · rfl
  simp only [be16, List.cons_append, List.nil_append, parseEnvelope, hreserved, Bool.false_eq_true, if_false,
    fromBe16_be16, hshort, storedState]

/-- Settles O37: step S4 raises with FLAGS alone written. -/
theorem reservedFlagsRaise : Obligations.ReservedFlagsRaise := by
  intro s inp f k1 k0 rest h hc hreserved nt i hi
  have hbody : commandBody i inp (commonStart s) = .raised .invalidFlags ((commonStart s).set .flags (byteWord f)) :=
    commandBody_of_header_raised hi fun chk => by
      rw [parseHeader_of_carries (s := commonStart s) chk hc (by simp)]
      exact parseEnvelope_of_reserved (bne_iff_ne.mpr hreserved) k1 k0 rest chk _
  obtain ⟨hrun, hfail, hzero, hcrc, hframe⟩ :=
    exec_of_raised_writing (rs := [.flags]) h (readsInput_of_headerCommand hi) hbody
      (fun r hr => State.get_set_ne _ _ _ _ (List.ne_of_not_mem_cons hr)) (by decide)
  exact ⟨_, hrun, hfail, by simp, hzero, hcrc, hframe⟩

/-- A TTL block cut short leaves FLAGS and CRC_STORED. -/
theorem exec_of_short_ttl {nt : Bool} {i : Instr} (hi : i ∈ headerCommands nt) {s : State} {inp rest : List Byte}
    {f : Byte} {stored : Half} (h : HasInput s inp) (hc : Carries s.params inp (f :: (be16 stored ++ rest)))
    (hf : f.toNat < 8) (httl : f.getLsbD 2 = true) (hrest : rest.length < 8) :
    ∃ t, exec i s = .next t ∧ FailedWith .format t ∧ ResultsZeroBut [.errcode, .flags, .crcStored] t ∧
      (t.get .flags).toNat = f.toNat ∧ (t.get .crcStored).toNat = stored.toNat ∧ t.get .crc = s.get .crc ∧
      CommandFrame s t := by
  have hbody : commandBody i inp (commonStart s) = .raised .format (storedState f stored (commonStart s)) :=
    commandBody_of_header_raised hi fun chk => by
      rw [parseHeader_of_carries (s := commonStart s) chk hc (by simp),
        parseEnvelope_of_short_ttl hf httl stored hrest]
  have hkept : ∀ r, r ∉ [Reg.flags, .crcStored] →
      (storedState f stored (commonStart s)).get r = (commonStart s).get r := fun r hr => by
    simp only [List.mem_cons, List.not_mem_nil, or_false, not_or] at hr
    obtain ⟨hflags, hstored⟩ := hr
    simp [storedState, hflags, hstored]
  obtain ⟨hrun, hfail, hzero, hcrc, hframe⟩ :=
    exec_of_raised_writing h (readsInput_of_headerCommand hi) hbody hkept (by decide)
  exact ⟨_, hrun, hfail, hzero, by simp [storedState], by simp [storedState], hcrc, hframe⟩

/-! ### Step S7: expiry (60_exceptions.md rule R237) -/

/-- EXPIRES_HI and EXPIRES_LO together are the 33-bit expiry (10_state.md rules R37 and R38). -/
theorem HeaderShown.expiry {f : Frame} {nows : Word} {t : State} (h : HeaderShown f nows t)
    (hpos : 0 < f.seconds.toNat) :
    (if (t.get .info).getLsbD 5 then 2 ^ 32 else 0) + (t.get .expiresLo).toNat =
      f.created.toNat + f.seconds.toNat := by
  have hcreated := f.created.isLt
  have hseconds := f.seconds.isLt
  rw [h.infoHigh, h.expiresLo, if_pos hpos]
  simp only [hpos, true_and, decide_eq_true_eq]
  split <;> omega

/-- Settles O38: step S7 raises with the header in the registers. -/
theorem expiredTextRaises : Obligations.ExpiredTextRaises := by
  intro s inp f h hc hf _ hx i hi
  have hraise := parseHeader_of_expired (s := commonStart s) hc hf hx
  have hbody : readsInput i = true ∧
      commandBody i inp (commonStart s) = .raised .expired (headerState f (commonStart s)) := by
    simp only [List.mem_cons, List.not_mem_nil, or_false] at hi
    obtain rfl | rfl := hi
    · exact ⟨rfl, by rw [commandBody, checkTtlOption, Bool.not_false, hraise, Proc.bind_raised]⟩
    · exact ⟨rfl, by rw [commandBody, hraise, Proc.bind_raised]⟩
  obtain ⟨t, hrun, hfail, hshown, hzero, hcrc, hframe⟩ := exec_of_raised_at_header h hbody.1 hf hbody.2
  exact ⟨t, hrun, hfail, hshown, hshown.created, hshown.expiry hx.1, hzero, hcrc, hframe⟩

/-! ### Step S8: a compressed payload without its size field -/

theorem recover_of_short_payload {h : Header} (hcomp : h.flags.getLsbD 0 = true) (hlen : h.payload.length < 2)
    (s : State) : recover h s = .raised .format s := by
  have hraise : recoverBytes h s = .raised .format s := by
    rw [recoverBytes, if_pos ((isCompressed_eq _).trans hcomp)]
    split
    · rename_i hp
      rw [hp] at hlen
      simp only [List.length_cons] at hlen
      omega
    · rfl
  rw [recover, hraise, Proc.bind_raised]

/-- Whatever a command does after `recover`, it does not come to it. -/
theorem bind_recover_of_short_payload {s : State} {inp : List Byte} {f : Frame} {chk : Bool}
    (hc : Carries s.params inp f.envelope) (hf : f.Legal) (hx : chk = true → ¬ f.Expired s.nows)
    (hcomp : f.flags.getLsbD 0 = true) (hlen : f.payload.length < 2) (g : Header → List Byte → State → Proc Unit) :
    ((parseHeader inp chk s).bind fun h u => (recover h u).bind (g h)) = .raised .format (headerState f s) := by
  rw [parseHeader_of_unexpired hc hf hx, Proc.bind_ok, recover_of_short_payload hcomp hlen, Proc.bind_raised]

/-- Settles O36: SXT_DEC's own check, then steps S2 and S3, S6, and S8 of the decoder. -/
theorem malformedTextRaisesFormat : Obligations.MalformedTextRaisesFormat := by
  intro s inp h
  refine ⟨fun hillegal => ?sxtDec, fun u hinp hbad nt i hi => ?text, fun f stored rest hc hf httl hrest nt i hi => ?ttl,
    fun f hc hf hcomp hlen => ?payload⟩
  case sxtDec =>
    refine exec_of_raised_at_start h rfl ?_
    rw [commandBody, commonStart_params, sxtDec_of_not_legalText hillegal, orRaise_error, Proc.bind_raised]
  case text =>
    subst hinp
    exact exec_of_header_raised_at_start hi h fun chk => parseHeader_of_openText_error chk (openText_malformed hbad)
  case ttl => exact exec_of_short_ttl hi h hc hf httl hrest
  case payload =>
    have hraise (chk : Bool) (hx : chk = true → ¬ f.Expired s.nows) (g : Header → List Byte → State → Proc Unit) :=
      bind_recover_of_short_payload (s := commonStart s) hc hf hx hcomp hlen g
    refine ⟨fun nt hx => ?decode, ?inspect, fun hx => ?verify⟩
    case decode =>
      exact exec_of_raised_at_header h rfl hf (hraise _ (fun hchk => hx ((checkTtlOption_eq_true_iff nt).mp hchk)) _)
    case inspect => exact exec_of_raised_at_header h rfl hf (hraise false nofun _)
    case verify => exact exec_of_raised_at_header h rfl hf (hraise true (fun _ => hx) _)

/-! ### Step S10: the checksum (60_exceptions.md rule R235) -/

/-- DECODE raises where the checksums differ, with the original bytes' checksum written. -/
theorem commandBody_decode_of_mismatch {s : State} {inp : List Byte} {nt : Bool} {f : Frame} {orig : Half}
    {o : List Byte} (hc : Carries s.params inp f.envelope) (hf : f.Legal) (ho : f.Holds orig o)
    (hk : f.stored ≠ crc16 o) (hx : nt = false → ¬ f.Expired s.nows) :
    commandBody (.decode nt) inp s = .raised .checksum (recoveredState f orig o s) :=
  (bind_recover_of_frame hc hf (fun hchk => hx ((checkTtlOption_eq_true_iff nt).mp hchk)) ho _).trans
    (if_pos hk.symm)

theorem decode_checksum_mismatch {s : State} {inp : List Byte} {nt : Bool} {f : Frame} {orig : Half} {o : List Byte}
    (h : HasInput s inp) (hc : Carries s.params inp f.envelope) (hf : f.Legal) (ho : f.Holds orig o)
    (hk : f.stored ≠ crc16 o) (hx : nt = false → ¬ f.Expired s.nows) :
    ∃ t, exec (.decode nt) s = .next t ∧ FailedWith .checksum t ∧ RecoveryShown f orig o s.nows t ∧
      t.get .result = 0 ∧ CommandFrame s t := by
  have hbody := commandBody_decode_of_mismatch (s := commonStart s) hc hf ho hk hx
  obtain ⟨hrun, hfail, hframe⟩ := exec_of_raised h rfl hbody
  refine ⟨_, hrun, hfail, recoveryShown_of_get hf ho fun r hr => ?_, ?_, hframe⟩
  · have hne : r ≠ .status ∧ r ≠ .errcode ∧ r ≠ .olen := by revert hr; cases r <;> decide
    exact takeError_other _ _ r hne.1 hne.2.1 hne.2.2
  · exact (takeError_other _ _ _ (by decide) (by decide) (by decide)).trans (recoveredState_result f orig o s)

/-- Settles O39: DECODE raises in step S10, VERIFY and INSPECT answer the comparison, and code 5 is in no other row. -/
theorem checksumMismatchHandled : Obligations.ChecksumMismatchHandled := by
  refine ⟨fun s inp f orig o h hc hf ho hk => ⟨fun nt hx => ?decode, fun hx => ?verify, ?inspect⟩,
    fun i s t hrun hcode => ?only⟩
  case decode =>
    obtain ⟨t, hrun, hfail, hshown, hresult, hframe⟩ := decode_checksum_mismatch h hc hf ho hk hx
    exact ⟨t, hrun, hfail, hshown.header.stored, hshown.header, hshown.crcComputed, hshown.crc, hshown.origSize,
      hresult, hframe⟩
  case verify =>
    obtain ⟨t, hrun, hdone, -, -, -, -, hresult, -⟩ := verifyAnswersMatch s inp f orig o h hc hf ho hx
    exact ⟨t, hrun, hdone, hresult.trans (if_neg hk)⟩
  case inspect =>
    obtain ⟨t, hrun, hdone, -, -, -, -, hresult, -⟩ := inspectShowsBothChecksums s inp f orig o h hc hf ho
    exact ⟨t, hrun, hdone, hresult.trans (if_neg hk)⟩
  case only =>
    refine eq_decode_of_checksum_possible ?_
    by_contra hchecksum
    exact exec_errcode_ne hrun hchecksum hcode

end Sys2Proof.Machine
end

section
/-!
PROOFS. Time (60_exceptions.md rule R250, 10_state.md rule R36). A change of the two times commutes with every register
write, so with every procedure that does not read NOWS, so with the commands.
-/

namespace Sys2Proof.Machine

/-! ### Changes of time alone -/

/-- A change of NOWS or of the NOW input: it commutes with the register writes and the writes to OBUF, and nothing
else than the two times differs after it. -/
structure TimeChange (φ : State → State) : Prop where
  set : ∀ s r v, (φ s).set r v = φ (s.set r v)
  setObuf : ∀ (s : State) m, { φ s with obuf := m } = φ { s with obuf := m }
  commonStart : ∀ s, commonStart (φ s) = φ (commonStart s)
  get : ∀ s r, r ≠ .now → (φ s).get r = s.get r
  params : ∀ s, (φ s).params = s.params
  ibuf : ∀ s, (φ s).ibuf = s.ibuf

theorem timeChange_nows (v : Word) : TimeChange fun s => { s with nows := v } where
  set s r w := State.set_nows_update s v w r
  setObuf _ _ := rfl
  commonStart _ := rfl
  get s r _ := State.get_nows_update s v r
  params _ := rfl
  ibuf _ := rfl

theorem timeChange_nowInput (v : Word) : TimeChange fun s => { s with nowInput := v } where
  set _ r _ := by cases r <;> rfl
  setObuf _ _ := rfl
  commonStart _ := rfl
  get s r hr := by
    cases r with
    | now => exact absurd rfl hr
    | _ => rfl
  params _ := rfl
  ibuf _ := rfl

/-! ### Procedures that commute with a change of state -/

/-- The same outcome in a changed state. -/
def Proc.mapState {α : Type} (φ : State → State) : Proc α → Proc α
  | .ok a s => .ok a (φ s)
  | .raised e s => .raised e (φ s)

/-- The procedure does the same from a changed state, and ends in the changed state. -/
def Commutes {α : Type} (φ : State → State) (p : State → Proc α) : Prop := ∀ s, p (φ s) = (p s).mapState φ

theorem Commutes.bind {α β : Type} {φ : State → State} {p : State → Proc α} {f : α → State → Proc β}
    (hp : Commutes φ p) (hf : ∀ a, Commutes φ (f a)) : Commutes φ fun s => (p s).bind f := by
  intro s
  simp only [hp s]
  cases p s with
  | ok a t => exact hf a t
  | raised e t => rfl

theorem commutes_orRaise {α : Type} (φ : State → State) (r : Except ErrKind α) : Commutes φ (orRaise r) := by
  intro s
  cases r <;> rfl

section
variable {φ : State → State} (hφ : TimeChange φ)
include hφ

theorem commutes_set (r : Reg) (v : Word) : Commutes φ fun s => .ok () (s.set r v) :=
  fun s => congrArg (Proc.ok ()) (hφ.set s r v)

theorem commutes_emit (v : List Byte) : Commutes φ (emit v) := by
  intro s
  rw [emit, hφ.setObuf, hφ.set, hφ.params, emit]
  split <;> rfl

theorem commutes_recover (h : Header) : Commutes φ (recover h) := by
  have hbytes : Commutes φ (recoverBytes h) := by
    intro s
    simp only [recoverBytes, hφ.set]
    split
    · split
      · exact commutes_orRaise φ _ _
      · rfl
    · rfl
  exact hbytes.bind fun o s => by simp only [hφ.set, Proc.mapState]

theorem writeEncodeRegs_timeChange (o : List Byte) (f : Byte) (s : State) :
    writeEncodeRegs o f (φ s) = φ (writeEncodeRegs o f s) := by
  simp only [writeEncodeRegs, hφ.set, hφ.get _ .ilen (by decide)]
  split <;> rfl

theorem complete_timeChange (p : Proc Unit) : complete (p.mapState φ) = φ (complete p) := by
  cases p with
  | ok _ s => exact hφ.set s .status (statusWord false true false)
  | raised e s => simp only [Proc.mapState, complete_raised, takeError, hφ.setObuf, hφ.set]

/-! ### `parse_header` reads NOWS (43_frame_decode.md rules R172 and R175) -/

theorem commutes_parseTtl (hnows : ∀ s, (φ s).nows = s.nows) (f : Byte) (stored : Half) (rest : List Byte)
    (chk : Bool) : Commutes φ (parseTtl f stored rest chk) := by
  intro s
  simp only [parseTtl, writeInfo, writeTtlRegs, hφ.set, hnows, State.set_nows]
  split
  · split
    · split <;> rfl
    · rfl
  · rfl

theorem commutes_parseEnvelope (hnows : ∀ s, (φ s).nows = s.nows) (e : List Byte) (chk : Bool) :
    Commutes φ (parseEnvelope e chk) := by
  intro s
  simp only [parseEnvelope, hφ.set]
  split
  · split
    · rfl
    · exact commutes_parseTtl hφ hnows _ _ _ _ _
  · rfl

theorem commutes_parseHeader (hnows : ∀ s, (φ s).nows = s.nows) (t : List Byte) (chk : Bool) :
    Commutes φ (parseHeader t chk) := by
  intro s
  simp only [parseHeader, hφ.params]
  exact (commutes_orRaise φ (openText s.params t)).bind (fun e => commutes_parseEnvelope hφ hnows e chk) s

/-! ### The commands -/

/-- The body of a command that does not read NOWS, or of any command when NOWS is as it was. -/
theorem commutes_commandBody (i : Instr) (hi : dependsOnTime i = false ∨ ∀ s, (φ s).nows = s.nows)
    (inp : List Byte) : Commutes φ (commandBody i inp) := by
  have hnows (htime : dependsOnTime i = true) : ∀ s, (φ s).nows = s.nows :=
    hi.resolve_left (by simp [htime])
  cases i with
  | nop | sreset => exact fun _ => rfl
  | crcInit => exact commutes_set hφ _ _
  | crcUpdate =>
    intro s
    simp only [commandBody, crcOperand, hφ.get _ .crc (by decide)]
    exact commutes_set hφ _ _ s
  | crcCalc => exact fun s => by simp only [commandBody, hφ.set, Proc.mapState]
  | validate =>
    intro s
    simp only [commandBody, hφ.params]
    exact commutes_set hφ _ _ s
  | sxtEnc =>
    intro s
    simp only [commandBody, hφ.params]
    exact commutes_emit hφ _ s
  | sxtDec =>
    intro s
    simp only [commandBody, hφ.params]
    exact (commutes_orRaise φ _).bind (commutes_emit hφ) s
  | dflStore | dflUnstore => exact (commutes_orRaise φ _).bind (commutes_emit hφ)
  | encode nc =>
    intro s
    simp only [commandBody, hφ.params, writeEncodeRegs_timeChange hφ, hφ.set]
    exact commutes_emit hφ _ _
  | encodeTtl nc =>
    intro s
    simp only [commandBody, writeInfo, writeTtlRegs, hφ.params, hφ.get _ .ttlArg (by decide), hnows rfl,
      writeEncodeRegs_timeChange hφ, hφ.set]
    exact commutes_emit hφ _ _
  | decode nt =>
    refine (commutes_parseHeader hφ (hnows rfl) inp _).bind fun h => (commutes_recover hφ h).bind fun o s => ?_
    split
    · rfl
    · exact commutes_emit hφ o s
  | inspect | verify =>
    exact (commutes_parseHeader hφ (hnows rfl) inp _).bind fun h =>
      (commutes_recover hφ h).bind fun o => commutes_set hφ _ _
  | info => exact (commutes_parseHeader hφ (hnows rfl) inp _).bind fun h s => rfl

/-- What a command reads of its input is as it was. -/
theorem inputOf_timeChange (s : State) : inputOf (φ s) = inputOf s := by
  rw [inputOf, inputOf, hφ.ibuf, hφ.get _ .ilen (by decide)]

theorem inputTooLong_timeChange (s : State) : inputTooLong (φ s) = inputTooLong s := by
  rw [inputTooLong, inputTooLong, hφ.params, hφ.get _ .ilen (by decide)]

end

/-- The same answer with the next state changed. -/
def mapNext (φ : State → State) : Host.Outcome State Fault Refusal → Host.Outcome State Fault Refusal
  | .next t => .next (φ t)
  | .fault r => .fault r
  | .refused r => .refused r

theorem runOnInput_timeChange {φ : State → State} (hφ : TimeChange φ) {body : List Byte → State → Proc Unit}
    (hbody : ∀ inp, Commutes φ (body inp)) (s : State) : runOnInput (φ s) body = mapNext φ (runOnInput s body) := by
  simp only [runOnInput, inputTooLong_timeChange hφ, inputOf_timeChange hφ, hφ.commonStart]
  split
  · exact congrArg Host.Outcome.next (complete_timeChange hφ (.raised .capacity (commonStart s)))
  · split
    · rfl
    · simp only [hbody _ _, complete_timeChange hφ, mapNext]

/-- A command other than SRESET commutes with a change of time, unless it depends on a NOWS that changes. -/
theorem exec_timeChange {φ : State → State} (hφ : TimeChange φ) {i : Instr} (hsreset : i ≠ .sreset)
    (hi : dependsOnTime i = false ∨ ∀ s, (φ s).nows = s.nows) (s : State) :
    exec i (φ s) = mapNext φ (exec i s) := by
  cases hreads : readsInput i with
  | true =>
    rw [exec_input i _ hreads, exec_input i _ hreads]
    exact runOnInput_timeChange hφ (commutes_commandBody hφ i hi) s
  | false =>
    rw [exec_plain i _ hreads hsreset, exec_plain i _ hreads hsreset, hφ.commonStart,
      commutes_commandBody hφ i hi, complete_timeChange hφ, mapNext]

theorem exec_nowInput (i : Instr) (s : State) (v : Word) :
    exec i { s with nowInput := v } = mapNext (fun t => { t with nowInput := v }) (exec i s) := by
  by_cases hsreset : i = .sreset
  · subst hsreset
    rfl
  · exact exec_timeChange (timeChange_nowInput v) hsreset (.inr fun _ => rfl) s

/-- Settles O45: `exec_timeChange` for NOWS, `exec_nowInput` for the NOW input; SRESET clears NOWS. -/
theorem timeDoesNotMatter : Obligations.TimeDoesNotMatter := by
  refine ⟨fun i s v hi hsreset => ?nows, fun s v => rfl, fun i s v => ?nowInput⟩
  case nows =>
    refine (exec_timeChange (timeChange_nows v) hsreset (.inl hi) s).trans ?_
    cases exec i s <;> rfl
  case nowInput =>
    refine (exec_nowInput i s v).trans ?_
    cases exec i s <;> rfl

end Sys2Proof.Machine
end

section
/-!
PROOFS. Hardware reset (70_reset_and_hazards.md rules R260 to R262). The reset state and the hardware reset hold in every
register what the register reset leaves there (`resetRegisters_get`); what they have of their own is the empty buffers.
-/

namespace Sys2Proof.Machine

/-! ### The registers after reset (rule R261) -/

@[simp] theorem resetRegisters_get_crc (s : State) : (resetRegisters s).get .crc = 0x0000FFFF := rfl

/-- NOW is not reset: it follows its input (10_state.md rule R36). -/
@[simp] theorem resetRegisters_get_now (s : State) : (resetRegisters s).get .now = s.get .now := rfl

/-- The reset state has nothing left to reset. -/
theorem resetRegisters_resetWith (p : Config.Params) : resetRegisters (State.resetWith p) = State.resetWith p := rfl

/-- In the registers hardware reset and SRESET's register reset agree (rule R262). -/
@[simp] theorem hardwareReset_get (s : State) (r : Reg) : (hardwareReset s).get r = (resetRegisters s).get r := by
  cases r <;> rfl

/-- Settles O48: the reset state is its own register reset, with empty buffers. -/
theorem resetValues : Obligations.ResetValues := by
  intro p
  refine ⟨fun r hcrc hnow => ?_, ?_, rfl, rfl, ?_, fun a => Memory.read_nil a, fun a => Memory.read_nil a⟩
  · rw [← resetRegisters_resetWith, resetRegisters_get _ hcrc hnow]
  · rw [← resetRegisters_resetWith, resetRegisters_get_crc]
  · rw [← resetRegisters_resetWith, resetRegisters_busy]

/-! ### The turn of the hardware reset input (rule R260) -/

/-- The turn is there whatever BUSY is (logs 2 and 11). -/
theorem step_of_hardwareReset_turn {s : State} {rest : List Event} (h : s.events = .hardwareReset :: rest) :
    step s = .next (hardwareReset { s with events := rest }) := by
  simp only [step, h, takeTurn]

/-- Settles O57: using up the turn changes neither NOW nor the parameters; BUSY is read nowhere. -/
theorem hardwareResetRestoresState : Obligations.HardwareResetRestoresState := by
  intro s rest
  refine ⟨_, step_of_hardwareReset_turn rfl, fun r hcrc hnow => ?_, ?_, ?_, rfl, hardwareReset_busy _,
    fun a => Memory.read_nil a, fun a => Memory.read_nil a, rfl, rfl⟩
  · rw [hardwareReset_get, resetRegisters_get _ hcrc hnow]
  · rw [hardwareReset_get, resetRegisters_get_crc]
  · rw [hardwareReset_get, resetRegisters_get_now]
    exact State.get_events_update s rest .now

end Sys2Proof.Machine
end
